-- ==== Sys2Proof/Word.lean ====
section
/-! DEFINITION. The words of the block: 16-bit registers, bytes, callback handles, and the two units. -/

namespace Sys2Proof

/-- A register word, 16 bits (00_scope R11, 20_memory R74). -/
abbrev Word := BitVec 16

/-- A data byte (00_scope R11). -/
abbrev Byte := BitVec 8

/-- A host callback handle: a name of host code that the block only stores, compares with nothing and hands back
(30_encoding R105, 10_state R50). -/
abbrev Handle := Nat

/-- The unit index `u` of 00_scope R12: 0 names unit 1 and 1 names unit 2. Every value is valid (20_memory R71). -/
inductive UnitId where
  /-- `u = 0` -/
  | unit1
  /-- `u = 1` -/
  | unit2
  deriving DecidableEq, Repr, Inhabited

end Sys2Proof
end

