-- ==== Sys2Proof/Syntax.lean ====
section
/-! DEFINITION. What the block is handed: the two encoded forms of 30_encoding R100 as they arrive, the instructions they
stand for (one constructor per row of spec/opcode_table.json), and the moves of the agents of 00_scope R9. -/

namespace Sys2Proof

/-- The operand record that accompanies a CMD16 word (30_encoding R105). A command uses the fields its row of R104
names and ignores the others. -/
structure OperandRecord where
  data8   : Byte
  sendAck : Bool
  addr8   : Byte
  reg8    : Byte
  bytes   : List Byte
  count16 : BitVec 16
  maxOut8 : Byte
  cfgw64  : BitVec 64
  cbh     : Option Handle
  speed32 : BitVec 32
  deriving DecidableEq, Repr, Inhabited

/-- An encoded request, on the interface it arrives on (30_encoding R100, R114). -/
inductive Request where
  /-- REGACC22: a register access word on the register interface (R101). -/
  | reg (w : BitVec 22)
  /-- CMD16 with its operand record on the command interface (R103, R105). -/
  | cmd (w : BitVec 16) (ops : OperandRecord)
  deriving DecidableEq, Repr, Inhabited

/-- The instructions: 19 commands (30_encoding R104) and 18 register access forms (R102), in the order of
spec/opcode_table.json. `u` is the unit, `v` the written word. -/
inductive Instr where
  /-- START (42 R196) -/
  | start (u : UnitId)
  /-- RESTART (42 R198) -/
  | restart (u : UnitId)
  /-- STOP (42 R199) -/
  | stop (u : UnitId)
  /-- WAIT (42 R201) -/
  | wait (u : UnitId)
  /-- WRITE_BYTE with DATA8 (43 R215) -/
  | writeByte (u : UnitId) (d : Byte)
  /-- READ_BYTE with SENDACK, true for ACK (43 R217) -/
  | readByte (u : UnitId) (sendAck : Bool)
  /-- WRITE_DATA with ADDR8 and BYTES (44 R233) -/
  | writeData (u : UnitId) (a : Byte) (bs : List Byte)
  /-- READ_DATA with ADDR8 and COUNT16 (44 R234) -/
  | readData (u : UnitId) (a : Byte) (c : BitVec 16)
  /-- WRITE_REGISTER with ADDR8, REG8 and BYTES (44 R235) -/
  | writeRegister (u : UnitId) (a r : Byte) (bs : List Byte)
  /-- READ_REGISTER with ADDR8, REG8 and COUNT16 (44 R236) -/
  | readRegister (u : UnitId) (a r : Byte) (c : BitVec 16)
  /-- SCAN_BUS with MAXOUT8 (44 R237) -/
  | scanBus (u : UnitId) (m : Byte)
  /-- INIT with CFGW64 and CBH (46 R290) -/
  | init (u : UnitId) (w : BitVec 64) (h : Option Handle)
  /-- CLEAR_ERRORS (46 R292) -/
  | clearErrors (u : UnitId)
  /-- IS_BUSY (46 R293) -/
  | isBusy (u : UnitId)
  /-- GET_STATUS (46 R294) -/
  | getStatus (u : UnitId)
  /-- GET_CONFIG (46 R295) -/
  | getConfig (u : UnitId)
  /-- REGISTER_CALLBACK with CBH (46 R296) -/
  | registerCallback (u : UnitId) (h : Option Handle)
  /-- CALC_DIVIDER with SPEED32 (41 R180) -/
  | calcDivider (u : UnitId) (speed : BitVec 32)
  /-- DISPATCH (45 R271) -/
  | dispatch (u : UnitId)
  /-- CON_SEN: write of CON with `v[4:0] = 0b00001` (40 R134) -/
  | conSen (u : UnitId) (v : Word)
  /-- CON_RSEN: write of CON with `v[4:0] = 0b00010` (40 R135) -/
  | conRsen (u : UnitId) (v : Word)
  /-- CON_PEN: write of CON with `v[4:0] = 0b00100` (40 R136) -/
  | conPen (u : UnitId) (v : Word)
  /-- CON_RCEN: write of CON with `v[4:0] = 0b01000` (40 R137) -/
  | conRcen (u : UnitId) (v : Word)
  /-- CON_XEN: write of CON with `v[4:0] = 0b10000` (40 R138) -/
  | conXen (u : UnitId) (v : Word)
  /-- CON_CFG: write of CON with `v[4:0] = 0` (40 R131) -/
  | conCfg (u : UnitId) (v : Word)
  /-- CON_MULTI: write of CON with two or more of `v[4:0]` set (40 R133) -/
  | conMulti (u : UnitId) (v : Word)
  /-- STAT_W (40 R139) -/
  | statW (u : UnitId) (v : Word)
  /-- ADD_W (40 R140) -/
  | addW (u : UnitId) (v : Word)
  /-- BRG_W (40 R141) -/
  | brgW (u : UnitId) (v : Word)
  /-- TRN_W (40 R142) -/
  | trnW (u : UnitId) (v : Word)
  /-- RCV_W (40 R143) -/
  | rcvW (u : UnitId) (v : Word)
  /-- IFS_W (40 R144) -/
  | ifsW (u : UnitId) (v : Word)
  /-- ESTAT_W (40 R145) -/
  | estatW (u : UnitId) (v : Word)
  /-- RSVD_W: write of a reserved offset 8 to 15 (40 R146) -/
  | rsvdW (u : UnitId) (off : BitVec 4) (v : Word)
  /-- RCV_R (40 R148) -/
  | rcvR (u : UnitId)
  /-- RSVD_R: read of a reserved offset 8 to 15 (40 R146) -/
  | rsvdR (u : UnitId) (off : BitVec 4)
  /-- REG_R: read of any other offset (40 R147) -/
  | regR (u : UnitId) (off : BitVec 4)
  deriving DecidableEq, Repr, Inhabited

/-- The environment events of `BUS[u]`, with their draws (40 R150 to R155, 45 R262 to R269). An acknowledge bit is
true for NACK (40 R158). -/
inductive BusEvent where
  /-- DONE_SEN (40 R150) -/
  | doneSen
  /-- DONE_RSEN (40 R151) -/
  | doneRsen
  /-- DONE_PEN (40 R152) -/
  | donePen
  /-- DONE_XEN(a) (40 R153) -/
  | doneXen (a : Bool)
  /-- DONE_RCEN(b) (40 R154) -/
  | doneRcen (b : Byte)
  /-- COLLIDE (40 R155) -/
  | collide
  /-- S_START(r), `r` true for a REPEATED START (45 R262) -/
  | sStart (r : Bool)
  /-- S_STOP (45 R263) -/
  | sStop
  /-- S_RXBYTE(b) (45 R264 to R268) -/
  | sRxByte (b : Byte)
  /-- S_TX(a) (45 R269) -/
  | sTx (a : Bool)
  deriving DecidableEq, Repr, Inhabited

/-- One move: which agent takes the next atomic step, with what the outside world chooses (00_scope R9, 20_memory R83).
A move whose conditions do not hold when its turn comes changes nothing. -/
inductive Move where
  /-- HOST hands over a request from the polled context (46 R298). -/
  | host (r : Request)
  /-- HOST code inside a running callback hands over a request (45 R272). -/
  | callback (r : Request)
  /-- The running callback returns to DISPATCH (45 R271 step 4). -/
  | callbackReturn
  /-- ENGINE takes the next atomic step of the polled operation in flight (10 R53). -/
  | engine
  /-- ISR takes the interrupt of unit `u` (45 R270). -/
  | takeIrq (u : UnitId)
  /-- ISR takes the next atomic step of the DISPATCH it runs (45 R271). -/
  | isr
  /-- `BUS[u]` takes an environment event (40 section 3, 45 section 2). -/
  | bus (u : UnitId) (e : BusEvent)
  deriving DecidableEq, Repr, Inhabited

end Sys2Proof
end

