-- ==== Sys2Proof/Config.lean ====
section
/-! DEFINITION. What one device fixes and the spec leaves open (00_scope R11), and the free value that stands for the
outside world's next choice. None of these has a body: nothing can be proved of their values. -/

namespace Sys2Proof

/-- `FCY_HZ`, the instruction-cycle frequency in Hz, a positive integer, OPEN (00_scope R11, D51). -/
opaque Config.fcyHz : ℕ+

/-- `TICKS_PER_MS`, the source's K, a positive integer, OPEN (00_scope R11, D52). -/
opaque Config.ticksPerMs : ℕ+

/-- `MAX_LEN`, the largest byte list or count a transaction accepts, OPEN; `none` is unbounded (00_scope R11, D53). -/
opaque Config.maxLen : Option Nat

/-- The move of the outside world and the agents when State fixes none: any value (00_scope R9, 20_memory R83, 40 R156).
It is applied to the counter `State.tick`. DESIGN CHOICE, safe: log 1. -/
opaque Config.freeMove : Nat → Move

end Sys2Proof
end

