-- ==== Sys2Proof/WellFormed.lean ====
section
/-! DEFINITION. When an instruction is well formed: a register access form carries the word its row of 30_encoding R102
selects, and a command is not one that R112 calls illegal. -/

namespace Sys2Proof

/-- How many of the five command bits `v[4:0]` are written 1 (40 R133). -/
def commandBitsSet (v : Word) : Nat :=
  (v.getLsbD 0).toNat + (v.getLsbD 1).toNat + (v.getLsbD 2).toNat + (v.getLsbD 3).toNat + (v.getLsbD 4).toNat

/-- A list or count of `n` bytes is within `MAX_LEN` (30_encoding R105). -/
def lengthAllowed : Nat → Bool
  | 0 => true
  | n + 1 =>
    match Config.maxLen with
    | none => true
    | some m => decide (n + 1 ≤ m)

/-- The row conditions of 30_encoding R102 and the legality conditions of R112. -/
def Instr.wellFormed : Instr → Bool
  | .writeData _ _ bs => lengthAllowed bs.length
  | .readData _ _ c => lengthAllowed c.toNat
  | .writeRegister _ _ _ bs => lengthAllowed bs.length
  | .readRegister _ _ _ c => lengthAllowed c.toNat
  | .init _ w _ => w.extractLsb' 0 2 != 3#2
  | .conSen _ v => v.extractLsb' 0 5 == 0b00001#5
  | .conRsen _ v => v.extractLsb' 0 5 == 0b00010#5
  | .conPen _ v => v.extractLsb' 0 5 == 0b00100#5
  | .conRcen _ v => v.extractLsb' 0 5 == 0b01000#5
  | .conXen _ v => v.extractLsb' 0 5 == 0b10000#5
  | .conCfg _ v => v.extractLsb' 0 5 == 0#5
  | .conMulti _ v => decide (2 ≤ commandBitsSet v)
  | .rsvdW _ off _ => off.getLsbD 3
  | .rsvdR _ off => off.getLsbD 3
  | .regR _ off => !off.getLsbD 3 && off != 5#4
  | .start _ | .restart _ | .stop _ | .wait _ | .writeByte _ _ | .readByte _ _ | .scanBus _ _ => true
  | .clearErrors _ | .isBusy _ | .getStatus _ | .getConfig _ | .registerCallback _ _ | .calcDivider _ _ => true
  | .dispatch _ => true
  | .statW _ _ | .addW _ _ | .brgW _ _ | .trnW _ _ | .rcvW _ _ | .ifsW _ _ | .estatW _ _ | .rcvR _ => true

end Sys2Proof
end

