-- ==== Sys2Proof/Decode.lean ====
section
/-! DEFINITION. The decoder of both interfaces (30_encoding R102, R104), total, rejecting by name, and the encoder written
from the same tables; the presets and pseudo-instructions of R107 and R116; `decodeTableWord` for the host's table. -/

namespace Sys2Proof

/-- Why a CMD16 word names no operation (30_encoding R112): the engine then answers `illegal = 1` (46 R299). -/
inductive DecodeError where
  /-- `Z = CMD16[15:9]` is not 0 -/
  | reservedBitsSet
  /-- `OP = CMD16[7:0]` is not in R104 -/
  | unknownOpcode
  deriving DecidableEq, Repr

/-- The unit a U bit names (30_encoding R101, R103). -/
def unitOfBit (b : Bool) : UnitId := if b then .unit2 else .unit1

/-- The U bit of a unit (30_encoding R101, R103). -/
def bitOfUnit : UnitId → BitVec 1
  | .unit1 => 0#1
  | .unit2 => 1#1

/-- A row of 30_encoding R102 matches a word when the masked word is the match value. -/
def rowHit (w mask mtch : BitVec 22) : Bool := (w &&& mask) == mtch

/-- REGACC22 (30_encoding R102): the first row that matches selects the form. The last row takes every word left, so
the decoder is total. -/
def decodeReg (w : BitVec 22) : Instr :=
  let u := unitOfBit (w.getLsbD 20)
  let off : BitVec 4 := w.extractLsb' 16 4
  let v : Word := w.extractLsb' 0 16
  if rowHit w 0x2F001F 0x200001 then .conSen u v
  else if rowHit w 0x2F001F 0x200002 then .conRsen u v
  else if rowHit w 0x2F001F 0x200004 then .conPen u v
  else if rowHit w 0x2F001F 0x200008 then .conRcen u v
  else if rowHit w 0x2F001F 0x200010 then .conXen u v
  else if rowHit w 0x2F001F 0x200000 then .conCfg u v
  else if rowHit w 0x2F0000 0x200000 then .conMulti u v
  else if rowHit w 0x2F0000 0x210000 then .statW u v
  else if rowHit w 0x2F0000 0x220000 then .addW u v
  else if rowHit w 0x2F0000 0x230000 then .brgW u v
  else if rowHit w 0x2F0000 0x240000 then .trnW u v
  else if rowHit w 0x2F0000 0x250000 then .rcvW u v
  else if rowHit w 0x2F0000 0x260000 then .ifsW u v
  else if rowHit w 0x2F0000 0x270000 then .estatW u v
  else if rowHit w 0x280000 0x280000 then .rsvdW u off v
  else if rowHit w 0x2F0000 0x050000 then .rcvR u
  else if rowHit w 0x280000 0x080000 then .rsvdR u off
  else .regR u off

/-- CMD16 with its operand record (30_encoding R103 to R105): the word decodes by OP alone, Z must be 0. -/
def decodeCmd (w : BitVec 16) (o : OperandRecord) : Except DecodeError Instr :=
  let u := unitOfBit (w.getLsbD 8)
  if w.extractLsb' 9 7 != 0#7 then .error .reservedBitsSet
  else
    match (w.extractLsb' 0 8).toNat with
    | 0x01 => .ok (.start u)
    | 0x02 => .ok (.restart u)
    | 0x03 => .ok (.stop u)
    | 0x04 => .ok (.wait u)
    | 0x10 => .ok (.writeByte u o.data8)
    | 0x11 => .ok (.readByte u o.sendAck)
    | 0x20 => .ok (.writeData u o.addr8 o.bytes)
    | 0x21 => .ok (.readData u o.addr8 o.count16)
    | 0x22 => .ok (.writeRegister u o.addr8 o.reg8 o.bytes)
    | 0x23 => .ok (.readRegister u o.addr8 o.reg8 o.count16)
    | 0x24 => .ok (.scanBus u o.maxOut8)
    | 0x30 => .ok (.init u o.cfgw64 o.cbh)
    | 0x31 => .ok (.clearErrors u)
    | 0x32 => .ok (.isBusy u)
    | 0x33 => .ok (.getStatus u)
    | 0x34 => .ok (.getConfig u)
    | 0x35 => .ok (.registerCallback u o.cbh)
    | 0x36 => .ok (.calcDivider u o.speed32)
    | 0x40 => .ok (.dispatch u)
    | _ => .error .unknownOpcode

/-- The decoder: the interface a request arrives on tells its form (30_encoding R114). -/
def decode : Request → Except DecodeError Instr
  | .reg w => .ok (decodeReg w)
  | .cmd w o => decodeCmd w o

/-- The operand record with every field zero, empty or NONE. -/
def noOperands : OperandRecord where
  data8 := 0
  sendAck := false
  addr8 := 0
  reg8 := 0
  bytes := []
  count16 := 0
  maxOut8 := 0
  cfgw64 := 0
  cbh := none
  speed32 := 0

/-- `{W, U, OFF, DATA}` (30_encoding R101). -/
def regWord (w : BitVec 1) (u : UnitId) (off : BitVec 4) (data : Word) : BitVec 22 :=
  w ++ bitOfUnit u ++ off ++ data

/-- `{Z, U, OP}` with Z = 0 (30_encoding R103). -/
def cmdWord (u : UnitId) (op : BitVec 8) : BitVec 16 :=
  0#7 ++ bitOfUnit u ++ op

/-- The encoder, from the same tables (30_encoding R101 to R105). DATA of a read is 0. -/
def encode : Instr → Request
  | .start u => .cmd (cmdWord u 0x01) noOperands
  | .restart u => .cmd (cmdWord u 0x02) noOperands
  | .stop u => .cmd (cmdWord u 0x03) noOperands
  | .wait u => .cmd (cmdWord u 0x04) noOperands
  | .writeByte u d => .cmd (cmdWord u 0x10) { noOperands with data8 := d }
  | .readByte u a => .cmd (cmdWord u 0x11) { noOperands with sendAck := a }
  | .writeData u a bs => .cmd (cmdWord u 0x20) { noOperands with addr8 := a, bytes := bs }
  | .readData u a c => .cmd (cmdWord u 0x21) { noOperands with addr8 := a, count16 := c }
  | .writeRegister u a r bs => .cmd (cmdWord u 0x22) { noOperands with addr8 := a, reg8 := r, bytes := bs }
  | .readRegister u a r c => .cmd (cmdWord u 0x23) { noOperands with addr8 := a, reg8 := r, count16 := c }
  | .scanBus u m => .cmd (cmdWord u 0x24) { noOperands with maxOut8 := m }
  | .init u w h => .cmd (cmdWord u 0x30) { noOperands with cfgw64 := w, cbh := h }
  | .clearErrors u => .cmd (cmdWord u 0x31) noOperands
  | .isBusy u => .cmd (cmdWord u 0x32) noOperands
  | .getStatus u => .cmd (cmdWord u 0x33) noOperands
  | .getConfig u => .cmd (cmdWord u 0x34) noOperands
  | .registerCallback u h => .cmd (cmdWord u 0x35) { noOperands with cbh := h }
  | .calcDivider u s => .cmd (cmdWord u 0x36) { noOperands with speed32 := s }
  | .dispatch u => .cmd (cmdWord u 0x40) noOperands
  | .conSen u v => .reg (regWord 1 u 0 v)
  | .conRsen u v => .reg (regWord 1 u 0 v)
  | .conPen u v => .reg (regWord 1 u 0 v)
  | .conRcen u v => .reg (regWord 1 u 0 v)
  | .conXen u v => .reg (regWord 1 u 0 v)
  | .conCfg u v => .reg (regWord 1 u 0 v)
  | .conMulti u v => .reg (regWord 1 u 0 v)
  | .statW u v => .reg (regWord 1 u 1 v)
  | .addW u v => .reg (regWord 1 u 2 v)
  | .brgW u v => .reg (regWord 1 u 3 v)
  | .trnW u v => .reg (regWord 1 u 4 v)
  | .rcvW u v => .reg (regWord 1 u 5 v)
  | .ifsW u v => .reg (regWord 1 u 6 v)
  | .estatW u v => .reg (regWord 1 u 7 v)
  | .rsvdW u off v => .reg (regWord 1 u off v)
  | .rcvR u => .reg (regWord 0 u 5 0)
  | .rsvdR u off => .reg (regWord 0 u off 0)
  | .regR u off => .reg (regWord 0 u off 0)

/-- The default-master preset (30_encoding R107). -/
def presetMaster : BitVec 64 := 0x000186A003E80000

/-- The default-slave preset (30_encoding R107). -/
def presetSlave : BitVec 64 := 0x000186A003E81025

/-- `INIT_MASTER u` (30_encoding R116). -/
def pseudoInitMaster (u : UnitId) : Instr := .init u presetMaster none

/-- `INIT_SLAVE u, cb` (30_encoding R116). -/
def pseudoInitSlave (u : UnitId) (h : Option Handle) : Instr := .init u presetSlave h

/-- `WRITE_REG8 u, a, r, v` (30_encoding R116). -/
def pseudoWriteReg8 (u : UnitId) (a r v : Byte) : Instr := .writeRegister u a r [v]

/-- `READ_REG8 u, a, r` (30_encoding R116). -/
def pseudoReadReg8 (u : UnitId) (a r : Byte) : Instr := .readRegister u a r 1

/-- The R/C flags of STAT a `CLRF` may name, with their bit numbers (30_encoding R116, 10_state R29). -/
inductive ClearableFlag where
  | bcl | ov | iwcol | sdet | pdet | treq
  deriving DecidableEq, Repr

/-- The bit number of a clearable flag in STAT (10_state R29). -/
def clearableBit : ClearableFlag → Nat
  | .bcl => 1
  | .ov => 2
  | .iwcol => 3
  | .sdet => 4
  | .pdet => 5
  | .treq => 7

/-- `CLRF u.STAT.F` (30_encoding R116): a STAT write with only bit F zero. -/
def pseudoClearStat (u : UnitId) (f : ClearableFlag) : Instr :=
  .statW u (0xFFFF#16 &&& ~~~(1#16 <<< clearableBit f))

/-- `CLRF u.IFS.SIF` (30_encoding R116). -/
def pseudoClearSif (u : UnitId) : Instr := .ifsW u 0

/-- The request whose table bits are `w`: 16 table bits are a CMD16 word with an operand record of zeros, 22 (or 24, the
same in whole bytes) are a REGACC22 word. `none` for any other width and for a REGACC22 number above 22 bits. -/
def tableRequest (nbits w : Nat) : Option Request :=
  if nbits = 16 then some (.cmd (BitVec.ofNat 16 w) noOperands)
  else if (nbits = 22 || nbits = 24) && decide (w < 2 ^ 22) then some (.reg (BitVec.ofNat 22 w))
  else none

/-- The instruction the decoder reads from the table word `w` of `nbits` bits. -/
def decodeTableWord (nbits w : Nat) : Option Instr :=
  match tableRequest nbits w with
  | none => none
  | some r =>
    match decode r with
    | .ok i => some i
    | .error _ => none

end Sys2Proof
end

