-- ==== Sys2Proof/Machine/State.lean ====
section
/-! DEFINITION. The state of the block (10_state, 45 R261, 70 R350), its reasons to stop, and its reset state. Plain
data throughout. -/

namespace Sys2Proof.Machine

/-- The role in `CON.MODE` (10_state R22, R26) and in the stored configuration (R49). The reserved value 0b11 is never
held (40 R131), so it has no constructor. -/
inductive Role where
  /-- 0b00 -/
  | master
  /-- 0b01 -/
  | slave7
  /-- 0b10 -/
  | slave10
  deriving DecidableEq, Repr

/-- CON (10_state R22), by field. The reserved bits 14, 10 and 6 read 0 and ignore writes, so they have no storage.
`cmd` is `CON[4:0]`, the command bits XEN, RCEN, PEN, RSEN, SEN (R27). -/
structure Con where
  en    : Bool
  sie   : Bool
  mode  : Role
  slw   : Bool
  smen  : Bool
  gcen  : Bool
  ackdt : Bool
  cmd   : BitVec 5
  deriving DecidableEq, Repr

/-- STAT (10_state R29), by field. Bits 15:10 read 0 and ignore writes. -/
structure Stat where
  rw      : Bool
  gcstat  : Bool
  treq    : Bool
  rbf     : Bool
  pdet    : Bool
  sdet    : Bool
  iwcol   : Bool
  ov      : Bool
  bcl     : Bool
  ackstat : Bool
  deriving DecidableEq, Repr

/-- The status code `PS[u].code` (10_state R47). Codes 9 to 15 are never produced and have no constructor. -/
inductive Code where
  | idle | busy | timeout | addrNack | dataNack | arbLost | busCollision | rxOverrun | success
  deriving DecidableEq, Repr

/-- The stored configuration `PS[u].cfg` (10_state R49). -/
structure Configuration where
  role      : Role
  speedHz   : BitVec 32
  ownAddr   : BitVec 10
  gc        : Bool
  slew      : Bool
  smen      : Bool
  timeoutMs : BitVec 16
  ie        : Bool
  deriving DecidableEq, Repr

/-- The slave receiver's address phase `SLV[u]` (45 R261). -/
inductive SlavePhase where
  | idle | awaitAddr | hi10 | write | read
  deriving DecidableEq, Repr

/-- A symbol of the bus trace (10_state R56). An acknowledge `a` is true for NACK (40 R158). -/
inductive Sym where
  /-- `S` -/
  | start
  /-- `Sr` -/
  | restart
  /-- `P` -/
  | stop
  /-- `TX(b, a)` -/
  | tx (b : Byte) (a : Bool)
  /-- `RX(b, a)` -/
  | rx (b : Byte) (a : Bool)
  /-- `COL` -/
  | col
  /-- `sS` -/
  | sStart
  /-- `sP` -/
  | sStop
  /-- `sRX(b, a)` -/
  | sRx (b : Byte) (a : Bool)
  /-- `sTX(b, a)` -/
  | sTx (b : Byte) (a : Bool)
  deriving DecidableEq, Repr

/-- One bus unit with its Per-Unit State (10_state R20). -/
structure BusUnit where
  con   : Con
  stat  : Stat
  /-- `ADD.ADDR` (R38) -/
  add   : BitVec 10
  brg   : Word
  /-- `TRN.TXDATA` (R40) -/
  trn   : Byte
  /-- `RCV.RXDATA` (R41) -/
  rcv   : Byte
  /-- `IFS.SIF` (R42) -/
  sif   : Bool
  txsr  : Byte
  rxsr  : Byte
  slv   : SlavePhase
  m10   : Bool
  code  : Code
  busy  : Bool
  cfg   : Configuration
  cb    : Option Handle
  trace : List Sym
  witer : Nat
  deriving DecidableEq, Repr

/-- A callback event tag (30_encoding R110). -/
inductive EventTag where
  | start | stop | byteReceived | byteRequested
  deriving DecidableEq, Repr

/-- An event with its payload (30_encoding R110). -/
structure Event where
  tag     : EventTag
  payload : Byte
  deriving DecidableEq, Repr

/-- The outputs of a response record (30_encoding R104, R108). -/
inductive OutputFields where
  /-- no output besides `ok` and `illegal` -/
  | none
  | byte8 (b : Byte)
  | out (bs : List Byte)
  | found (as : List (BitVec 7))
  | busy (b : Bool)
  | code4 (c : BitVec 4)
  | div16 (d : BitVec 16)
  | config (w : BitVec 64) (h : Option Handle)
  | event (e : Option Event)
  deriving DecidableEq, Repr

/-- A response record (30_encoding R108). -/
structure Response where
  ok      : Bool
  illegal : Bool
  fields  : OutputFields
  deriving DecidableEq, Repr

/-- The context a command comes from (00_scope R8, 30_encoding R104, 46 R298). -/
inductive Issuer where
  | polled | callback | interrupt
  deriving DecidableEq, Repr

/-- What the block hands to the host (70 R369). -/
inductive HostOutput where
  /-- the value of a register read -/
  | readValue (v : Word)
  /-- a response record, to the context that issued the command -/
  | response (ctx : Issuer) (r : Response)
  /-- an invocation of a callback with its event (45 R271 step 3) -/
  | invoked (u : UnitId) (h : Handle) (e : Event)
  deriving DecidableEq, Repr

/-- The primitive that runs the wait primitive (42 R190). -/
inductive Waiter where
  | start | restart | stop | alone | writeByte | readByte
  deriving DecidableEq, Repr

/-- A position in the pseudocode of the operation in flight: the atomic step to run next (10_state R53, 00_scope R10).
The composites' own control flow is in `Frame`. -/
inductive Position where
  /-- START step 1, test and set the busy flag (42 R196) -/
  | claim
  /-- START step 2, set SEN -/
  | setSen
  /-- START after a failed wait, clear the busy flag -/
  | release
  /-- RESTART, set RSEN (42 R198) -/
  | setRsen
  /-- STOP, set PEN (42 R199) -/
  | setPen
  /-- STOP after a successful wait, busy 0 and code IDLE -/
  | settle
  /-- WRITE_BYTE, load TRN (43 R215) -/
  | loadTrn (d : Byte)
  /-- WRITE_BYTE, set XEN -/
  | setXen
  /-- WRITE_BYTE after a successful wait, inspect ACKSTAT -/
  | checkAck
  /-- READ_BYTE, set ACKDT (43 R217) -/
  | setAckdt (ackdt : Bool)
  /-- READ_BYTE, set RCEN -/
  | setRcen
  /-- READ_BYTE after the wait, which gave `ok`, read RCV -/
  | takeByte (ok : Bool)
  /-- the wait primitive's counter load (42 R191) -/
  | waitLoad (w : Waiter)
  /-- the wait primitive's next iteration (42 R192) -/
  | waitLoop (w : Waiter)
  /-- AddrNack of a composite, before its STOP (44 R232) -/
  | addrNack
  /-- INIT step 1, disable the unit (46 R290) -/
  | initDisable (c : Configuration) (h : Option Handle)
  /-- INIT step 2 -/
  | initStore (c : Configuration) (h : Option Handle)
  /-- INIT step 3 -/
  | initBrg (c : Configuration)
  /-- INIT step 4 -/
  | initAdd (c : Configuration)
  /-- INIT step 5 -/
  | initCon (c : Configuration)
  /-- INIT step 6 -/
  | initDone
  deriving DecidableEq, Repr

/-- What the command does with the result of the primitive it is running: the rest of the composite's pseudocode
(44 R233 to R237), with its local variables. -/
inductive Frame where
  /-- the command is the primitive itself -/
  | alone
  /-- READ_BYTE as a command: the byte is its output -/
  | aloneRead
  /-- WRITE_DATA, in its START -/
  | writeStart (a : Byte) (bs : List Byte)
  /-- WRITE_DATA, in its address byte -/
  | writeAddr (bs : List Byte)
  /-- WRITE_DATA, in a data byte, `bs` still to send after it -/
  | writeNext (bs : List Byte)
  /-- READ_DATA, in its START -/
  | readStart (a : Byte) (c : Nat)
  /-- READ_DATA or READ_REGISTER, in the read address byte -/
  | readAddr (c : Nat)
  /-- READ_DATA or READ_REGISTER, in a READ_BYTE, `n` still to read after it, `out` already read -/
  | readNext (n : Nat) (out : List Byte)
  /-- READ_REGISTER, in its START -/
  | regStart (a r : Byte) (c : Nat)
  /-- READ_REGISTER, in the write address byte -/
  | regAddr (a r : Byte) (c : Nat)
  /-- READ_REGISTER, in the index byte -/
  | regIndex (a : Byte) (c : Nat)
  /-- READ_REGISTER, in its RESTART -/
  | regRestart (a : Byte) (c : Nat)
  /-- the STOP after a failed part: the command fails whatever this STOP returns (44 R231) -/
  | failStop (fields : OutputFields)
  /-- the STOP that ends a command whose parts all succeeded: its ok is the command's -/
  | lastStop (fields : OutputFields)
  /-- SCAN_BUS, in the START of the probe of `a` -/
  | scanStart (a : BitVec 7) (m : Byte) (found : Bool) (list : List (BitVec 7))
  /-- SCAN_BUS, in the address byte of the probe of `a` -/
  | scanAddr (a : BitVec 7) (m : Byte) (found : Bool) (list : List (BitVec 7))
  /-- SCAN_BUS, in the STOP of the probe of `a`, which was answered with `ack` -/
  | scanStop (a : BitVec 7) (m : Byte) (found : Bool) (list : List (BitVec 7)) (ack : Bool)
  deriving DecidableEq, Repr

/-- The polled operation in flight: the command, and the engine sequencer position in it (10_state R53, R54). -/
structure InFlight where
  cmd   : Instr
  pos   : Position
  frame : Frame
  deriving DecidableEq, Repr

/-- A position in DISPATCH (45 R271). -/
inductive IsrPosition where
  /-- the interrupt has been taken, DISPATCH has not run its step 1 -/
  | entry
  /-- step 2, flag selection -/
  | select
  /-- step 3, invoke the callback `h` with `e` -/
  | invoke (h : Handle) (e : Event)
  /-- the callback runs -/
  | calling (e : Event)
  deriving DecidableEq, Repr

/-- The DISPATCH in flight: `isr_op` with its position (10_state R54). -/
structure Servicing where
  unit : UnitId
  pos  : IsrPosition
  deriving DecidableEq, Repr

/-- The fault reasons of 60_exceptions R322. A fault is raised in the step that would have performed the forbidden
action: that step sets the fault mark, and every step after it answers the fault. All are safe: the spec gives the
interleaving no meaning, and a run that meets one stops (D37). -/
inductive Fault where
  /-- a slave event while this unit runs a master operation (R323), raised by the slave events of `BUS[u]` -/
  | slaveDuringMaster
  /-- the interrupt of a unit taken while the ENGINE runs a class B command on it (R324), raised by `Move.takeIrq` -/
  | dispatchDuringMaster
  /-- a class B or P command while a callback runs (R325), raised by those commands -/
  | blockingInCallback
  /-- DISPATCH issued other than by the interrupt entry (R326), raised by DISPATCH -/
  | dispatchContext
  deriving DecidableEq, Repr

/-- Why a step may have no meaning. No step of this model is refused: every instruction has its meaning. -/
inductive Refusal where
  /-- An instruction that has no meaning yet, raised by `exec`'s arm for it; safe. -/
  | notModelled (mnemonic : String)
  deriving DecidableEq, Repr

/-- The state of the block (10_state R20), and, at the end, the model's own fields (logs 1, 11, 13). -/
structure State where
  unit1      : BusUnit
  unit2      : BusUnit
  /-- the timeout_timer (10_state R52) -/
  tcnt       : BitVec 32
  /-- `polled_op` and the engine sequencer position (R53, R54) -/
  polledOp   : Option InFlight
  /-- `isr_op` (R54) -/
  isrOp      : Option Servicing
  /-- `in_callback` (R54) -/
  inCallback : Bool
  /-- the fault mark (R58) -/
  faultMark  : Option Fault
  /-- the context the current command comes from -/
  issuer     : Issuer
  /-- what the host has been handed, oldest first -/
  out        : List HostOutput
  /-- the moves already fixed, next one first -/
  agenda     : List Move
  /-- how many moves were taken from the free value -/
  tick       : Nat
  deriving DecidableEq, Repr

/-- CON at reset, 0x0000 (70 R350). -/
def Con.reset : Con where
  en := false
  sie := false
  mode := .master
  slw := false
  smen := false
  gcen := false
  ackdt := false
  cmd := 0

/-- STAT at reset, 0x0000 (70 R350); also what Disable leaves (40 R132). -/
def Stat.zero : Stat where
  rw := false
  gcstat := false
  treq := false
  rbf := false
  pdet := false
  sdet := false
  iwcol := false
  ov := false
  bcl := false
  ackstat := false

/-- The stored configuration at reset (10_state R49). -/
def Configuration.reset : Configuration where
  role := .master
  speedHz := 0
  ownAddr := 0
  gc := false
  slew := false
  smen := false
  timeoutMs := 0
  ie := false

/-- One unit at reset (70 R350). -/
def BusUnit.reset : BusUnit where
  con := Con.reset
  stat := Stat.zero
  add := 0
  brg := 0
  trn := 0
  rcv := 0
  sif := false
  txsr := 0
  rxsr := 0
  slv := .idle
  m10 := false
  code := .idle
  busy := false
  cfg := Configuration.reset
  cb := none
  trace := []
  witer := 0

/-- The block right after reset (70 R350, R351). `issuer`, `out`, `agenda` and `tick` are the model's own: no command
has come, nothing has been handed out, no move is fixed (logs 1, 11, 13). -/
def State.reset : State where
  unit1 := BusUnit.reset
  unit2 := BusUnit.reset
  tcnt := 0
  polledOp := none
  isrOp := none
  inCallback := false
  faultMark := none
  issuer := .polled
  out := []
  agenda := []
  tick := 0

end Sys2Proof.Machine
end

