-- ==== Sys2Proof/Machine/Flags.lean ====
section
/-! DEFINITION. The registers CON and STAT as words and how writes change them, the pending predicate, the command
acceptance rule, the interrupt request, and the status code's encoding. Everything here acts on one unit. -/

namespace Sys2Proof.Machine

/-- The encoding of MODE and of the configuration's role (10_state R22, 30_encoding R106). -/
def roleBits : Role → BitVec 2
  | .master => 0b00#2
  | .slave7 => 0b01#2
  | .slave10 => 0b10#2

/-- The role two bits name; 0b11 is reserved (10_state R22, 30_encoding R106). -/
def roleOfBits (b : BitVec 2) : Option Role :=
  if b = 0b00#2 then some .master
  else if b = 0b01#2 then some .slave7
  else if b = 0b10#2 then some .slave10
  else none

/-- CON as the host reads it (10_state R22, 40 R147): reserved bits 14, 10 and 6 are 0. -/
def conWord (c : Con) : Word :=
  BitVec.ofBool c.en ++ 0#1 ++ BitVec.ofBool c.sie ++ roleBits c.mode ++ 0#1 ++ BitVec.ofBool c.slw ++
    BitVec.ofBool c.smen ++ BitVec.ofBool c.gcen ++ 0#1 ++ BitVec.ofBool c.ackdt ++ c.cmd

/-- STAT as the host reads it (10_state R29, 40 R147): bits 15:10 are 0. -/
def statWord (t : Stat) : Word :=
  0#6 ++ BitVec.ofBool t.rw ++ BitVec.ofBool t.gcstat ++ BitVec.ofBool t.treq ++ BitVec.ofBool t.rbf ++
    BitVec.ofBool t.pdet ++ BitVec.ofBool t.sdet ++ BitVec.ofBool t.iwcol ++ BitVec.ofBool t.ov ++
    BitVec.ofBool t.bcl ++ BitVec.ofBool t.ackstat

/-- The status code's encoding (10_state R47). -/
def codeBits : Code → BitVec 4
  | .idle => 0
  | .busy => 1
  | .timeout => 2
  | .addrNack => 3
  | .dataNack => 4
  | .arbLost => 5
  | .busCollision => 6
  | .rxOverrun => 7
  | .success => 8

/-- ESTAT, the view `(busy << 4) | code` of Per-Unit State (10_state R43, 40 R147). -/
def estatWord (x : BusUnit) : Word :=
  0#11 ++ BitVec.ofBool x.busy ++ codeBits x.code

/-- The command bits in `CON[4:0]` (10_state R22). -/
def cmdSen : BitVec 5 := 0b00001
/-- RSEN in `CON[4:0]` -/
def cmdRsen : BitVec 5 := 0b00010
/-- PEN in `CON[4:0]` -/
def cmdPen : BitVec 5 := 0b00100
/-- RCEN in `CON[4:0]` -/
def cmdRcen : BitVec 5 := 0b01000
/-- XEN in `CON[4:0]` -/
def cmdXen : BitVec 5 := 0b10000

/-- `pending(u)` (10_state R27): some command bit is 1. -/
def pending (x : BusUnit) : Bool := x.con.cmd != 0#5

/-- Command bit `b` is pending. -/
def isPending (b : BitVec 5) (x : BusUnit) : Bool := (x.con.cmd &&& b) != 0#5

/-- How many of five command bits are 1 (40 R133). -/
def popcount5 (b : BitVec 5) : Nat :=
  (b.getLsbD 0).toNat + (b.getLsbD 1).toNat + (b.getLsbD 2).toNat + (b.getLsbD 3).toNat + (b.getLsbD 4).toNat

/-- `STAT[u].IWCOL <- 1`: a refused register write (40 R133, R142). -/
def setIwcol (x : BusUnit) : BusUnit := { x with stat := { x.stat with iwcol := true } }

/-- `SetSIF(u)` (45 R270). -/
def setSif (x : BusUnit) : BusUnit := { x with sif := true }

/-- `IRQ[u] = IFS[u].SIF & CON[u].SIE`, a level (45 R270). -/
def irq (x : BusUnit) : Bool := x.sif && x.con.sie

/-- Disable (40 R132): what a CON write does when it changes EN from 1 to 0. -/
def disable (x : BusUnit) : BusUnit :=
  { x with con := { x.con with cmd := 0 }, stat := Stat.zero, sif := false, slv := .idle, m10 := false }

/-- The configuration fields a CON write stores (40 R131): MODE is write-any-read-legal, 0b11 keeps the old value. -/
def conFields (v : Word) (c : Con) : Con :=
  { c with
    en := v.getLsbD 15
    sie := v.getLsbD 13
    mode := (roleOfBits (v.extractLsb' 11 2)).getD c.mode
    slw := v.getLsbD 9
    smen := v.getLsbD 8
    gcen := v.getLsbD 7
    ackdt := v.getLsbD 5 }

/-- The configuration part of every CON write (40 R131), with Disable when EN goes from 1 to 0 (R132). -/
def conConfigPart (v : Word) (x : BusUnit) : BusUnit :=
  let y := { x with con := conFields v x.con }
  if x.con.en && !v.getLsbD 15 then disable y else y

/-- The command part of every CON write (40 R133): command bits written 1 that are not already 1 are refused with
IWCOL when they are two or more, when a command is pending, or when BCL is set, and accepted otherwise. Accepting XEN
loads TXSR (R138). -/
def conCommandPart (w : BitVec 5) (x : BusUnit) : BusUnit :=
  let new := w &&& ~~~x.con.cmd
  if new = 0#5 then x
  else if decide (2 ≤ popcount5 new) || pending x || x.stat.bcl then setIwcol x
  else
    { x with
      con := { x.con with cmd := new }
      txsr := if new = cmdXen then x.trn else x.txsr }

/-- A write to CON (40 R131 to R138). -/
def conWrite (v : Word) (x : BusUnit) : BusUnit :=
  conCommandPart (v.extractLsb' 0 5) (conConfigPart v x)

/-- A write to STAT (40 R139): a 0 clears an R/C flag, a 1 leaves it, and the other bits ignore the write. -/
def statWrite (v : Word) (x : BusUnit) : BusUnit :=
  { x with
    stat := { x.stat with
      treq := x.stat.treq && v.getLsbD 7
      pdet := x.stat.pdet && v.getLsbD 5
      sdet := x.stat.sdet && v.getLsbD 4
      iwcol := x.stat.iwcol && v.getLsbD 3
      ov := x.stat.ov && v.getLsbD 2
      bcl := x.stat.bcl && v.getLsbD 1 } }

/-- A write to ADD (40 R140): `v & 0x03FF`. -/
def addWrite (v : Word) (x : BusUnit) : BusUnit := { x with add := v.extractLsb' 0 10 }

/-- A write to BRG (40 R141), no range check. -/
def brgWrite (v : Word) (x : BusUnit) : BusUnit := { x with brg := v }

/-- A write to TRN (40 R142): refused with IWCOL while XEN is pending or BCL is set. -/
def trnWrite (v : Word) (x : BusUnit) : BusUnit :=
  if isPending cmdXen x || x.stat.bcl then setIwcol x else { x with trn := v.extractLsb' 0 8 }

/-- A write to IFS (40 R144). -/
def ifsWrite (v : Word) (x : BusUnit) : BusUnit := { x with sif := v.getLsbD 0 }

/-- What a read of RCV does to the unit (40 R148): RBF is cleared. -/
def clearRbf (x : BusUnit) : BusUnit := { x with stat := { x.stat with rbf := false } }

end Sys2Proof.Machine
end

