-- ==== Sys2Proof/Machine/Operands.lean ====
section
/-! DEFINITION. Operand forms: the address byte (30_encoding R111), the configuration word (R106), the classes and
units of the commands (R104), legality (R112), event tags (R110), and building response records (R108). -/

namespace Sys2Proof.Machine

/-- `addrbyte(a, d) = ((a & 0x7F) << 1) | d`, `d` true for a read (30_encoding R111). -/
def addrByte (a : Byte) (d : Bool) : Byte :=
  ((a &&& 0x7F#8) <<< 1) ||| (if d then 1#8 else 0#8)

/-- The configuration a CFGW64 word encodes (30_encoding R106, 46 R290). Role 3 is illegal and never reaches here
through INIT. -/
def configOfWord (w : BitVec 64) : Configuration where
  role := (roleOfBits (w.extractLsb' 0 2)).getD .master
  speedHz := w.extractLsb' 32 32
  ownAddr := w.extractLsb' 6 10
  gc := w.getLsbD 2
  slew := w.getLsbD 3
  smen := w.getLsbD 4
  timeoutMs := w.extractLsb' 16 16
  ie := w.getLsbD 5

/-- The CFGW64 word of a configuration (30_encoding R106, 46 R295). -/
def wordOfConfig (c : Configuration) : BitVec 64 :=
  c.speedHz ++ c.timeoutMs ++ c.ownAddr ++ BitVec.ofBool c.ie ++ BitVec.ofBool c.smen ++ BitVec.ofBool c.slew ++
    BitVec.ofBool c.gc ++ roleBits c.role

/-- The CON word INIT's step 5 writes (46 R290). -/
def initConWord (c : Configuration) : Word :=
  0x8000#16 ||| (BitVec.ofBool c.ie).setWidth 16 <<< 13 ||| (roleBits c.role).setWidth 16 <<< 11 |||
    (BitVec.ofBool c.slew).setWidth 16 <<< 9 ||| (BitVec.ofBool c.smen).setWidth 16 <<< 8 |||
    (BitVec.ofBool c.gc).setWidth 16 <<< 7

/-- The TAG of an event (30_encoding R110). -/
def tagBits : EventTag → BitVec 2
  | .start => 0
  | .stop => 1
  | .byteReceived => 2
  | .byteRequested => 3

/-- The classes of 30_encoding R104: blocking and polled only, polled only, also from a callback, interrupt only. -/
inductive CommandClass where
  | B | P | N | I
  deriving DecidableEq, Repr

/-- The class of a command (30_encoding R104); a register access has none. -/
def commandClass : Instr → Option CommandClass
  | .start _ | .restart _ | .stop _ | .wait _ | .writeByte _ _ | .readByte _ _ => some .B
  | .writeData _ _ _ | .readData _ _ _ | .writeRegister _ _ _ _ | .readRegister _ _ _ _ | .scanBus _ _ => some .B
  | .init _ _ _ => some .P
  | .clearErrors _ | .isBusy _ | .getStatus _ | .getConfig _ | .registerCallback _ _ | .calcDivider _ _ => some .N
  | .dispatch _ => some .I
  | .conSen _ _ | .conRsen _ _ | .conPen _ _ | .conRcen _ _ | .conXen _ _ | .conCfg _ _ | .conMulti _ _ => none
  | .statW _ _ | .addW _ _ | .brgW _ _ | .trnW _ _ | .rcvW _ _ | .ifsW _ _ | .estatW _ _ | .rsvdW _ _ _ => none
  | .rcvR _ | .rsvdR _ _ | .regR _ _ => none

/-- The unit an instruction selects (30_encoding R101, R103). -/
def unitOf : Instr → UnitId
  | .start u | .restart u | .stop u | .wait u | .writeByte u _ | .readByte u _ => u
  | .writeData u _ _ | .readData u _ _ | .writeRegister u _ _ _ | .readRegister u _ _ _ | .scanBus u _ => u
  | .init u _ _ => u
  | .clearErrors u | .isBusy u | .getStatus u | .getConfig u | .registerCallback u _ | .calcDivider u _ => u
  | .dispatch u => u
  | .conSen u _ | .conRsen u _ | .conPen u _ | .conRcen u _ | .conXen u _ | .conCfg u _ | .conMulti u _ => u
  | .statW u _ | .addW u _ | .brgW u _ | .trnW u _ | .rcvW u _ | .ifsW u _ | .estatW u _ | .rsvdW u _ _ => u
  | .rcvR u | .rsvdR u _ | .regR u _ => u

/-- A list or count of `n` bytes does not exceed `MAX_LEN` (30_encoding R105, R112). -/
def withinMaxLen (n : Nat) : Bool := lengthAllowed n

/-- CFGW64's role is the reserved 3 (30_encoding R106, R112). -/
def roleReserved (w : BitVec 64) : Bool := w.extractLsb' 0 2 == 3#2

/-- `ok = 1` with the given outputs. -/
def okResponse (f : OutputFields) : Response := ⟨true, false, f⟩

/-- The response of an illegal command (30_encoding R112, 46 R299): `ok = 0, illegal = 1`, every output empty. -/
def illegalResponse : Response := ⟨false, true, .none⟩

end Sys2Proof.Machine
end

