-- ==== Sys2Proof/Machine/Ops.lean ====
section
/-! DEFINITION. The named operations over the state: the unit selector, HwWrite and register reads (20_memory, 40
sections 1 and 2), responses, holding a polled command, raising a fault (60 R322), taking an interrupt and returning from
it (45 R270, 60 R331, R332). -/

namespace Sys2Proof.Machine

/-- The record of unit `u`: the total selector of 20_memory R71. -/
def getUnit (s : State) : UnitId → BusUnit
  | .unit1 => s.unit1
  | .unit2 => s.unit2

/-- Replace the record of unit `u`. -/
def putUnit (u : UnitId) (x : BusUnit) (s : State) : State :=
  match u with
  | .unit1 => { s with unit1 := x }
  | .unit2 => { s with unit2 := x }

/-- Change unit `u` by `f`. -/
def onUnit (u : UnitId) (f : BusUnit → BusUnit) (s : State) : State := putUnit u (f (getUnit s u)) s

/-- The effect of a write of `v` to register offset `off` (20_memory R72, 40 R130): RCV, ESTAT and the reserved
offsets ignore it (R143, R145, R146). -/
def writeOffset (off : BitVec 4) (v : Word) (x : BusUnit) : BusUnit :=
  if off = 0x0#4 then conWrite v x
  else if off = 0x1#4 then statWrite v x
  else if off = 0x2#4 then addWrite v x
  else if off = 0x3#4 then brgWrite v x
  else if off = 0x4#4 then trnWrite v x
  else if off = 0x6#4 then ifsWrite v x
  else x

/-- `HwWrite(u, OFF, v)`, the one write path of host and engine, one atomic step (40 R130, 20_memory R79). -/
def hwWrite (u : UnitId) (off : BitVec 4) (v : Word) (s : State) : State := onUnit u (writeOffset off v) s

/-- The value a read of register offset `off` returns (20_memory R72, 40 R146 to R148). -/
def readOffset (off : BitVec 4) (x : BusUnit) : Word :=
  if off = 0x0#4 then conWord x.con
  else if off = 0x1#4 then statWord x.stat
  else if off = 0x2#4 then x.add.setWidth 16
  else if off = 0x3#4 then x.brg
  else if off = 0x4#4 then x.trn.setWidth 16
  else if off = 0x5#4 then x.rcv.setWidth 16
  else if off = 0x6#4 then (BitVec.ofBool x.sif).setWidth 16
  else if off = 0x7#4 then estatWord x
  else 0#16

/-- What a read of register offset `off` does to the unit: only RCV has a side effect (20_memory R78, 40 R148). -/
def readEffect (off : BitVec 4) (x : BusUnit) : BusUnit := if off = 0x5#4 then clearRbf x else x

/-- Hand the host one output. -/
def emit (o : HostOutput) (s : State) : State := { s with out := s.out ++ [o] }

/-- A host read of register `off` of unit `u`: the value is handed to the host (70 R369). -/
def hostRead (u : UnitId) (off : BitVec 4) (s : State) : State :=
  emit (.readValue (readOffset off (getUnit s u))) (onUnit u (readEffect off) s)

/-- `MemRead(addr, 16)`: the value at word address `{U, OFF}` (20_memory R70, R71). -/
def memRead (a : BitVec 5) (s : State) : Word :=
  readOffset (a.extractLsb' 0 4) (getUnit s (unitOfBit (a.getLsbD 4)))

/-- `MemWrite(addr, 16, v)` is HwWrite at word address `{U, OFF}` (20_memory R70, 40 R130). -/
def memWrite (a : BitVec 5) (v : Word) (s : State) : State :=
  hwWrite (unitOfBit (a.getLsbD 4)) (a.extractLsb' 0 4) v s

/-- A response record to the context that issued the command. -/
def respond (r : Response) (s : State) : State := emit (.response s.issuer r) s

/-- Refuse an illegal command (46 R299): a response, no state written. -/
def respondIllegal (s : State) : State := respond illegalResponse s

/-- `raise Fault(reason)` (60 R322, 10_state R58): the mark takes the first reason, nothing else changes. -/
def raise (f : Fault) (s : State) : State := { s with faultMark := some (s.faultMark.getD f) }

/-- The ENGINE runs a class B command on unit `u` (60 R323, R324). -/
def masterBusy (u : UnitId) (s : State) : Bool :=
  match s.polledOp with
  | none => false
  | some f => decide (unitOf f.cmd = u) && decide (commandClass f.cmd = some .B)

/-- The host waits: a command offered while another is in flight is offered again after the ENGINE's next step
(10_state R55, 70 R357, R369). Log 4. -/
def hold (i : Instr) (s : State) : State := { s with agenda := .engine :: .host (encode i) :: s.agenda }

/-- A command of the polled context must wait: the engine takes one at a time from it (00_scope R8, R9, 10_state R55,
46 R298). A callback's class N commands are steps of the ISR and do not wait (R298, 70 R365). -/
def hostWaits (s : State) : Bool := decide (s.issuer = .polled) && s.polledOp.isSome

/-- Issue the class N command `i`, whose one atomic step is `act`. Log 5. -/
def issueAtOnce (i : Instr) (act : State → State) (s : State) : State := if hostWaits s then hold i s else act s

/-- Taking the interrupt of unit `u` (45 R270, 60 R331): enabled while `IRQ[u] = 1` and no DISPATCH runs; a fault while
the ENGINE runs a class B command on `u` (60 R324). It saves no state and changes no register. -/
def takeInterrupt (u : UnitId) (s : State) : State :=
  if irq (getUnit s u) && s.isrOp.isNone then
    if masterBusy u s then raise .dispatchDuringMaster s
    else { s with isrOp := some ⟨u, .entry⟩ }
  else s

/-- The return from the interrupt (60 R332, 45 R271): `in_callback <- 0`, `isr_op <- NONE`, and DISPATCH's response. -/
def endDispatch (e : Option Event) (s : State) : State :=
  emit (.response .interrupt (okResponse (.event e))) { s with inCallback := false, isrOp := none }

/-- The DISPATCH command the interrupt entry of unit `u` issues (45 R271, 30_encoding R104). -/
def dispatchRequest (u : UnitId) : Request := .cmd (cmdWord u 0x40) noOperands

end Sys2Proof.Machine
end

