-- ==== Sys2Proof/Machine/Timing.lean ====
section
/-! DEFINITION. The Timing Calculator (41_timing). -/

namespace Sys2Proof.Machine

/-- `Divider(fcy, s)` (41 R181 to R183), over unbounded integers: `floor(fcy / (2 s)) - 2` clamped to `[2, 65535]`, and
65535 for speed 0. -/
def divider (fcy speed : Nat) : Nat :=
  if speed = 0 then 65535
  else
    let d : Int := (fcy / (2 * speed) : Nat) - 2
    if d < 2 then 2
    else if d > 65535 then 65535
    else d.toNat

/-- `DIV16` and the value INIT writes to BRG (41 R180, 46 R290). -/
def dividerWord (speed : BitVec 32) : Word := BitVec.ofNat 16 (divider Config.fcyHz speed.toNat)

/-- CALC_DIVIDER (41 R180): a response, no state written. -/
def execCalcDivider (u : UnitId) (speed : BitVec 32) (s : State) : Host.Outcome State Fault Refusal :=
  .next (issueAtOnce (.calcDivider u speed) (respond (okResponse (.div16 (dividerWord speed)))) s)

end Sys2Proof.Machine
end

