-- ==== Sys2Proof/Machine/Engine.lean ====
section
/-! DEFINITION. The engine: the wait primitive (42 R190 to R195), the atomic steps of every polled operation (42, 43, 44,
46 R290), the composites' control flow (44), and the issue of a polled command. One call of `engineStep` is one atomic step
of 00_scope R10; what a composite decides after a part is folded into that part's last step (log 8). -/

namespace Sys2Proof.Machine

/-- The polled operation goes on at position `p` with frame `k` (10_state R53). -/
def goto (p : Position) (k : Frame) (s : State) : State :=
  match s.polledOp with
  | none => s
  | some f => { s with polledOp := some { f with pos := p, frame := k } }

/-- The polled operation returns its response: the sequencer position is NONE again (10_state R53, 46 R298). -/
def finish (ok : Bool) (f : OutputFields) (s : State) : State :=
  emit (.response .polled ⟨ok, false, f⟩) { s with polledOp := none }

/-- `PS[u].code <- c`. -/
def setCode (c : Code) (x : BusUnit) : BusUnit := { x with code := c }

/-- WRITE_DATA sends the next byte of its list, or its final STOP (44 R233). -/
def sendNext (bs : List Byte) (s : State) : State :=
  match bs with
  | [] => goto .setPen (.lastStop .none) s
  | b :: rest => goto (.loadTrn b) (.writeNext rest) s

/-- READ_DATA reads the next byte, acknowledging all but the last, or sends its final STOP (44 R234). `n` bytes are
still to read, `out` are read. -/
def readNextByte (n : Nat) (out : List Byte) (s : State) : State :=
  match n with
  | 0 => goto .setPen (.lastStop (.out out)) s
  | n + 1 => goto (.setAckdt (n == 0)) (.readNext n out) s

/-- SCAN_BUS probes the address after `a`, or returns after 126 (44 R237). -/
def scanNext (a : BitVec 7) (m : Byte) (found : Bool) (list : List (BitVec 7)) (s : State) : State :=
  if a.toNat < 126 then goto .claim (.scanStart (a + 1) m found list) s
  else finish found (.found list) s

/-- A part of the operation returned `ok`, with byte `b` where it is READ_BYTE: what the command does next (44 R231 to
R237). A failed START ends a composite without a STOP, any later failure ends it with exactly one STOP, and a refused
address byte is recoded by AddrNack first (R232). -/
def resume (k : Frame) (ok : Bool) (b : Byte) (s : State) : State :=
  match k with
  | .alone => finish ok .none s
  | .aloneRead => finish ok (.byte8 b) s
  | .writeStart a bs =>
    if ok then goto (.loadTrn (addrByte a false)) (.writeAddr bs) s else finish false .none s
  | .writeAddr bs =>
    if ok then sendNext bs s else goto .addrNack (.failStop .none) s
  | .writeNext bs =>
    if ok then sendNext bs s else goto .setPen (.failStop .none) s
  | .readStart a c =>
    if ok then goto (.loadTrn (addrByte a true)) (.readAddr c) s else finish false (.out []) s
  | .readAddr c =>
    if ok then readNextByte c [] s else goto .addrNack (.failStop (.out [])) s
  | .readNext n out =>
    if ok then readNextByte n (out ++ [b]) s else goto .setPen (.failStop (.out (out ++ [b]))) s
  | .regStart a r c =>
    if ok then goto (.loadTrn (addrByte a false)) (.regAddr a r c) s else finish false (.out []) s
  | .regAddr a r c =>
    if ok then goto (.loadTrn r) (.regIndex a c) s else goto .addrNack (.failStop (.out [])) s
  | .regIndex a c =>
    if ok then goto .setRsen (.regRestart a c) s else goto .setPen (.failStop (.out [])) s
  | .regRestart a c =>
    if ok then goto (.loadTrn (addrByte a true)) (.readAddr c) s else goto .setPen (.failStop (.out [])) s
  | .failStop f => finish false f s
  | .lastStop f => finish ok f s
  | .scanStart a m found list =>
    if ok then goto (.loadTrn (addrByte (a.setWidth 8) false)) (.scanAddr a m found list) s
    else scanNext a m found list s
  | .scanAddr a m found list =>
    if ok then goto .setPen (.scanStop a m found list true) s
    else goto .addrNack (.scanStop a m found list false) s
  | .scanStop a m found list ack =>
    if ack then scanNext a m true (if list.length < m.toNat then list ++ [a] else list) s
    else scanNext a m found list s

/-- The wait primitive returned `ok` to the primitive that ran it (42 R196, R198, R199, R201, 43 R215, R217). -/
def waitReturn (w : Waiter) (k : Frame) (ok : Bool) (s : State) : State :=
  match w with
  | .start => if ok then resume k true 0 s else goto .release k s
  | .restart | .alone => resume k ok 0 s
  | .stop => if ok then goto .settle k s else resume k false 0 s
  | .writeByte => if ok then goto .checkAck k s else resume k false 0 s
  | .readByte => goto (.takeByte ok) k s

/-- `min(timeout_ms * TICKS_PER_MS, 0xFFFFFFFF)` (42 R191). -/
def waitBudget (x : BusUnit) : Nat := min (Config.ticksPerMs * x.cfg.timeoutMs.toNat) 0xFFFFFFFF

/-- The wait primitive's counter load (42 R191): a zero count times out at once. -/
def loadCounter (u : UnitId) (w : Waiter) (k : Frame) (s : State) : State :=
  let n := waitBudget (getUnit s u)
  let s1 := { s with tcnt := BitVec.ofNat 32 n }
  if n = 0 then waitReturn w k false (onUnit u (setCode .timeout) s1)
  else goto (.waitLoop w) k s1

/-- One wait iteration (42 R192, R193, R195): BCL, then OV, then the pending bits, then the count. -/
def waitIteration (u : UnitId) (w : Waiter) (k : Frame) (s : State) : State :=
  let s1 := onUnit u (fun x => { x with witer := x.witer + 1 }) s
  let x := getUnit s u
  if x.stat.bcl then waitReturn w k false (onUnit u (setCode .busCollision) s1)
  else if x.stat.ov then waitReturn w k false (onUnit u (setCode .rxOverrun) s1)
  else if !pending x then waitReturn w k true s1
  else
    let s2 := { s1 with tcnt := s1.tcnt - 1 }
    if s2.tcnt = 0#32 then waitReturn w k false (onUnit u (setCode .timeout) s2)
    else goto (.waitLoop w) k s2

/-- The engine writes CON with one more command bit set: `HwWrite(u, 0x0, CON[u] | bit)` (20_memory R79). -/
def setCommandBit (u : UnitId) (bit : Word) (s : State) : State :=
  hwWrite u 0x0 (conWord (getUnit s u).con ||| bit) s

/-- The atomic step at position `p` of the polled operation on unit `u`, with frame `k`. -/
def positionStep (u : UnitId) (p : Position) (k : Frame) (s : State) : State :=
  match p with
  -- START (42 R196, R197)
  | .claim =>
    if (getUnit s u).busy then resume k false 0 (onUnit u (setCode .busy) s)
    else goto .setSen k (onUnit u (fun x => { x with busy := true }) s)
  | .setSen => goto (.waitLoad .start) k (setCommandBit u 0x0001 s)
  | .release => resume k false 0 (onUnit u (fun x => { x with busy := false }) s)
  -- RESTART (42 R198)
  | .setRsen => goto (.waitLoad .restart) k (setCommandBit u 0x0002 s)
  -- STOP (42 R199)
  | .setPen => goto (.waitLoad .stop) k (setCommandBit u 0x0004 s)
  | .settle => resume k true 0 (onUnit u (fun x => { x with busy := false, code := .idle }) s)
  -- WRITE_BYTE (43 R215)
  | .loadTrn d => goto .setXen k (hwWrite u 0x4 (d.setWidth 16) s)
  | .setXen => goto (.waitLoad .writeByte) k (setCommandBit u 0x0010 s)
  | .checkAck =>
    if (getUnit s u).stat.ackstat then resume k false 0 (onUnit u (setCode .dataNack) s)
    else resume k true 0 s
  -- READ_BYTE (43 R217, R218)
  | .setAckdt a =>
    goto .setRcen k
      (hwWrite u 0x0 ((conWord (getUnit s u).con &&& ~~~0x0020#16) ||| (if a then 0x0020#16 else 0#16)) s)
  | .setRcen => goto (.waitLoad .readByte) k (setCommandBit u 0x0008 s)
  | .takeByte ok => resume k ok (getUnit s u).rcv (onUnit u clearRbf s)
  -- the wait primitive (42 R191, R192)
  | .waitLoad w => loadCounter u w k s
  | .waitLoop w => waitIteration u w k s
  -- AddrNack (44 R232), then the STOP
  | .addrNack =>
    goto .setPen k (onUnit u (fun x => if x.code = .dataNack then setCode .addrNack x else x) s)
  -- INIT (46 R290)
  | .initDisable c h => goto (.initStore c h) k (hwWrite u 0x0 0x0000 s)
  | .initStore c h => goto (.initBrg c) k (onUnit u (fun x => { x with cfg := c, cb := h }) s)
  | .initBrg c => goto (.initAdd c) k (hwWrite u 0x3 (dividerWord c.speedHz) s)
  | .initAdd c => goto (.initCon c) k (hwWrite u 0x2 (c.ownAddr.setWidth 16) s)
  | .initCon c => goto .initDone k (hwWrite u 0x0 (initConWord c) s)
  | .initDone => finish true .none (onUnit u (fun x => { x with code := .idle, busy := false, sif := false }) s)

/-- The ENGINE's next atomic step; with no operation in flight there is none (10_state R53). -/
def engineStep (s : State) : State :=
  match s.polledOp with
  | none => s
  | some f => positionStep (unitOf f.cmd) f.pos f.frame s

/-- Hand the ENGINE the polled command `i` (class B or P), which starts at position `p` with frame `k`: a fault while a
callback runs (60 R325), the host waits while another polled command is in flight (10_state R55), and otherwise the
command's first atomic step runs (log 3). -/
def issue (i : Instr) (p : Position) (k : Frame) (s : State) : State :=
  if s.inCallback then raise .blockingInCallback s
  else if s.polledOp.isSome then hold i s
  else engineStep { s with polledOp := some ⟨i, p, k⟩ }

end Sys2Proof.Machine
end

