-- ==== Sys2Proof/Machine/Bytes.lean ====
section
/-! DEFINITION. WRITE_BYTE and READ_BYTE as commands (43). -/

namespace Sys2Proof.Machine

/-- WRITE_BYTE (43 R215, R216): its first step loads TRN. -/
def execWriteByte (u : UnitId) (d : Byte) (s : State) : Host.Outcome State Fault Refusal :=
  .next (issue (.writeByte u d) (.loadTrn d) .alone s)

/-- READ_BYTE (43 R217, R218): its first step sets ACKDT, 0 for ACK. -/
def execReadByte (u : UnitId) (sendAck : Bool) (s : State) : Host.Outcome State Fault Refusal :=
  .next (issue (.readByte u sendAck) (.setAckdt (!sendAck)) .aloneRead s)

end Sys2Proof.Machine
end

