-- ==== Sys2Proof/Machine/Conditions.lean ====
section
/-! DEFINITION. START, RESTART, STOP and WAIT as commands (42). Each is handed to the ENGINE, which runs it step by step
(00_scope R10); the first step runs at once. -/

namespace Sys2Proof.Machine

/-- START (42 R196, R197): its first step tests and sets the busy flag. -/
def execStart (u : UnitId) (s : State) : Host.Outcome State Fault Refusal := .next (issue (.start u) .claim .alone s)

/-- RESTART (42 R198, R200): its first step sets RSEN. -/
def execRestart (u : UnitId) (s : State) : Host.Outcome State Fault Refusal :=
  .next (issue (.restart u) .setRsen .alone s)

/-- STOP (42 R199, R200): its first step sets PEN. -/
def execStop (u : UnitId) (s : State) : Host.Outcome State Fault Refusal := .next (issue (.stop u) .setPen .alone s)

/-- WAIT (42 R201): its first step loads the counter. -/
def execWait (u : UnitId) (s : State) : Host.Outcome State Fault Refusal :=
  .next (issue (.wait u) (.waitLoad .alone) .alone s)

end Sys2Proof.Machine
end

