-- ==== Sys2Proof/Machine/Control.lean ====
section
/-! DEFINITION. Initialisation, error clearing, accessors and callback registration (46). INIT runs on the ENGINE in six
steps; the others are class N, one atomic step each, from either context (R297, R298); the polled context waits for the
command in flight before all of them but IS_BUSY (log 5). -/

namespace Sys2Proof.Machine

/-- INIT (46 R290, R291): role 3 is illegal (30_encoding R112); its first step disables the unit. -/
def execInit (u : UnitId) (w : BitVec 64) (h : Option Handle) (s : State) : Host.Outcome State Fault Refusal :=
  if roleReserved w then .next (respondIllegal s)
  else .next (issue (.init u w h) (.initDisable (configOfWord w) h) .alone s)

/-- CLEAR_ERRORS (46 R292): busy flag and status code only. -/
def execClearErrors (u : UnitId) (s : State) : Host.Outcome State Fault Refusal :=
  .next (issueAtOnce (.clearErrors u)
    (fun s => respond (okResponse .none) (onUnit u (fun x => { x with code := .idle, busy := false }) s)) s)

/-- IS_BUSY (46 R293): the host may read the flag between the steps of a transaction, so it never waits. -/
def execIsBusy (u : UnitId) (s : State) : Host.Outcome State Fault Refusal :=
  .next (respond (okResponse (.busy (getUnit s u).busy)) s)

/-- GET_STATUS (46 R294). -/
def execGetStatus (u : UnitId) (s : State) : Host.Outcome State Fault Refusal :=
  .next (issueAtOnce (.getStatus u)
    (fun s => respond (okResponse (.code4 (codeBits (getUnit s u).code))) s) s)

/-- GET_CONFIG (46 R295): the copy INIT stored. -/
def execGetConfig (u : UnitId) (s : State) : Host.Outcome State Fault Refusal :=
  .next (issueAtOnce (.getConfig u)
    (fun s => respond (okResponse (.config (wordOfConfig (getUnit s u).cfg) (getUnit s u).cb)) s) s)

/-- REGISTER_CALLBACK (46 R296). -/
def execRegisterCallback (u : UnitId) (h : Option Handle) (s : State) : Host.Outcome State Fault Refusal :=
  .next (issueAtOnce (.registerCallback u h)
    (fun s => respond (okResponse .none) (onUnit u (fun x => { x with cb := h }) s)) s)

end Sys2Proof.Machine
end

