-- ==== Sys2Proof/Machine/MasterEvents.lean ====
section
/-! DEFINITION. The master-side environment events of `BUS[u]` (40 section 3). They touch only unit `u` and only while it
is enabled with the command bit the event names; otherwise nothing happens (R149, R159). -/

namespace Sys2Proof.Machine

/-- `trace[u] += sym` (10_state R56). -/
def addTrace (y : Sym) (x : BusUnit) : BusUnit := { x with trace := x.trace ++ [y] }

/-- Clear command bit `b`: its operation completed. -/
def completeCmd (b : BitVec 5) (x : BusUnit) : BusUnit :=
  { x with con := { x.con with cmd := x.con.cmd &&& ~~~b } }

/-- The event names a command bit of an enabled unit (40 R149). -/
def commandRuns (b : BitVec 5) (x : BusUnit) : Bool := x.con.en && isPending b x

/-- DONE_SEN (40 R150). -/
def doneSen (x : BusUnit) : BusUnit :=
  if commandRuns cmdSen x then addTrace .start (completeCmd cmdSen x) else x

/-- DONE_RSEN (40 R151). -/
def doneRsen (x : BusUnit) : BusUnit :=
  if commandRuns cmdRsen x then addTrace .restart (completeCmd cmdRsen x) else x

/-- DONE_PEN (40 R152). -/
def donePen (x : BusUnit) : BusUnit :=
  if commandRuns cmdPen x then addTrace .stop (completeCmd cmdPen x) else x

/-- DONE_XEN(a) (40 R153): the acknowledge bit is sampled and the byte in TXSR is recorded. -/
def doneXen (a : Bool) (x : BusUnit) : BusUnit :=
  if commandRuns cmdXen x then
    addTrace (.tx x.txsr a) (completeCmd cmdXen { x with stat := { x.stat with ackstat := a } })
  else x

/-- A received byte passes through RXSR into RCV when RBF is 0, and overruns otherwise (40 R154, 45 R268). -/
def receiveByte (b : Byte) (x : BusUnit) : BusUnit :=
  if x.stat.rbf then { x with rxsr := b, stat := { x.stat with ov := true } }
  else { x with rxsr := b, rcv := b, stat := { x.stat with rbf := true } }

/-- DONE_RCEN(b) (40 R154): the byte is received and the bit in ACKDT is emitted, on overrun too. -/
def doneRcen (b : Byte) (x : BusUnit) : BusUnit :=
  if commandRuns cmdRcen x then
    addTrace (.rx b x.con.ackdt) (completeCmd cmdRcen (receiveByte b x))
  else x

/-- COLLIDE (40 R155): BCL is set and the command in flight is aborted. -/
def collide (x : BusUnit) : BusUnit :=
  if x.con.en && pending x then
    addTrace .col { x with con := { x.con with cmd := 0 }, stat := { x.stat with bcl := true } }
  else x

end Sys2Proof.Machine
end

