-- ==== Sys2Proof/Machine/SlaveEvents.lean ====
section
/-! DEFINITION. The slave receiver (45 sections 1 and 2): what the unit does when another master on its bus acts, and the
check of 60 R323 before each event. `busEvent` is the one entry for every event of `BUS[u]`. -/

namespace Sys2Proof.Machine

/-- The slave receiver is active (45 R260): EN = 1 and a slave role. -/
def slaveActive (x : BusUnit) : Bool := x.con.en && x.con.mode != .master

/-- Which slave events the state allows (45 R260, R262 to R269). -/
def slaveEnabled (e : BusEvent) (x : BusUnit) : Bool :=
  match e with
  | .sStart _ | .sStop => slaveActive x
  | .sRxByte _ => slaveActive x && (x.slv == .awaitAddr || x.slv == .hi10 || x.slv == .write)
  | .sTx _ => slaveActive x && x.slv == .read
  | .doneSen | .doneRsen | .donePen | .doneXen _ | .doneRcen _ | .collide => false

/-- S_START(r) (45 R262). -/
def slaveStart (r : Bool) (x : BusUnit) : BusUnit :=
  addTrace .sStart (setSif
    { x with slv := .awaitAddr, m10 := x.m10 && r, stat := { x.stat with sdet := true } })

/-- S_STOP (45 R263). -/
def slaveStop (x : BusUnit) : BusUnit :=
  addTrace .sStop (setSif { x with slv := .idle, m10 := false, stat := { x.stat with pdet := true } })

/-- The unit is addressed for writing; `gc` says by the general call (45 R264, R265, R267). -/
def addressedWrite (gc : Bool) (x : BusUnit) : BusUnit :=
  { x with slv := .write, stat := { x.stat with rw := false, gcstat := gc } }

/-- The unit is addressed for reading: a byte is requested (45 R264, R266). -/
def addressedRead (x : BusUnit) : BusUnit :=
  setSif { x with slv := .read, stat := { x.stat with rw := true, gcstat := false, treq := true } }

/-- S_RXBYTE(b) in AWAIT_ADDR, 7-bit role (45 R264, R265): the own address is compared before the general call. -/
def addressByte7 (b : Byte) (x : BusUnit) : BusUnit :=
  let y := { x with rxsr := b }
  if b.extractLsb' 1 7 = x.add.extractLsb' 0 7 then
    if b.getLsbD 0 then addTrace (.sRx b false) (addressedRead y)
    else addTrace (.sRx b false) (addressedWrite false y)
  else if b = 0x00#8 && x.con.gcen then addTrace (.sRx b false) (addressedWrite true y)
  else addTrace (.sRx b true) { y with slv := .idle }

/-- The first byte of this unit's 10-bit address, `11110 A9 A8` above the direction bit (45 R266). -/
def matchesHigh10 (b : Byte) (x : BusUnit) : Bool :=
  b.extractLsb' 3 5 == 0b11110#5 && b.extractLsb' 1 2 == x.add.extractLsb' 8 2

/-- S_RXBYTE(b) in AWAIT_ADDR, 10-bit role (45 R266, R265). -/
def addressByte10 (b : Byte) (x : BusUnit) : BusUnit :=
  let y := { x with rxsr := b }
  if matchesHigh10 b x && !b.getLsbD 0 then addTrace (.sRx b false) { y with slv := .hi10 }
  else if matchesHigh10 b x && b.getLsbD 0 && x.m10 then addTrace (.sRx b false) (addressedRead y)
  else if b = 0x00#8 && x.con.gcen then addTrace (.sRx b false) (addressedWrite true y)
  else addTrace (.sRx b true) { y with slv := .idle, m10 := false }

/-- S_RXBYTE(b) in HI10, the low byte of a 10-bit address (45 R267). -/
def addressByteLow (b : Byte) (x : BusUnit) : BusUnit :=
  let y := { x with rxsr := b }
  if b = x.add.extractLsb' 0 8 then addTrace (.sRx b false) (addressedWrite false { y with m10 := true })
  else addTrace (.sRx b true) { y with slv := .idle, m10 := false }

/-- S_RXBYTE(b) in WRITE, a data byte (45 R268): stored and acknowledged, or an overrun and refused. -/
def slaveData (b : Byte) (x : BusUnit) : BusUnit :=
  addTrace (.sRx b x.stat.rbf) (setSif (receiveByte b x))

/-- S_RXBYTE(b) (45 R264 to R268): the address phase selects the rule, and in AWAIT_ADDR the role does. -/
def slaveByte (b : Byte) (x : BusUnit) : BusUnit :=
  match x.slv with
  | .awaitAddr =>
    match x.con.mode with
    | .slave7 => addressByte7 b x
    | .slave10 => addressByte10 b x
    | .master => x
  | .hi10 => addressByteLow b x
  | .write => slaveData b x
  | .idle | .read => x

/-- S_TX(a) (45 R269): TRN goes through TXSR onto the bus; an ACK asks for another byte, a NACK ends the transfer. -/
def slaveTx (a : Bool) (x : BusUnit) : BusUnit :=
  let y := addTrace (.sTx x.trn a) { x with txsr := x.trn }
  if a then { y with slv := .idle }
  else setSif { y with stat := { y.stat with treq := true } }

/-- The effect of an event on its unit. -/
def unitEvent (e : BusEvent) (x : BusUnit) : BusUnit :=
  match e with
  | .doneSen => doneSen x
  | .doneRsen => doneRsen x
  | .donePen => donePen x
  | .doneXen a => doneXen a x
  | .doneRcen b => doneRcen b x
  | .collide => collide x
  | .sStart r => slaveStart r x
  | .sStop => slaveStop x
  | .sRxByte b => slaveByte b x
  | .sTx a => slaveTx a x

/-- The event is one of the four slave events of 45 R260. -/
def isSlaveEvent : BusEvent → Bool
  | .sStart _ | .sStop | .sRxByte _ | .sTx _ => true
  | .doneSen | .doneRsen | .donePen | .doneXen _ | .doneRcen _ | .collide => false

/-- An environment event of `BUS[u]` (40 R149, 45 R260): a slave event that is enabled is first checked against a master
operation of the same unit (60 R323), and one that is not enabled does not happen. -/
def busEvent (u : UnitId) (e : BusEvent) (s : State) : State :=
  if isSlaveEvent e then
    if slaveEnabled e (getUnit s u) then
      if pending (getUnit s u) || masterBusy u s then raise .slaveDuringMaster s
      else onUnit u (unitEvent e) s
    else s
  else onUnit u (unitEvent e) s

end Sys2Proof.Machine
end

