-- ==== Sys2Proof/Machine/Interrupt.lean ====
section
/-! DEFINITION. DISPATCH (45 section 4): its entry as a command, its later atomic steps, and the return of the callback. -/

namespace Sys2Proof.Machine

/-- DISPATCH (45 R271 step 1): issued by the interrupt entry of unit `u` it clears SIF; issued any other way it is a
fault (60 R326). -/
def execDispatch (u : UnitId) (s : State) : Host.Outcome State Fault Refusal :=
  if s.issuer = .interrupt ∧ s.isrOp = some ⟨u, .entry⟩ then
    .next { onUnit u (fun x => { x with sif := false }) s with isrOp := some ⟨u, .select⟩ }
  else .next (raise .dispatchContext s)

/-- The event DISPATCH reports, in priority order, and the unit with that event's flag cleared (45 R271 step 2, 60 R330). -/
def selectEvent (x : BusUnit) : Option (Event × BusUnit) :=
  if x.stat.sdet then some (⟨.start, 0⟩, { x with stat := { x.stat with sdet := false } })
  else if x.stat.pdet then some (⟨.stop, 0⟩, { x with stat := { x.stat with pdet := false } })
  else if x.stat.rbf then some (⟨.byteReceived, x.rcv⟩, clearRbf x)
  else if x.stat.treq then some (⟨.byteRequested, 0⟩, { x with stat := { x.stat with treq := false } })
  else none

/-- DISPATCH step 2, flag selection, one atomic step (45 R271, R273): with no callback no flag is touched. -/
def dispatchSelect (u : UnitId) (s : State) : State :=
  match (getUnit s u).cb with
  | none => endDispatch none s
  | some h =>
    match selectEvent (getUnit s u) with
    | none => endDispatch none s
    | some (e, x) => { putUnit u x s with isrOp := some ⟨u, .invoke h e⟩ }

/-- DISPATCH step 3 (45 R271, R272): the callback read in step 2 is invoked. -/
def dispatchInvoke (u : UnitId) (h : Handle) (e : Event) (s : State) : State :=
  emit (.invoked u h e) { s with inCallback := true, isrOp := some ⟨u, .calling e⟩ }

/-- The callback returns, and DISPATCH step 4 ends it (45 R271, 60 R332). Nothing happens when none runs. -/
def callbackReturn (s : State) : State :=
  match s.isrOp with
  | some ⟨_, .calling e⟩ => endDispatch (some e) s
  | _ => s

end Sys2Proof.Machine
end

