-- ==== Sys2Proof/Machine/Registers.lean ====
section
/-! DEFINITION. The 18 register access forms (40 sections 1 and 2). Every write is HwWrite and every read one host read:
nothing on the register interface is illegal (30_encoding R113). -/

namespace Sys2Proof.Machine

/-- CON_SEN (40 R134). -/
def execConSen (u : UnitId) (v : Word) (s : State) : Host.Outcome State Fault Refusal := .next (hwWrite u 0x0 v s)

/-- CON_RSEN (40 R135). -/
def execConRsen (u : UnitId) (v : Word) (s : State) : Host.Outcome State Fault Refusal := .next (hwWrite u 0x0 v s)

/-- CON_PEN (40 R136). -/
def execConPen (u : UnitId) (v : Word) (s : State) : Host.Outcome State Fault Refusal := .next (hwWrite u 0x0 v s)

/-- CON_RCEN (40 R137). -/
def execConRcen (u : UnitId) (v : Word) (s : State) : Host.Outcome State Fault Refusal := .next (hwWrite u 0x0 v s)

/-- CON_XEN (40 R138). -/
def execConXen (u : UnitId) (v : Word) (s : State) : Host.Outcome State Fault Refusal := .next (hwWrite u 0x0 v s)

/-- CON_CFG (40 R131, R132). -/
def execConCfg (u : UnitId) (v : Word) (s : State) : Host.Outcome State Fault Refusal := .next (hwWrite u 0x0 v s)

/-- CON_MULTI (40 R133). -/
def execConMulti (u : UnitId) (v : Word) (s : State) : Host.Outcome State Fault Refusal := .next (hwWrite u 0x0 v s)

/-- STAT_W (40 R139). -/
def execStatW (u : UnitId) (v : Word) (s : State) : Host.Outcome State Fault Refusal := .next (hwWrite u 0x1 v s)

/-- ADD_W (40 R140). -/
def execAddW (u : UnitId) (v : Word) (s : State) : Host.Outcome State Fault Refusal := .next (hwWrite u 0x2 v s)

/-- BRG_W (40 R141). -/
def execBrgW (u : UnitId) (v : Word) (s : State) : Host.Outcome State Fault Refusal := .next (hwWrite u 0x3 v s)

/-- TRN_W (40 R142). -/
def execTrnW (u : UnitId) (v : Word) (s : State) : Host.Outcome State Fault Refusal := .next (hwWrite u 0x4 v s)

/-- RCV_W (40 R143): ignored. -/
def execRcvW (u : UnitId) (v : Word) (s : State) : Host.Outcome State Fault Refusal := .next (hwWrite u 0x5 v s)

/-- IFS_W (40 R144). -/
def execIfsW (u : UnitId) (v : Word) (s : State) : Host.Outcome State Fault Refusal := .next (hwWrite u 0x6 v s)

/-- ESTAT_W (40 R145): ignored. -/
def execEstatW (u : UnitId) (v : Word) (s : State) : Host.Outcome State Fault Refusal := .next (hwWrite u 0x7 v s)

/-- RSVD_W (40 R146): ignored. -/
def execRsvdW (u : UnitId) (off : BitVec 4) (v : Word) (s : State) : Host.Outcome State Fault Refusal :=
  .next (hwWrite u off v s)

/-- RCV_R (40 R148): the byte is returned and RBF is cleared, in one atomic step. -/
def execRcvR (u : UnitId) (s : State) : Host.Outcome State Fault Refusal := .next (hostRead u 0x5 s)

/-- RSVD_R (40 R146): returns 0. -/
def execRsvdR (u : UnitId) (off : BitVec 4) (s : State) : Host.Outcome State Fault Refusal := .next (hostRead u off s)

/-- REG_R (40 R147): returns the register, no side effect. -/
def execRegR (u : UnitId) (off : BitVec 4) (s : State) : Host.Outcome State Fault Refusal := .next (hostRead u off s)

end Sys2Proof.Machine
end

