-- ==== Sys2Proof/Machine/Transactions.lean ====
section
/-! DEFINITION. The composites (44). Each begins with START, so its first step is START's; a list or count above MAX_LEN
is illegal (30_encoding R112, 46 R299). -/

namespace Sys2Proof.Machine

/-- WRITE_DATA (44 R233). -/
def execWriteData (u : UnitId) (a : Byte) (bs : List Byte) (s : State) : Host.Outcome State Fault Refusal :=
  if withinMaxLen bs.length then .next (issue (.writeData u a bs) .claim (.writeStart a bs) s)
  else .next (respondIllegal s)

/-- READ_DATA (44 R234). -/
def execReadData (u : UnitId) (a : Byte) (c : BitVec 16) (s : State) : Host.Outcome State Fault Refusal :=
  if withinMaxLen c.toNat then .next (issue (.readData u a c) .claim (.readStart a c.toNat) s)
  else .next (respondIllegal s)

/-- WRITE_REGISTER (44 R235): WRITE_DATA of the index followed by the bytes. -/
def execWriteRegister (u : UnitId) (a r : Byte) (bs : List Byte) (s : State) : Host.Outcome State Fault Refusal :=
  if withinMaxLen bs.length then .next (issue (.writeRegister u a r bs) .claim (.writeStart a (r :: bs)) s)
  else .next (respondIllegal s)

/-- READ_REGISTER (44 R236). -/
def execReadRegister (u : UnitId) (a r : Byte) (c : BitVec 16) (s : State) : Host.Outcome State Fault Refusal :=
  if withinMaxLen c.toNat then .next (issue (.readRegister u a r c) .claim (.regStart a r c.toNat) s)
  else .next (respondIllegal s)

/-- SCAN_BUS (44 R237): the first probe is of address 1. -/
def execScanBus (u : UnitId) (m : Byte) (s : State) : Host.Outcome State Fault Refusal :=
  .next (issue (.scanBus u m) .claim (.scanStart 1 m false []) s)

end Sys2Proof.Machine
end

