-- ==== Sys2Proof/Machine/Dispatch.lean ====
section
/-! DEFINITION. One arm per constructor of Instr, in the order of spec/opcode_table.json. -/

namespace Sys2Proof.Machine

def exec (i : Instr) (s : State) : Host.Outcome State Fault Refusal :=
  match i with
  | .start u => Sys2Proof.Machine.execStart u s
  | .restart u => Sys2Proof.Machine.execRestart u s
  | .stop u => Sys2Proof.Machine.execStop u s
  | .wait u => Sys2Proof.Machine.execWait u s
  | .writeByte u d => Sys2Proof.Machine.execWriteByte u d s
  | .readByte u sendAck => Sys2Proof.Machine.execReadByte u sendAck s
  | .writeData u a bs => Sys2Proof.Machine.execWriteData u a bs s
  | .readData u a c => Sys2Proof.Machine.execReadData u a c s
  | .writeRegister u a r bs => Sys2Proof.Machine.execWriteRegister u a r bs s
  | .readRegister u a r c => Sys2Proof.Machine.execReadRegister u a r c s
  | .scanBus u m => Sys2Proof.Machine.execScanBus u m s
  | .init u w h => Sys2Proof.Machine.execInit u w h s
  | .clearErrors u => Sys2Proof.Machine.execClearErrors u s
  | .isBusy u => Sys2Proof.Machine.execIsBusy u s
  | .getStatus u => Sys2Proof.Machine.execGetStatus u s
  | .getConfig u => Sys2Proof.Machine.execGetConfig u s
  | .registerCallback u h => Sys2Proof.Machine.execRegisterCallback u h s
  | .calcDivider u speed => Sys2Proof.Machine.execCalcDivider u speed s
  | .dispatch u => Sys2Proof.Machine.execDispatch u s
  | .conSen u v => Sys2Proof.Machine.execConSen u v s
  | .conRsen u v => Sys2Proof.Machine.execConRsen u v s
  | .conPen u v => Sys2Proof.Machine.execConPen u v s
  | .conRcen u v => Sys2Proof.Machine.execConRcen u v s
  | .conXen u v => Sys2Proof.Machine.execConXen u v s
  | .conCfg u v => Sys2Proof.Machine.execConCfg u v s
  | .conMulti u v => Sys2Proof.Machine.execConMulti u v s
  | .statW u v => Sys2Proof.Machine.execStatW u v s
  | .addW u v => Sys2Proof.Machine.execAddW u v s
  | .brgW u v => Sys2Proof.Machine.execBrgW u v s
  | .trnW u v => Sys2Proof.Machine.execTrnW u v s
  | .rcvW u v => Sys2Proof.Machine.execRcvW u v s
  | .ifsW u v => Sys2Proof.Machine.execIfsW u v s
  | .estatW u v => Sys2Proof.Machine.execEstatW u v s
  | .rsvdW u off v => Sys2Proof.Machine.execRsvdW u off v s
  | .rcvR u => Sys2Proof.Machine.execRcvR u s
  | .rsvdR u off => Sys2Proof.Machine.execRsvdR u off s
  | .regR u off => Sys2Proof.Machine.execRegR u off s

end Sys2Proof.Machine
end

