-- ==== Sys2Proof/Machine/Step.lean ====
section
/-! DEFINITION. One step: the next move of the agenda, or of the free value when the agenda fixes none, taken by its
agent (00_scope R9, R10, 20_memory R83). No agent steps once the fault mark is set (60 R322). -/

namespace Sys2Proof.Machine

/-- A request is handed over from context `c`: the instruction it decodes to runs, and a command word that names no
operation is answered as illegal (46 R298, R299). -/
def serve (c : Issuer) (r : Request) (s : State) : Host.Outcome State Fault Refusal :=
  match decode r with
  | .ok i => exec i { s with issuer := c }
  | .error _ => .next (respondIllegal { s with issuer := c })

/-- The ISR's next step (45 R271): after the interrupt entry the DISPATCH command, then its steps 2 and 3; while the
callback runs the ISR has none of its own (60 R327). -/
def isrStep (s : State) : Host.Outcome State Fault Refusal :=
  match s.isrOp with
  | none => .next s
  | some f =>
    match f.pos with
    | .entry => serve .interrupt (dispatchRequest f.unit) s
    | .select => .next (dispatchSelect f.unit s)
    | .invoke h e => .next (dispatchInvoke f.unit h e s)
    | .calling _ => .next s

/-- One move. -/
def takeMove (m : Move) (s : State) : Host.Outcome State Fault Refusal :=
  match m with
  | .host r => serve .polled r s
  | .callback r => if s.inCallback then serve .callback r s else .next s
  | .callbackReturn => .next (callbackReturn s)
  | .engine => .next (engineStep s)
  | .takeIrq u => .next (takeInterrupt u s)
  | .isr => isrStep s
  | .bus u e => .next (busEvent u e s)

/-- One step of the block. -/
def step (s : State) : Host.Outcome State Fault Refusal :=
  match s.faultMark with
  | some f => .fault f
  | none =>
    match s.agenda with
    | m :: rest => takeMove m { s with agenda := rest }
    | [] => takeMove (Config.freeMove s.tick) { s with tick := s.tick + 1 }

/-- `s` with the table word `w` of `nbits` bits as the very next request. DISPATCH is issued only by the interrupt entry
(45 R271, 60 R326), so for it the interrupt of its unit has been taken and the ISR steps next; every other request comes
from the host's polled context. A word that is no request leaves `s` as it is. Log 14. -/
def State.withFetchWord (s : State) (nbits w : Nat) : State :=
  match tableRequest nbits w with
  | none => s
  | some r =>
    match decode r with
    | .ok (.dispatch u) => { s with isrOp := some ⟨u, .entry⟩, agenda := .isr :: s.agenda }
    | _ => { s with agenda := .host r :: s.agenda }

end Sys2Proof.Machine
end

