-- ==== Sys2Proof/Safety.lean ====
section
/-! DEFINITION. The terms claims use: fault-free states, the clean entry and the end of a run (70 R355, R356), the
invariants of the block, and the agendas of a prompt bus (95_test_vectors section 0), under which each command bit the
ENGINE sets is completed before the first iteration of the wait that follows. -/

namespace Sys2Proof.Machine

/-- No fault has been raised (60 R322). -/
abbrev faultFree (s : State) : Prop := s.faultMark = none

/-- One unit of a clean entry (70 R355). -/
abbrev cleanUnit (x : BusUnit) : Prop :=
  pending x = false ∧ x.stat = Stat.zero ∧ x.sif = false ∧ x.busy = false ∧ x.code = .idle ∧ x.trace = [] ∧ x.witer = 0

/-- The clean-entry premises of a run that starts after reset and boot (70 R355). -/
abbrev cleanEntry (s : State) : Prop :=
  faultFree s ∧ cleanUnit s.unit1 ∧ cleanUnit s.unit2 ∧ s.polledOp = none ∧ s.isrOp = none

/-- A move that hands over a request. -/
def isRequest : Move → Bool
  | .host _ | .callback _ => true
  | .callbackReturn | .engine | .takeIrq _ | .isr | .bus _ _ => false

/-- The host has no further command or register access to issue (70 R356): none is fixed on the agenda, and none comes by
the free moves that follow it (log 1). -/
def hostDone (s : State) : Prop :=
  (∀ m ∈ s.agenda, isRequest m = false) ∧ ∀ n, s.tick ≤ n → isRequest (Config.freeMove n) = false

/-- The run has ended (70 R356): the host has nothing further to issue, nothing is in flight, no command bit is pending. A
faulted state is not the end of a run. -/
def runEnded (s : State) : Prop :=
  faultFree s ∧ hostDone s ∧ s.polledOp = none ∧ s.isrOp = none ∧ pending s.unit1 = false ∧ pending s.unit2 = false

/-- At most one command bit of a unit is 1 (10_state R27), and the codes no rule records are not held (60 R321). -/
abbrev unitInv (x : BusUnit) : Prop := popcount5 x.con.cmd ≤ 1 ∧ x.code ≠ .arbLost ∧ x.code ≠ .success

/-- DISPATCH is in its callback. -/
def isCalling : Option Servicing → Bool
  | some ⟨_, .calling _⟩ => true
  | _ => false

/-- The position is inside the wait loop. -/
def isWaiting : Option InFlight → Bool
  | some ⟨_, .waitLoop _, _⟩ => true
  | _ => false

/-- The command in flight is a polled one: class B or P (30_encoding R104). -/
def isPolled : Option InFlight → Bool
  | some f => decide (commandClass f.cmd = some .B) || decide (commandClass f.cmd = some .P)
  | none => true

/-- The invariant of the block: `unitInv` of both units; `in_callback` is 1 exactly while DISPATCH is in its callback
(10_state R54); the counter is not 0 while a wait runs (42 R191, R192); only polled commands are in flight (R55). -/
abbrev blockInv (s : State) : Prop :=
  unitInv s.unit1 ∧ unitInv s.unit2 ∧ s.inCallback = isCalling s.isrOp ∧
    (isWaiting s.polledOp = true → s.tcnt ≠ 0#32) ∧ isPolled s.polledOp = true

/-- The list of a scan is strictly ascending, at most `m` long, and holds only non-zero addresses below `a`, the address
being probed, which lies in 1 to 126 (44 R237). -/
abbrev scanListOrdered (a : BitVec 7) (m : Byte) (list : List (BitVec 7)) : Prop :=
  1 ≤ a.toNat ∧ a.toNat ≤ 126 ∧ list.length ≤ m.toNat ∧ list.Pairwise (fun p q => p.toNat < q.toNat) ∧
    ∀ p ∈ list, 1 ≤ p.toNat ∧ p.toNat < a.toNat

/-- Every scan in flight keeps its list ordered (44 R237). -/
def scanOrdered (s : State) : Prop :=
  match s.polledOp with
  | some ⟨_, _, .scanStart a m _ list⟩ => scanListOrdered a m list
  | some ⟨_, _, .scanAddr a m _ list⟩ => scanListOrdered a m list
  | some ⟨_, _, .scanStop a m _ list _⟩ => scanListOrdered a m list
  | _ => True

/-- Unit `u` can run a master command to its end on a prompt bus: no fault, no callback, no command in flight, the unit
enabled with nothing pending and no error flag, and a timeout configured. -/
abbrev masterReady (u : UnitId) (s : State) : Prop :=
  faultFree s ∧ s.inCallback = false ∧ s.polledOp = none ∧ (getUnit s u).con.en = true ∧ (getUnit s u).con.cmd = 0#5 ∧
    (getUnit s u).stat.bcl = false ∧ (getUnit s u).stat.ov = false ∧ (getUnit s u).cfg.timeoutMs ≠ 0#16

/-- Unit `u` can take a slave event: no fault, an active slave receiver, no command pending, no class B command in flight
on it (45 R260, 60 R323). -/
abbrev slaveReady (u : UnitId) (s : State) : Prop :=
  faultFree s ∧ slaveActive (getUnit s u) = true ∧ pending (getUnit s u) = false ∧ masterBusy u s = false

/-- The host's polled context can have a polled command accepted (10_state R55, 60 R325). -/
abbrev engineFree (s : State) : Prop := s.inCallback = false ∧ s.polledOp = none

/-- The context a class N command comes from does not have to wait: a callback, or the polled context with no command in
flight (00_scope R8, 46 R298). -/
abbrev mayIssue (s : State) : Prop := s.issuer = .polled → s.polledOp = none

/-- The numbers of the status codes (10_state R47). -/
def codeTable : List (Code × BitVec 4) :=
  [(.idle, 0), (.busy, 1), (.timeout, 2), (.addrNack, 3), (.dataNack, 4), (.arbLost, 5), (.busCollision, 6),
    (.rxOverrun, 7), (.success, 8)]

/-- The numbers of the roles in CON.MODE and in CFGW64 (10_state R22, 30_encoding R106). -/
def roleTable : List (Role × BitVec 2) := [(.master, 0b00), (.slave7, 0b01), (.slave10, 0b10)]

/-- The seven forms of a CON write (30_encoding R102 rows 1 to 7). -/
def conForms (u : UnitId) (v : Word) : List Instr :=
  [.conSen u v, .conRsen u v, .conPen u v, .conRcen u v, .conXen u v, .conCfg u v, .conMulti u v]

/-- The write forms with their register offsets (20_memory R72); a reserved write has the offset it carries. -/
def writeForms (u : UnitId) (v : Word) (off : BitVec 4) : List (Instr × BitVec 4) :=
  (conForms u v).map (fun i => (i, 0x0#4)) ++
    [(.statW u v, 0x1#4), (.addW u v, 0x2#4), (.brgW u v, 0x3#4), (.trnW u v, 0x4#4), (.rcvW u v, 0x5#4),
      (.ifsW u v, 0x6#4), (.estatW u v, 0x7#4), (.rsvdW u (off ||| 0x8#4) v, off ||| 0x8#4)]

/-- The ENGINE sets a command bit, event `e` completes it, the ENGINE loads the counter and makes one iteration. -/
def promptCommand (u : UnitId) (e : BusEvent) : List Move := [.engine, .bus u e, .engine, .engine]

/-- The moves of a prompt START (42 R196). -/
def promptStart (u : UnitId) : List Move := .engine :: promptCommand u .doneSen

/-- The moves of a prompt RESTART (42 R198). -/
def promptRestart (u : UnitId) : List Move := promptCommand u .doneRsen

/-- The moves of a prompt STOP (42 R199). -/
def promptStop (u : UnitId) : List Move := promptCommand u .donePen ++ [.engine]

/-- The moves of a prompt WRITE_BYTE answered with `a` (43 R215). -/
def promptWriteByte (u : UnitId) (a : Bool) : List Move := .engine :: promptCommand u (.doneXen a) ++ [.engine]

/-- The moves of a prompt READ_BYTE that receives `b` (43 R217). -/
def promptReadByte (u : UnitId) (b : Byte) : List Move := .engine :: promptCommand u (.doneRcen b) ++ [.engine]

/-- The moves of a prompt WRITE_DATA of `n` bytes, all acknowledged (44 R233). -/
def promptWriteData (u : UnitId) (n : Nat) : List Move :=
  promptStart u ++ promptWriteByte u false ++ (List.replicate n (promptWriteByte u false)).flatten ++ promptStop u

/-- The moves of a prompt READ_DATA that receives `ds`, the address acknowledged (44 R234). -/
def promptReadData (u : UnitId) (ds : List Byte) : List Move :=
  promptStart u ++ promptWriteByte u false ++ ds.flatMap (promptReadByte u) ++ promptStop u

/-- The moves of a prompt READ_REGISTER that receives `ds`, everything acknowledged (44 R236). -/
def promptReadRegister (u : UnitId) (ds : List Byte) : List Move :=
  promptStart u ++ promptWriteByte u false ++ promptWriteByte u false ++ promptRestart u ++ promptWriteByte u false ++
    ds.flatMap (promptReadByte u) ++ promptStop u

/-- The moves of a prompt probe that is acknowledged exactly when `ack` (44 R237). -/
def promptProbe (u : UnitId) (ack : Bool) : List Move :=
  promptStart u ++ promptWriteByte u (!ack) ++ (if ack then [] else [.engine]) ++ promptStop u

/-- The addresses a scan probes, in order: 1 to 126 (44 R237). -/
def scanAddresses : List (BitVec 7) := (List.range 126).map (fun i => BitVec.ofNat 7 (i + 1))

/-- The moves of a prompt scan of a bus on which exactly the addresses with `present` answer (44 R237). -/
def promptScan (u : UnitId) (present : BitVec 7 → Bool) : List Move :=
  scanAddresses.flatMap (fun a => promptProbe u (present a))

/-- The primitives that wait, as commands on unit `u`: the command, its wait, and its frame (42 R190). -/
def waitForms (u : UnitId) (d : Byte) (ack : Bool) : List (Instr × Waiter × Frame) :=
  [(.start u, .start, .alone), (.restart u, .restart, .alone), (.stop u, .stop, .alone), (.wait u, .alone, .alone),
    (.writeByte u d, .writeByte, .alone), (.readByte u ack, .readByte, .aloneRead)]

/-- How many steps of its own a primitive takes after its wait returned `ok`: START's release of the busy flag, STOP's
settling, WRITE_BYTE's check of ACKSTAT, READ_BYTE's read of RCV (42 R196, R199, 43 R215, R217). -/
def stepsAfterWait : Waiter → Bool → Nat
  | .start, ok => if ok then 0 else 1
  | .stop, ok | .writeByte, ok => if ok then 1 else 0
  | .readByte, _ => 1
  | .restart, _ | .alone, _ => 0

/-- From `m`, with the moves `more` to come, the STOP of a composite on unit `u` times out on a silent bus: the composite
returns ok = 0 with `fields`, the unit stays busy and PEN stays pending (44 R231, R238, 42 R199). -/
def stopTimesOut (u : UnitId) (fields : OutputFields) (m : State) (more : List Move) : Prop :=
  ∀ rest, more = List.replicate (2 + waitBudget (getUnit m u)) .engine ++ rest → ∃ t,
    core.run (2 + waitBudget (getUnit m u)) m = .next t ∧
    (getUnit t u).trace = (getUnit m u).trace ∧ (getUnit t u).busy = true ∧ (getUnit t u).code = .timeout ∧
    (getUnit t u).con.cmd = cmdPen ∧ (getUnit t u).witer = (getUnit m u).witer + waitBudget (getUnit m u) ∧
    t.polledOp = none ∧ t.agenda = rest ∧ t.out = m.out ++ [.response .polled ⟨false, false, fields⟩]

/-- From `m`, with the moves `more` to come, a composite that has failed on unit `u` issues exactly one STOP and returns
ok = 0 with `fields`: a prompt STOP leaves the unit free and the code IDLE, and a STOP on a silent bus times out (44 R231,
R238). -/
def failsByOneStop (u : UnitId) (fields : OutputFields) (m : State) (more : List Move) : Prop :=
  (getUnit m u).busy = true ∧
  (∀ rest, more = promptStop u ++ rest → ∃ t, core.run 5 m = .next t ∧
    (getUnit t u).trace = (getUnit m u).trace ++ [.stop] ∧ (getUnit t u).busy = false ∧ (getUnit t u).code = .idle ∧
    (getUnit t u).con.cmd = 0#5 ∧ (getUnit t u).witer = (getUnit m u).witer + 1 ∧ t.polledOp = none ∧
    t.agenda = rest ∧ t.out = m.out ++ [.response .polled ⟨false, false, fields⟩]) ∧
  stopTimesOut u fields m more

/-- The ENGINE's steps of a wait that fails: the counter load, then the iteration that sees BCL, or all `n` iterations. -/
def failingWait (n : Nat) (collides : Bool) : List Move := List.replicate (if collides then 2 else 1 + n) .engine

/-- The ENGINE sets a command bit of unit `u` and its wait fails, by a collision, or on a silent bus after `n` iterations. -/
def failingCommand (u : UnitId) (n : Nat) (collides : Bool) : List Move :=
  .engine :: ((if collides then [.bus u .collide] else []) ++ failingWait n collides)

/-- The code a failing wait records (42 R192, R193). -/
def failingCode (collides : Bool) : Code := if collides then .busCollision else .timeout

/-- From `m`, with the moves `more` to come, a composite failed by the wait of its command `bit` on unit `u`. The code is
that of the wait. The PEN write of its STOP is refused with IWCOL, by BCL or by the command still pending, the wait of that
STOP fails as the first did, and the composite returns ok = 0 with `fields`, the unit busy and no STOP sent (44 R231, 40
R133, 70 R360). -/
def failsByRefusedStop (u : UnitId) (bit : BitVec 5) (collides : Bool) (fields : OutputFields) (m : State)
    (more : List Move) : Prop :=
  (getUnit m u).busy = true ∧ (getUnit m u).code = failingCode collides ∧ (getUnit m u).stat.bcl = collides ∧
  (getUnit m u).con.cmd = (if collides then 0#5 else bit) ∧
  ∀ rest, more = .engine :: failingWait (waitBudget (getUnit m u)) collides ++ rest → ∃ t,
    core.run (1 + (failingWait (waitBudget (getUnit m u)) collides).length) m = .next t ∧
    (getUnit t u).stat.iwcol = true ∧ (getUnit t u).con.cmd = (if collides then 0#5 else bit) ∧
    (getUnit t u).trace = (getUnit m u).trace ∧ (getUnit t u).busy = true ∧ (getUnit t u).code = failingCode collides ∧
    t.polledOp = none ∧ t.agenda = rest ∧ t.out = m.out ++ [.response .polled ⟨false, false, fields⟩]

/-- `i` is a composite but a scan, for device `a` of unit `u`, its address byte read or written, with the outputs it has
when it fails before any byte is read (44 R233 to R236). -/
def isComposite (u : UnitId) (a : Byte) (i : Instr) (read : Bool) (fields : OutputFields) : Prop :=
  (∃ bs, i = .writeData u a bs) ∧ read = false ∧ fields = .none ∨
  (∃ r bs, i = .writeRegister u a r bs) ∧ read = false ∧ fields = .none ∨
  (∃ c, i = .readData u a c) ∧ read = true ∧ fields = .out [] ∨
  (∃ r c, i = .readRegister u a r c) ∧ read = false ∧ fields = .out []

/-- The parts of the composites after their START (44 R233 to R236), on unit `u`, which is `x` before. `before` are the
moves from the START's claim to the part's command bit when all goes well, `sent` the symbols they put on the trace, `bit`
the command bit, `after` the steps between the part's failed wait and the STOP (the check of R232, the read of RCV), and
`fields` the outputs when the part fails. -/
inductive CompositePart (u : UnitId) (x : BusUnit) :
    Instr → (before : List Move) → (sent : List Sym) → (bit : BitVec 5) → (after : List Move) → OutputFields → Prop
  /-- the address byte -/
  | address {i a read fields} (h : isComposite u a i read fields) :
    CompositePart u x i ((promptStart u).tail ++ [.engine]) [.start] cmdXen [.engine] fields
  /-- a data byte of a write, or the index of WRITE_REGISTER -/
  | data {i a acked later b}
    (h : i = .writeData u a (acked ++ b :: later) ∨ ∃ r bs, i = .writeRegister u a r bs ∧ r :: bs = acked ++ b :: later) :
    CompositePart u x i
      ((promptStart u).tail ++ promptWriteByte u false ++ (List.replicate acked.length (promptWriteByte u false)).flatten ++
        [.engine])
      ([.start] ++ (addrByte a false :: acked).map (fun c => .tx c false)) cmdXen [] .none
  /-- the index of READ_REGISTER -/
  | index {a r c} :
    CompositePart u x (.readRegister u a r c) ((promptStart u).tail ++ promptWriteByte u false ++ [.engine])
      [.start, .tx (addrByte a false) false] cmdXen [] (.out [])
  /-- the RESTART of READ_REGISTER -/
  | restart {a r c} :
    CompositePart u x (.readRegister u a r c)
      ((promptStart u).tail ++ promptWriteByte u false ++ promptWriteByte u false)
      [.start, .tx (addrByte a false) false, .tx r false] cmdRsen [] (.out [])
  /-- the second address byte of READ_REGISTER -/
  | secondAddress {a r c} :
    CompositePart u x (.readRegister u a r c)
      ((promptStart u).tail ++ promptWriteByte u false ++ promptWriteByte u false ++ promptRestart u ++ [.engine])
      [.start, .tx (addrByte a false) false, .tx r false, .restart] cmdXen [.engine] (.out [])
  /-- a byte of READ_DATA after the bytes `ds`; RCV keeps the last of them, or what it held -/
  | readByte {a c ds} (h : ds.length < c.toNat) (hr : ds = [] ∨ x.stat.rbf = false) :
    CompositePart u x (.readData u a c)
      ((promptStart u).tail ++ promptWriteByte u false ++ ds.flatMap (promptReadByte u) ++ [.engine])
      ([.start, .tx (addrByte a true) false] ++ ds.map (fun d => .rx d false)) cmdRcen [.engine]
      (.out (ds ++ [ds.getLastD x.rcv]))
  /-- a byte of READ_REGISTER after the bytes `ds` -/
  | readRegisterByte {a r c ds} (h : ds.length < c.toNat) (hr : ds = [] ∨ x.stat.rbf = false) :
    CompositePart u x (.readRegister u a r c)
      ((promptStart u).tail ++ promptWriteByte u false ++ promptWriteByte u false ++ promptRestart u ++
        promptWriteByte u false ++ ds.flatMap (promptReadByte u) ++ [.engine])
      ([.start, .tx (addrByte a false) false, .tx r false, .restart, .tx (addrByte a true) false] ++
        ds.map (fun d => .rx d false)) cmdRcen [.engine] (.out (ds ++ [ds.getLastD x.rcv]))

/-- The moves of a probe that is acknowledged exactly when `ack` and whose STOP times out after `n` iterations (44 R237). -/
def failedProbe (u : UnitId) (n : Nat) (ack : Bool) : List Move :=
  promptStart u ++ promptWriteByte u (!ack) ++ (if ack then [] else [.engine]) ++ List.replicate (2 + n) .engine

/-- The trace of READ_DATA's reads: every byte is acknowledged but the last (44 R234). -/
def readTrace : List Byte → List Sym
  | [] => []
  | [b] => [.rx b true]
  | b :: rest => .rx b false :: readTrace rest

end Sys2Proof.Machine
end

