-- ==== Sys2Proof/Certificates/Slice0/Obligations.lean ====
section
/-! DEFINITION. The statements of this package, from the numbered rules of spec/. Each docstring names the rules. A statement
about a command that runs over several atomic steps (00_scope R10) says that `exec` answers the state after its first step,
and then what the run of the following moves gives. -/

open Sys2Proof Sys2Proof.Machine

/-! ## The interface -/

/-- A request that decodes to an instruction runs as `exec` of it, whichever context hands it over (46 R298), and the
interrupt entry runs DISPATCH of its unit (45 R271). The step only takes the move off the agenda and records the context;
with an empty agenda the move is the free value (log 1). -/
def Obligations.StepRunsDecodedInstruction : Prop :=
  ∀ (s : State) (rest : List Move) (r : Request) (i : Instr), faultFree s → decode r = .ok i →
    (s.agenda = .host r :: rest → step s = exec i { s with agenda := rest, issuer := .polled }) ∧
    (s.agenda = .callback r :: rest → s.inCallback = true →
      step s = exec i { s with agenda := rest, issuer := .callback }) ∧
    (s.agenda = [] → step s = takeMove (Config.freeMove s.tick) { s with tick := s.tick + 1 }) ∧
    takeMove (.host r) s = exec i { s with issuer := .polled } ∧
    (∀ u, s.agenda = .isr :: rest → s.isrOp = some ⟨u, .entry⟩ →
      step s = exec (.dispatch u) { s with agenda := rest, issuer := .interrupt })

/-- Words written out from the tables of 30_encoding R102 and R104 decode to the instruction they stand for. That a command
word of the table comes with operands of zero (the NACK of READ_BYTE, capacity 0 of SCAN_BUS, speed 0 of CALC_DIVIDER, no
callback) is the model's choice, log 14 (DESIGN CHOICE): the spec's tables give those operands no bits. -/
def Obligations.TableWordsDecode : Prop :=
  decodeTableWord 16 0x0101 = some (.start .unit2) ∧
  decodeTableWord 16 0x0004 = some (.wait .unit1) ∧
  decodeTableWord 16 0x0111 = some (.readByte .unit2 false) ∧
  decodeTableWord 16 0x0024 = some (.scanBus .unit1 0) ∧
  decodeTableWord 16 0x0135 = some (.registerCallback .unit2 none) ∧
  decodeTableWord 16 0x0040 = some (.dispatch .unit1) ∧
  decodeTableWord 16 0x0036 = some (.calcDivider .unit1 0) ∧
  decodeTableWord 16 0x0005 = none ∧ decodeTableWord 16 0x0201 = none ∧
  decodeTableWord 22 0x208001 = some (.conSen .unit1 0x8001) ∧
  decodeTableWord 22 0x208003 = some (.conMulti .unit1 0x8003) ∧
  decodeTableWord 22 0x308000 = some (.conCfg .unit2 0x8000) ∧
  decodeTableWord 22 0x21FFFD = some (.statW .unit1 0xFFFD) ∧
  decodeTableWord 22 0x3F1234 = some (.rsvdW .unit2 15 0x1234) ∧
  decodeTableWord 22 0x050000 = some (.rcvR .unit1) ∧
  decodeTableWord 22 0x110000 = some (.regR .unit2 1)

/-- Decoding the encoding of a well-formed instruction gives it back, every operand at every value (30_encoding R101 to
R105). -/
def Obligations.DecodeOfEncodeIsIdentity : Prop :=
  ∀ i : Instr, i.wellFormed = true → decode (encode i) = .ok i

/-- Every 22-bit word decodes to one well-formed form, and that form encodes the word again, the DATA of a read being
ignored (30_encoding R101, R102). -/
def Obligations.RegisterWordsReencode : Prop :=
  ∀ w : BitVec 22, (decodeReg w).wellFormed = true ∧
    encode (decodeReg w) = .reg (if w.getLsbD 21 then w else w &&& 0x3F0000#22)

/-- A command word decodes exactly when Z is 0 and OP is in the opcode map, and then it selects the unit of its U bit
(30_encoding R103, R104, R112). -/
def Obligations.CommandDecoderAcceptsExactlyTheMap : Prop :=
  ∀ (w : BitVec 16) (o : OperandRecord),
    ((∃ i, decodeCmd w o = .ok i) ↔
      w.extractLsb' 9 7 = 0#7 ∧
        (w.extractLsb' 0 8).toNat ∈ [0x01, 0x02, 0x03, 0x04, 0x10, 0x11, 0x20, 0x21, 0x22, 0x23, 0x24, 0x30, 0x31, 0x32,
          0x33, 0x34, 0x35, 0x36, 0x40]) ∧
    ∀ i, decodeCmd w o = .ok i → unitOf i = unitOfBit (w.getLsbD 8)

/-- After R112 and R299: an illegal command (Z not 0, unknown OP, INIT with role 3, a list or count above MAX_LEN) is
refused in one step with ok = 0, illegal = 1 and no output; no state is written and no fault is raised. The first clause is
about a word the polled context hands over, the others about INIT and the lists in any state. That the refusal comes before
the fault of a callback (60 R325) and before the wait for a command in flight (10_state R55) is the model's choice, log 7
(DEDUCED), which the spec does not say. -/
def Obligations.IllegalCommandsChangeNothing : Prop :=
  (∀ (s : State) (rest : List Move) (w : BitVec 16) (o : OperandRecord), faultFree s →
    s.agenda = .host (.cmd w o) :: rest →
    (w.extractLsb' 9 7 ≠ 0#7 ∨
      (w.extractLsb' 0 8).toNat ∉ [0x01, 0x02, 0x03, 0x04, 0x10, 0x11, 0x20, 0x21, 0x22, 0x23, 0x24, 0x30, 0x31, 0x32,
        0x33, 0x34, 0x35, 0x36, 0x40]) →
    step s = .next { s with
      agenda := rest, issuer := .polled, out := s.out ++ [.response .polled ⟨false, true, .none⟩] }) ∧
  (∀ (s : State) (u : UnitId) (w : BitVec 64) (h : Option Handle), w.extractLsb' 0 2 = 3#2 →
    exec (.init u w h) s = .next { s with out := s.out ++ [.response s.issuer ⟨false, true, .none⟩] }) ∧
  (∀ (s : State) (m : Nat) (i : Instr) (u : UnitId) (a r : Byte) (bs : List Byte) (c : BitVec 16),
    Config.maxLen = some m →
    (m < bs.length ∧ (i = .writeData u a bs ∨ i = .writeRegister u a r bs) ∨
      m < c.toNat ∧ (i = .readData u a c ∨ i = .readRegister u a r c)) →
    exec i s = .next { s with out := s.out ++ [.response s.issuer ⟨false, true, .none⟩] })

/-- After R8, R55, R298 and R357: the polled context gets no command through while another is in flight. A class B or P
command, and a class N command of the polled context but IS_BUSY (46 R293), changes nothing but the agenda, on which the
ENGINE's next step now stands before the same command offered again. That the waiting command is held there, behind one
ENGINE step, is the model's choice, log 4 (DEDUCED): the spec says only that the host waits. That a class N command of the
polled context waits at all, GET_STATUS, GET_CONFIG and CALC_DIVIDER among them, is the model's choice too, log 5
(DEDUCED). -/
def Obligations.PolledCommandWaitsForTheEngine : Prop :=
  ∀ (s : State) (i : Instr), i.wellFormed = true → s.polledOp ≠ none →
    ((commandClass i = some .B ∨ commandClass i = some .P) ∧ s.inCallback = false ∨
      commandClass i = some .N ∧ s.issuer = .polled ∧ ∀ u, i ≠ .isBusy u) →
    exec i s = .next { s with agenda := .engine :: .host (encode i) :: s.agenda }

/-! ## Reset and invariants -/

/-- R350: the reset state, register by register and field by field. -/
def Obligations.ResetStateIsAsSpecified : Prop :=
  (∀ a : BitVec 5, memRead a State.reset = 0x0000#16) ∧
  (∀ u, (getUnit State.reset u).txsr = 0x00#8 ∧ (getUnit State.reset u).rxsr = 0x00#8 ∧
    (getUnit State.reset u).slv = .idle ∧ (getUnit State.reset u).m10 = false ∧
    (getUnit State.reset u).code = .idle ∧ (getUnit State.reset u).busy = false ∧
    (getUnit State.reset u).cfg = ⟨.master, 0, 0, false, false, false, 0, false⟩ ∧
    (getUnit State.reset u).cb = none ∧ irq (getUnit State.reset u) = false ∧
    (getUnit State.reset u).trace = [] ∧ (getUnit State.reset u).witer = 0) ∧
  State.reset.tcnt = 0#32 ∧ State.reset.polledOp = none ∧ State.reset.isrOp = none ∧
  State.reset.inCallback = false ∧ State.reset.faultMark = none

/-- The reset state meets the invariants that every step keeps and the clean-entry premises (70 R355), and it is the end of
a run exactly when the host has nothing to issue (R356), neither on the agenda nor by a later free move (log 1). -/
def Obligations.ResetMeetsTheInvariants : Prop :=
  blockInv State.reset ∧ scanOrdered State.reset ∧ cleanEntry State.reset ∧
    (runEnded State.reset ↔ ∀ n, isRequest (Config.freeMove n) = false)

/-- Every step, of any agent with any draw, keeps the invariant of the block: at most one command bit of a unit is 1
(10_state R27), ARB_LOST and SUCCESS are never recorded (60 R321), `in_callback` is 1 exactly while DISPATCH is in its
callback (R54), the counter of a running wait is not 0 (42 R192), only polled commands are in flight (R55). -/
def Obligations.StepKeepsBlockInvariant : Prop :=
  ∀ s t : State, blockInv s → step s = .next t → blockInv t

/-- Every step keeps the list of a scan in flight strictly ascending, within its capacity and within the addresses already
probed, and the address being probed within 1 to 126 (44 R237). -/
def Obligations.StepKeepsScanOrder : Prop :=
  ∀ s t : State, scanOrdered s → step s = .next t → scanOrdered t

/-- An instruction on one unit, an environment event of one bus, the ENGINE's step for the command of one unit, and the
ISR's steps (taking an interrupt, every step of the DISPATCH of one unit, the return of its callback) leave the other unit's
registers and Per-Unit State as they are (60 R338, 20_memory R71). -/
def Obligations.OtherUnitIsUntouched : Prop :=
  ∀ (s t : State) (w : UnitId),
    (∀ i, exec i s = .next t → w ≠ unitOf i → getUnit t w = getUnit s w) ∧
    (∀ u e, w ≠ u → getUnit (busEvent u e s) w = getUnit s w) ∧
    (∀ f, s.polledOp = some f → w ≠ unitOf f.cmd → getUnit (engineStep s) w = getUnit s w) ∧
    (∀ u, getUnit (takeInterrupt u s) w = getUnit s w) ∧
    (∀ f, s.isrOp = some f → w ≠ f.unit → isrStep s = .next t → getUnit t w = getUnit s w) ∧
    getUnit (callbackReturn s) w = getUnit s w

/-- A step that changes a stored configuration is INIT's store of the configuration it was given, for its own unit (10_state
R49, R51). -/
def Obligations.OnlyInitStoresTheConfiguration : Prop :=
  ∀ (s t : State) (u : UnitId), step s = .next t → (getUnit t u).cfg ≠ (getUnit s u).cfg →
    ∃ f c h, s.polledOp = some f ∧ unitOf f.cmd = u ∧ f.pos = .initStore c h ∧
      (getUnit t u).cfg = c ∧ (getUnit t u).cb = h

/-! ## Register accesses -/

/-- The configuration part of every CON write (40 R131), with its frame: each field takes its bit, MODE 0b11 keeps the
role, and nothing outside CON, STAT, SIF, SLV, M10 and TXSR of the unit changes. -/
def Obligations.ConWriteStoresConfiguration : Prop :=
  ∀ (u : UnitId) (v : Word) (s : State), ∀ i ∈ conForms u v, ∃ y : BusUnit,
    exec i s = .next (onUnit u (fun x => { x with
      con := y.con, stat := y.stat, sif := y.sif, slv := y.slv, m10 := y.m10, txsr := y.txsr }) s) ∧
    y.con.en = v.getLsbD 15 ∧ y.con.sie = v.getLsbD 13 ∧ y.con.slw = v.getLsbD 9 ∧ y.con.smen = v.getLsbD 8 ∧
    y.con.gcen = v.getLsbD 7 ∧ y.con.ackdt = v.getLsbD 5 ∧
    (v.extractLsb' 11 2 ≠ 0b11#2 → roleBits y.con.mode = v.extractLsb' 11 2) ∧
    (v.extractLsb' 11 2 = 0b11#2 → y.con.mode = (getUnit s u).con.mode)

/-- R133 for every form of a CON write: the command bits written 1 that are not already 1 are refused with IWCOL when they
are two or more, when a command is pending, or when BCL is set; otherwise exactly they become pending, and XEN loads TXSR
from TRN (R138). A write that also clears EN sees no command pending and no flag set (R132). -/
def Obligations.ConWriteCommandAcceptance : Prop :=
  ∀ (u : UnitId) (v : Word) (s : State), ∀ i ∈ conForms u v, ∃ t, exec i s = .next t ∧
    let x := getUnit s u
    let y := getUnit t u
    let off := x.con.en && !v.getLsbD 15
    let cmd := if off then 0#5 else x.con.cmd
    let stat := if off then Stat.zero else x.stat
    let new := v.extractLsb' 0 5 &&& ~~~cmd
    (new = 0#5 → y.con.cmd = cmd ∧ y.stat = stat ∧ y.txsr = x.txsr) ∧
    (new ≠ 0#5 → (2 ≤ popcount5 new ∨ cmd ≠ 0#5 ∨ stat.bcl = true) →
      y.con.cmd = cmd ∧ y.stat = { stat with iwcol := true } ∧ y.txsr = x.txsr) ∧
    (new ≠ 0#5 → popcount5 new ≤ 1 → cmd = 0#5 → stat.bcl = false →
      y.con.cmd = new ∧ y.stat = stat ∧ y.txsr = if new = cmdXen then x.trn else x.txsr)

/-- Disable (40 R132): a CON write that changes EN from 1 to 0 clears SIF, SLV and M10, and leaves no flag but IWCOL; a
write that does not leaves SIF, SLV and M10 as they were. -/
def Obligations.DisableClearsTheUnit : Prop :=
  ∀ (u : UnitId) (v : Word) (s : State), ∀ i ∈ conForms u v, ∃ t, exec i s = .next t ∧
    let x := getUnit s u
    let y := getUnit t u
    (x.con.en = true → v.getLsbD 15 = false →
      y.sif = false ∧ y.slv = .idle ∧ y.m10 = false ∧ statWord y.stat &&& 0xFFF7#16 = 0x0000#16 ∧
        y.trn = x.trn ∧ y.rcv = x.rcv ∧ y.add = x.add ∧ y.brg = x.brg ∧ y.rxsr = x.rxsr ∧ y.trace = x.trace) ∧
    (x.con.en = false ∨ v.getLsbD 15 = true → y.sif = x.sif ∧ y.slv = x.slv ∧ y.m10 = x.m10)

/-- R134 to R138: on an enabled or disabled unit with nothing pending and BCL clear, each command form of a CON write that
does not clear EN makes exactly its bit pending, and XEN loads TXSR. -/
def Obligations.CommandFormsStartTheOperation : Prop :=
  ∀ (u : UnitId) (v : Word) (s : State), (getUnit s u).con.cmd = 0#5 → (getUnit s u).stat.bcl = false →
    ((getUnit s u).con.en = true → v.getLsbD 15 = true) →
    (∀ i b, (i, b) ∈ [(Instr.conSen u v, cmdSen), (.conRsen u v, cmdRsen), (.conPen u v, cmdPen), (.conRcen u v, cmdRcen)] →
      i.wellFormed = true →
      ∃ t, exec i s = .next t ∧ (getUnit t u).con.cmd = b ∧ pending (getUnit t u) = true ∧
        (getUnit t u).stat = (getUnit s u).stat ∧ (getUnit t u).txsr = (getUnit s u).txsr ∧
        (getUnit t u).con.ackdt = v.getLsbD 5) ∧
    ((Instr.conXen u v).wellFormed = true →
      ∃ t, exec (.conXen u v) s = .next t ∧ (getUnit t u).con.cmd = cmdXen ∧ pending (getUnit t u) = true ∧
        (getUnit t u).stat = (getUnit s u).stat ∧ (getUnit t u).txsr = (getUnit s u).trn)

/-- R139: a STAT write clears exactly the R/C flags written 0, sets none, leaves ACKSTAT, RBF, GCSTAT and RW, and changes
nothing else. -/
def Obligations.StatWriteOnlyClears : Prop :=
  ∀ (u : UnitId) (v : Word) (s : State), ∃ st : Stat,
    exec (.statW u v) s = .next (onUnit u (fun x => { x with stat := st }) s) ∧
    statWord st = statWord (getUnit s u).stat &&& (v ||| 0x0341#16)

/-- R140, R141 and R144: ADD takes the low ten bits, BRG the whole word without a range check, IFS its bit 0; nothing
else changes. -/
def Obligations.PlainRegisterWrites : Prop :=
  ∀ (u : UnitId) (v : Word) (s : State),
    (∃ a, exec (.addW u v) s = .next (onUnit u (fun x => { x with add := a }) s) ∧ a.setWidth 16 = v &&& 0x03FF#16) ∧
    exec (.brgW u v) s = .next (onUnit u (fun x => { x with brg := v }) s) ∧
    (∃ b, exec (.ifsW u v) s = .next (onUnit u (fun x => { x with sif := b }) s) ∧
      (BitVec.ofBool b).setWidth 16 = v &&& 0x0001#16)

/-- R142: a TRN write is refused with IWCOL, TRN unchanged, while XEN is pending or BCL is set, and otherwise stores the
low byte; TXSR is not changed and nothing else is. -/
def Obligations.TransmitRegisterWrite : Prop :=
  ∀ (u : UnitId) (v : Word) (s : State),
    ((getUnit s u).con.cmd.getLsbD 4 = true ∨ (getUnit s u).stat.bcl = true →
      exec (.trnW u v) s = .next (onUnit u (fun x => { x with stat := { x.stat with iwcol := true } }) s)) ∧
    ((getUnit s u).con.cmd.getLsbD 4 = false → (getUnit s u).stat.bcl = false →
      ∃ b : Byte, exec (.trnW u v) s = .next (onUnit u (fun x => { x with trn := b }) s) ∧ b.setWidth 16 = v &&& 0x00FF#16)

/-- R143, R145, R146: writes to RCV, ESTAT and the reserved offsets are ignored, and a read of a reserved offset returns
0x0000 with no effect. -/
def Obligations.IgnoredWritesAndReservedReads : Prop :=
  ∀ (u : UnitId) (v : Word) (off : BitVec 4) (s : State),
    exec (.rcvW u v) s = .next s ∧ exec (.estatW u v) s = .next s ∧
    (0x8#4 ≤ off → exec (.rsvdW u off v) s = .next s ∧
      exec (.rsvdR u off) s = .next { s with out := s.out ++ [.readValue 0x0000#16] })

/-- R147: a read of CON, STAT, ADD, BRG, TRN, IFS or ESTAT returns the register with its fields at their bits (10_state R22,
R29, R43) and the reserved bits 0, the role and the status code by their numbers (R22, R47), and changes nothing but what
the host is handed. -/
def Obligations.RegisterReadReturnsTheFields : Prop :=
  ∀ (u : UnitId) (off : BitVec 4) (s : State), (Instr.regR u off).wellFormed = true → ∃ r : Word,
    exec (.regR u off) s = .next { s with out := s.out ++ [.readValue r] } ∧
    let x := getUnit s u
    (off = 0x0#4 → r.getLsbD 15 = x.con.en ∧ r.getLsbD 13 = x.con.sie ∧ (x.con.mode, r.extractLsb' 11 2) ∈ roleTable ∧
      r.getLsbD 9 = x.con.slw ∧ r.getLsbD 8 = x.con.smen ∧ r.getLsbD 7 = x.con.gcen ∧ r.getLsbD 5 = x.con.ackdt ∧
      r.extractLsb' 0 5 = x.con.cmd ∧ r &&& 0x4440#16 = 0#16) ∧
    (off = 0x1#4 → r.getLsbD 9 = x.stat.rw ∧ r.getLsbD 8 = x.stat.gcstat ∧ r.getLsbD 7 = x.stat.treq ∧
      r.getLsbD 6 = x.stat.rbf ∧ r.getLsbD 5 = x.stat.pdet ∧ r.getLsbD 4 = x.stat.sdet ∧ r.getLsbD 3 = x.stat.iwcol ∧
      r.getLsbD 2 = x.stat.ov ∧ r.getLsbD 1 = x.stat.bcl ∧ r.getLsbD 0 = x.stat.ackstat ∧ r &&& 0xFC00#16 = 0#16) ∧
    (off = 0x2#4 → r.toNat = x.add.toNat) ∧ (off = 0x3#4 → r = x.brg) ∧ (off = 0x4#4 → r.toNat = x.trn.toNat) ∧
    (off = 0x6#4 → r = if x.sif then 1#16 else 0#16) ∧
    (off = 0x7#4 → ∃ n : BitVec 4, r.toNat = (if x.busy then 16 else 0) + n.toNat ∧ (x.code, n) ∈ codeTable)

/-- R148: a read of RCV returns the byte, clears RBF whether or not it was set, and changes nothing else: OV among the
rest stays. -/
def Obligations.ReceiveReadClearsFull : Prop :=
  ∀ (u : UnitId) (s : State), ∃ r : Word, r.toNat = (getUnit s u).rcv.toNat ∧
    exec (.rcvR u) s = .next { onUnit u (fun x => { x with stat := { x.stat with rbf := false } }) s with
      out := s.out ++ [.readValue r] }

/-- The frame of every register write, over the whole register space: a write to one register leaves every register of
both units as it reads but that one, STAT when it is a write of CON or TRN (IWCOL, Disable), and IFS when it is a write of
CON (Disable); and it leaves the block's own state and the Per-Unit State (20_memory R78, 40 R130). -/
def Obligations.RegisterWriteFrame : Prop :=
  ∀ (u : UnitId) (v : Word) (o : BitVec 4) (s : State), ∀ f ∈ writeForms u v o, ∃ t, exec f.1 s = .next t ∧
    (∀ a : BitVec 5,
      ¬ (unitOfBit (a.getLsbD 4) = u ∧
        (a.extractLsb' 0 4 = f.2 ∨ a.extractLsb' 0 4 = 0x1#4 ∧ (f.2 = 0x0#4 ∨ f.2 = 0x4#4) ∨
          a.extractLsb' 0 4 = 0x6#4 ∧ f.2 = 0x0#4)) →
      memRead a t = memRead a s) ∧
    t.tcnt = s.tcnt ∧ t.polledOp = s.polledOp ∧ t.isrOp = s.isrOp ∧ t.inCallback = s.inCallback ∧
    t.faultMark = s.faultMark ∧ t.out = s.out ∧
    ∀ w, (getUnit t w).code = (getUnit s w).code ∧ (getUnit t w).busy = (getUnit s w).busy ∧
      (getUnit t w).cfg = (getUnit s w).cfg ∧ (getUnit t w).cb = (getUnit s w).cb ∧
      (getUnit t w).rxsr = (getUnit s w).rxsr ∧ (getUnit t w).trace = (getUnit s w).trace ∧
      (getUnit t w).witer = (getUnit s w).witer

/-! ## Environment events -/

/-- R150 to R154: each completion of the command in flight clears its bit and appends its symbol; DONE_XEN samples the
acknowledge bit, DONE_RCEN receives the byte, or overruns when RBF is set, and emits ACKDT either way. -/
def Obligations.MasterEventsCompleteTheCommand : Prop :=
  ∀ (u : UnitId) (s : State) (rest : List Move), faultFree s → (getUnit s u).con.en = true →
    (∀ e b y, (e, b, y) ∈ [(BusEvent.doneSen, cmdSen, Sym.start), (.doneRsen, cmdRsen, .restart), (.donePen, cmdPen, .stop)] →
      (getUnit s u).con.cmd &&& b ≠ 0#5 → s.agenda = .bus u e :: rest →
      step s = .next (onUnit u (fun x => { x with
        con := { x.con with cmd := x.con.cmd &&& ~~~b }, trace := x.trace ++ [y] }) { s with agenda := rest })) ∧
    (∀ a, (getUnit s u).con.cmd &&& cmdXen ≠ 0#5 → s.agenda = .bus u (.doneXen a) :: rest →
      step s = .next (onUnit u (fun x => { x with
        con := { x.con with cmd := x.con.cmd &&& ~~~cmdXen }, stat := { x.stat with ackstat := a },
        trace := x.trace ++ [.tx x.txsr a] }) { s with agenda := rest })) ∧
    (∀ b, (getUnit s u).con.cmd &&& cmdRcen ≠ 0#5 → s.agenda = .bus u (.doneRcen b) :: rest →
      step s = .next (onUnit u (fun x => { x with
        con := { x.con with cmd := x.con.cmd &&& ~~~cmdRcen }, rxsr := b,
        rcv := if x.stat.rbf then x.rcv else b,
        stat := { x.stat with rbf := true, ov := x.stat.ov || x.stat.rbf },
        trace := x.trace ++ [.rx b x.con.ackdt] }) { s with agenda := rest }))

/-- R155: COLLIDE sets BCL, aborts the command in flight and appends COL; nothing else changes, ACKSTAT, RCV, RBF and TXSR
among the rest. While BCL is set a CON write accepts no command bit and a TRN write stores nothing (R133, R142). -/
def Obligations.CollisionAbortsTheCommand : Prop :=
  ∀ (u : UnitId) (s : State) (rest : List Move), faultFree s →
    ((getUnit s u).con.en = true → (getUnit s u).con.cmd ≠ 0#5 → s.agenda = .bus u .collide :: rest →
      step s = .next (onUnit u (fun x => { x with
        con := { x.con with cmd := 0#5 }, stat := { x.stat with bcl := true }, trace := x.trace ++ [.col] })
        { s with agenda := rest })) ∧
    ((getUnit s u).stat.bcl = true → ∀ (v : Word), v.getLsbD 15 = true →
      (∀ i ∈ conForms u v, ∃ t, exec i s = .next t ∧ (getUnit t u).con.cmd = (getUnit s u).con.cmd ∧
        (getUnit t u).stat.bcl = true) ∧
      ∃ t, exec (.trnW u v) s = .next t ∧ (getUnit t u).trn = (getUnit s u).trn ∧ (getUnit t u).stat.bcl = true)

/-- After R149, R159, R260 and R264 to R269: while EN is 0 no event of the bus happens; a master event needs its command
bit, COLLIDE some command bit; no slave event happens in the master role, no byte reaches the unit while SLV is IDLE or
READ, and none is clocked out of it unless SLV is READ. The spec says that such an event is not enabled; that the move of
one is a step that changes nothing but the agenda is the model's choice, log 2 (DESIGN CHOICE). -/
def Obligations.EventsNeedTheirCondition : Prop :=
  ∀ (u : UnitId) (e : BusEvent) (s : State) (rest : List Move), faultFree s → s.agenda = .bus u e :: rest →
    ((getUnit s u).con.en = false ∨
      (e = .doneSen ∧ (getUnit s u).con.cmd.getLsbD 0 = false) ∨ (e = .doneRsen ∧ (getUnit s u).con.cmd.getLsbD 1 = false) ∨
      (e = .donePen ∧ (getUnit s u).con.cmd.getLsbD 2 = false) ∨
      ((∃ b, e = .doneRcen b) ∧ (getUnit s u).con.cmd.getLsbD 3 = false) ∨
      ((∃ a, e = .doneXen a) ∧ (getUnit s u).con.cmd.getLsbD 4 = false) ∨
      (e = .collide ∧ (getUnit s u).con.cmd = 0#5) ∨
      (isSlaveEvent e = true ∧ (getUnit s u).con.mode = .master) ∨
      ((∃ b, e = .sRxByte b) ∧ ((getUnit s u).slv = .idle ∨ (getUnit s u).slv = .read)) ∨
      ((∃ a, e = .sTx a) ∧ (getUnit s u).slv ≠ .read)) →
    step s = .next { s with agenda := rest }

/-- R262 and R263: what S_START and S_STOP do in every address phase. -/
def Obligations.SlaveStartAndStop : Prop :=
  ∀ (u : UnitId) (s : State) (rest : List Move), slaveReady u s →
    (∀ r, s.agenda = .bus u (.sStart r) :: rest →
      step s = .next (onUnit u (fun x => { x with
        slv := .awaitAddr, m10 := if r then x.m10 else false, stat := { x.stat with sdet := true }, sif := true,
        trace := x.trace ++ [.sStart] }) { s with agenda := rest })) ∧
    (s.agenda = .bus u .sStop :: rest →
      step s = .next (onUnit u (fun x => { x with
        slv := .idle, m10 := false, stat := { x.stat with pdet := true }, sif := true,
        trace := x.trace ++ [.sStop] }) { s with agenda := rest }))

/-- R264 and R265: the address byte in the 7-bit role. The own address is compared before the general call; an unmatched
byte is not acknowledged. -/
def Obligations.SevenBitAddressByte : Prop :=
  ∀ (u : UnitId) (b : Byte) (s : State) (rest : List Move), slaveReady u s → (getUnit s u).slv = .awaitAddr →
    (getUnit s u).con.mode = .slave7 → s.agenda = .bus u (.sRxByte b) :: rest →
    let x := getUnit s u
    let s' := { s with agenda := rest }
    let own := b.toNat / 2 = x.add.toNat % 128
    (own → b.toNat % 2 = 0 → step s = .next (onUnit u (fun x => { x with
      rxsr := b, slv := .write, stat := { x.stat with rw := false, gcstat := false },
      trace := x.trace ++ [.sRx b false] }) s')) ∧
    (own → b.toNat % 2 = 1 → step s = .next (onUnit u (fun x => { x with
      rxsr := b, slv := .read, stat := { x.stat with rw := true, gcstat := false, treq := true }, sif := true,
      trace := x.trace ++ [.sRx b false] }) s')) ∧
    (¬ own → b = 0x00#8 ∧ x.con.gcen = true → step s = .next (onUnit u (fun x => { x with
      rxsr := b, slv := .write, stat := { x.stat with rw := false, gcstat := true },
      trace := x.trace ++ [.sRx b false] }) s')) ∧
    (¬ own → ¬ (b = 0x00#8 ∧ x.con.gcen = true) → step s = .next (onUnit u (fun x => { x with
      rxsr := b, slv := .idle, trace := x.trace ++ [.sRx b true] }) s'))

/-- R266, R267 and R265: the two address bytes in the 10-bit role. -/
def Obligations.TenBitAddressBytes : Prop :=
  ∀ (u : UnitId) (b : Byte) (s : State) (rest : List Move), slaveReady u s → s.agenda = .bus u (.sRxByte b) :: rest →
    let x := getUnit s u
    let s' := { s with agenda := rest }
    let high := b.toNat / 2 = 0b1111000 + x.add.toNat / 256
    ((getUnit s u).slv = .awaitAddr → x.con.mode = .slave10 →
      (high → b.toNat % 2 = 0 → step s = .next (onUnit u (fun x => { x with
        rxsr := b, slv := .hi10, trace := x.trace ++ [.sRx b false] }) s')) ∧
      (high → b.toNat % 2 = 1 → x.m10 = true → step s = .next (onUnit u (fun x => { x with
        rxsr := b, slv := .read, stat := { x.stat with rw := true, gcstat := false, treq := true }, sif := true,
        trace := x.trace ++ [.sRx b false] }) s')) ∧
      (b = 0x00#8 → x.con.gcen = true → step s = .next (onUnit u (fun x => { x with
        rxsr := b, slv := .write, stat := { x.stat with rw := false, gcstat := true },
        trace := x.trace ++ [.sRx b false] }) s')) ∧
      (¬ (high ∧ (b.toNat % 2 = 0 ∨ x.m10 = true)) → ¬ (b = 0x00#8 ∧ x.con.gcen = true) →
        step s = .next (onUnit u (fun x => { x with
          rxsr := b, slv := .idle, m10 := false, trace := x.trace ++ [.sRx b true] }) s'))) ∧
    ((getUnit s u).slv = .hi10 →
      (b.toNat = x.add.toNat % 256 → step s = .next (onUnit u (fun x => { x with
        rxsr := b, slv := .write, m10 := true, stat := { x.stat with rw := false, gcstat := false },
        trace := x.trace ++ [.sRx b false] }) s')) ∧
      (b.toNat ≠ x.add.toNat % 256 → step s = .next (onUnit u (fun x => { x with
        rxsr := b, slv := .idle, m10 := false, trace := x.trace ++ [.sRx b true] }) s')))

/-- R268: a data byte is stored and acknowledged when RBF is 0, and otherwise lost, refused and an overrun; SIF is set and
SLV stays WRITE either way. -/
def Obligations.SlaveDataByte : Prop :=
  ∀ (u : UnitId) (b : Byte) (s : State) (rest : List Move), slaveReady u s → (getUnit s u).slv = .write →
    s.agenda = .bus u (.sRxByte b) :: rest →
    ((getUnit s u).stat.rbf = false → step s = .next (onUnit u (fun x => { x with
      rxsr := b, rcv := b, stat := { x.stat with rbf := true }, sif := true,
      trace := x.trace ++ [.sRx b false] }) { s with agenda := rest })) ∧
    ((getUnit s u).stat.rbf = true → step s = .next (onUnit u (fun x => { x with
      rxsr := b, stat := { x.stat with ov := true }, sif := true,
      trace := x.trace ++ [.sRx b true] }) { s with agenda := rest }))

/-- R269: the byte sent is TRN at that step; an ACK requests another byte, a NACK ends the transfer. -/
def Obligations.SlaveTransmitByte : Prop :=
  ∀ (u : UnitId) (s : State) (rest : List Move), slaveReady u s → (getUnit s u).slv = .read →
    (s.agenda = .bus u (.sTx false) :: rest → step s = .next (onUnit u (fun x => { x with
      txsr := x.trn, stat := { x.stat with treq := true }, sif := true,
      trace := x.trace ++ [.sTx x.trn false] }) { s with agenda := rest })) ∧
    (s.agenda = .bus u (.sTx true) :: rest → step s = .next (onUnit u (fun x => { x with
      txsr := x.trn, slv := .idle, trace := x.trace ++ [.sTx x.trn true] }) { s with agenda := rest }))

/-- R323: a slave event that could happen, on a unit with a command pending or with a class B command in flight, sets the
fault mark and does nothing else. -/
def Obligations.SlaveEventDuringMasterFaults : Prop :=
  ∀ (u : UnitId) (e : BusEvent) (s : State) (rest : List Move), faultFree s → s.agenda = .bus u e :: rest →
    slaveEnabled e (getUnit s u) = true → (pending (getUnit s u) = true ∨ masterBusy u s = true) →
    step s = .next { s with agenda := rest, faultMark := some .slaveDuringMaster }

/-- R322: once the fault mark is set no agent takes a step, and raising a second fault keeps the first reason. -/
def Obligations.FaultStopsEveryAgent : Prop :=
  ∀ (s : State) (f g : Fault), s.faultMark = some f → step s = .fault f ∧ raise g s = s

/-! ## Interrupts -/

/-- After R270, R324, R331, R332: taking an interrupt needs SIF and SIE and no DISPATCH in flight; it changes only `isr_op`;
it is a fault while a class B command runs on the unit. The last clause, that the move of an interrupt that is not
requested is a step that changes nothing but the agenda, is the model's choice, log 2 (DESIGN CHOICE): the spec says only
that such an interrupt is not taken. -/
def Obligations.InterruptEntry : Prop :=
  ∀ (u : UnitId) (s : State) (rest : List Move), faultFree s → s.agenda = .takeIrq u :: rest →
    (((getUnit s u).sif = true ∧ (getUnit s u).con.sie = true ∧ s.isrOp = none → masterBusy u s = false →
      step s = .next { s with agenda := rest, isrOp := some ⟨u, .entry⟩ })) ∧
    ((getUnit s u).sif = true ∧ (getUnit s u).con.sie = true ∧ s.isrOp = none → masterBusy u s = true →
      step s = .next { s with agenda := rest, faultMark := some .dispatchDuringMaster }) ∧
    (¬ ((getUnit s u).sif = true ∧ (getUnit s u).con.sie = true ∧ s.isrOp = none) →
      step s = .next { s with agenda := rest })

/-- R271: DISPATCH from the interrupt entry first clears SIF; with a callback registered it reports the first of START,
STOP, BYTE_RECEIVED and BYTE_REQUESTED whose flag is set, clears that flag alone, invokes the callback once with the event,
and returns the event when the callback returns. -/
def Obligations.DispatchReportsOneEventByPriority : Prop :=
  ∀ (u : UnitId) (h : Handle) (s : State) (rest : List Move), faultFree s → s.issuer = .interrupt →
    s.isrOp = some ⟨u, .entry⟩ → (getUnit s u).cb = some h → s.agenda = .isr :: .isr :: .callbackReturn :: rest →
    ∃ t, exec (.dispatch u) s = .next t ∧ t.isrOp = some ⟨u, .select⟩ ∧ (getUnit t u).sif = false ∧
    let st := (getUnit s u).stat
    let done : Event → Stat → State := fun e st' =>
      { onUnit u (fun x => { x with sif := false, stat := st' }) s with
        isrOp := none, inCallback := false, agenda := rest,
        out := s.out ++ [.invoked u h e, .response .interrupt ⟨true, false, .event (some e)⟩] }
    (st.sdet = true → core.run 3 t = .next (done ⟨.start, 0x00⟩ { st with sdet := false })) ∧
    (st.sdet = false → st.pdet = true → core.run 3 t = .next (done ⟨.stop, 0x00⟩ { st with pdet := false })) ∧
    (st.sdet = false → st.pdet = false → st.rbf = true →
      core.run 3 t = .next (done ⟨.byteReceived, (getUnit s u).rcv⟩ { st with rbf := false })) ∧
    (st.sdet = false → st.pdet = false → st.rbf = false → st.treq = true →
      core.run 3 t = .next (done ⟨.byteRequested, 0x00⟩ { st with treq := false }))

/-- R273, and R271 with no flag set: DISPATCH clears SIF and does nothing else: no event flag is cleared, RCV is not read
and no callback is invoked. -/
def Obligations.DispatchWithNothingToReport : Prop :=
  ∀ (u : UnitId) (s : State) (rest : List Move), faultFree s → s.issuer = .interrupt → s.isrOp = some ⟨u, .entry⟩ →
    s.agenda = .isr :: rest →
    ((getUnit s u).cb = none ∨ (getUnit s u).stat.sdet = false ∧ (getUnit s u).stat.pdet = false ∧
      (getUnit s u).stat.rbf = false ∧ (getUnit s u).stat.treq = false) →
    ∃ t, exec (.dispatch u) s = .next t ∧
      core.run 1 t = .next { onUnit u (fun x => { x with sif := false }) s with
        isrOp := none, inCallback := false, agenda := rest,
        out := s.out ++ [.response .interrupt ⟨true, false, .event none⟩] }

/-- R326: DISPATCH issued from the polled context or from a callback sets the fault mark and does nothing else. -/
def Obligations.DispatchOutsideTheInterruptFaults : Prop :=
  ∀ (u : UnitId) (s : State), s.faultMark = none → s.issuer ≠ .interrupt →
    exec (.dispatch u) s = .next { s with faultMark := some .dispatchContext }

/-- R325: a class B or P command while a callback runs, on either unit, sets the fault mark and does nothing else, and a
class N command raises no fault there (45 R272) and leaves the callback running; what it does from a callback is said for
each class N command by the statements about it. -/
def Obligations.BlockingCommandInCallbackFaults : Prop :=
  ∀ (i : Instr) (s : State), s.faultMark = none → s.inCallback = true →
    (i.wellFormed = true → (commandClass i = some .B ∨ commandClass i = some .P) →
      exec i s = .next { s with faultMark := some .blockingInCallback }) ∧
    (commandClass i = some .N → ∃ t, exec i s = .next t ∧ t.faultMark = none ∧ t.inCallback = true)

/-! ## Timing Calculator, control -/

/-- R180 to R184: CALC_DIVIDER, from a callback or with no command in flight (R8), returns `floor(FCY_HZ / (2 s)) - 2` when that lies in 2 to 65535, the nearest bound when it
does not, and 65535 for speed 0; it writes no state. -/
def Obligations.DividerIsExactOrClamped : Prop :=
  ∀ (u : UnitId) (speed : BitVec 32) (s : State), mayIssue s → ∃ d : Word,
    exec (.calcDivider u speed) s = .next { s with out := s.out ++ [.response s.issuer ⟨true, false, .div16 d⟩] } ∧
    2 ≤ d.toNat ∧ d.toNat ≤ 65535 ∧
    (speed = 0#32 → d.toNat = 65535) ∧
    (speed ≠ 0#32 →
      let q := (Config.fcyHz : Nat) / (2 * speed.toNat)
      (4 ≤ q → q ≤ 65537 → d.toNat + 2 = q) ∧ (q < 4 → d.toNat = 2) ∧ (65537 < q → d.toNat = 65535))

/-- R290: INIT disables the unit, stores the configuration and the callback, writes BRG, ADD and CON, and leaves code IDLE,
busy 0, SIF 0; the six steps in a row give CON enabled with the configured fields, no command pending and ACKDT 0. On a
disabled unit that had accepted a command bit INIT does not abort it: the bit is still pending when INIT enables the unit,
and so the command starts then (70 R362). The two presets are instances (30_encoding R107). -/
def Obligations.InitConfiguresTheUnit : Prop :=
  ∀ (u : UnitId) (w : BitVec 64) (h : Option Handle) (s : State) (rest : List Move), faultFree s → engineFree s →
    w.extractLsb' 0 2 ≠ 3#2 → s.agenda = List.replicate 5 .engine ++ rest →
    let kept := if (getUnit s u).con.en then 0#5 else (getUnit s u).con.cmd
    ∃ t, exec (.init u w h) s = .next t ∧ (getUnit t u).con = ⟨false, false, .master, false, false, false, false, kept⟩ ∧
    ∃ c : Configuration, wordOfConfig c = w ∧
      core.run 5 t = .next
        { onUnit u (fun x => { x with
            con := ⟨true, c.ie, c.role, c.slew, c.smen, c.gc, false, kept⟩,
            stat := if x.con.en then Stat.zero else x.stat, add := c.ownAddr,
            brg := BitVec.ofNat 16 (divider Config.fcyHz c.speedHz.toNat), sif := false,
            slv := if x.con.en then .idle else x.slv, m10 := if x.con.en then false else x.m10,
            code := .idle, busy := false, cfg := c, cb := h }) s with
          agenda := rest, out := s.out ++ [.response .polled ⟨true, false, .none⟩] }

/-- R292: CLEAR_ERRORS, from a callback (also in the middle of a transaction of the other unit, 70 R365) or with no command
in flight (R8), sets code IDLE and busy 0 and returns ok = 1; no register, no pending command and no flag changes. -/
def Obligations.ClearErrorsTouchesBookkeepingOnly : Prop :=
  ∀ (u : UnitId) (s : State), mayIssue s → exec (.clearErrors u) s =
    .next { onUnit u (fun x => { x with code := .idle, busy := false }) s with
      out := s.out ++ [.response s.issuer ⟨true, false, .none⟩] }

/-- R293, R294, R295 and R297: IS_BUSY in any state, and GET_STATUS and GET_CONFIG from a callback or with no command in
flight (R8), return the busy flag, the status code by its number (10_state R47) and the stored configuration, its role by
its number (30_encoding R106), with the callback, and write no state. -/
def Obligations.AccessorsReadAndWriteNothing : Prop :=
  ∀ (u : UnitId) (s : State),
    exec (.isBusy u) s = .next { s with
      out := s.out ++ [.response s.issuer ⟨true, false, .busy (getUnit s u).busy⟩] } ∧
    (mayIssue s → ∃ n : BitVec 4, exec (.getStatus u) s = .next { s with
        out := s.out ++ [.response s.issuer ⟨true, false, .code4 n⟩] } ∧ ((getUnit s u).code, n) ∈ codeTable) ∧
    (mayIssue s → ∃ w : BitVec 64, exec (.getConfig u) s = .next { s with
        out := s.out ++ [.response s.issuer ⟨true, false, .config w (getUnit s u).cb⟩] } ∧
      let c := (getUnit s u).cfg
      w.extractLsb' 32 32 = c.speedHz ∧ w.extractLsb' 16 16 = c.timeoutMs ∧ w.extractLsb' 6 10 = c.ownAddr ∧
      w.getLsbD 5 = c.ie ∧ w.getLsbD 4 = c.smen ∧ w.getLsbD 3 = c.slew ∧ w.getLsbD 2 = c.gc ∧
      (c.role, w.extractLsb' 0 2) ∈ roleTable)

/-- R296: REGISTER_CALLBACK, from a callback or with no command in flight (R8), replaces the callback of the unit, the last
registration winning, and nothing else. -/
def Obligations.RegisterCallbackReplaces : Prop :=
  ∀ (u : UnitId) (h : Option Handle) (s : State), mayIssue s → exec (.registerCallback u h) s =
    .next { onUnit u (fun x => { x with cb := h }) s with
      out := s.out ++ [.response s.issuer ⟨true, false, .none⟩] }

/-! ## Conditions and the wait primitive -/

/-- R197: START on a busy unit fails at once: ok = 0, code BUSY, no wait iteration, no register written, the busy flag
stays. The same first step makes every composite but a scan fail so, without a STOP and with no byte read (44 R231). -/
def Obligations.StartOnBusyUnitFails : Prop :=
  ∀ (u : UnitId) (s : State), engineFree s → (getUnit s u).busy = true →
    ∀ (i : Instr) (out : OutputFields), i.wellFormed = true →
      (i = .start u ∧ out = .none ∨ (∃ a bs, i = .writeData u a bs) ∧ out = .none ∨
        (∃ a r bs, i = .writeRegister u a r bs) ∧ out = .none ∨ (∃ a c, i = .readData u a c) ∧ out = .out [] ∨
        (∃ a r c, i = .readRegister u a r c) ∧ out = .out []) →
      exec i s = .next { onUnit u (fun x => { x with code := .busy }) s with
        out := s.out ++ [.response .polled ⟨false, false, out⟩] }

/-- R196: START on a free unit claims it in its first step; on a prompt bus it returns ok = 1 after one wait iteration, with
busy 1, the code unchanged and `S` on the trace, and nothing else changed. Its SEN write is an ordinary CON write (20_memory
R79, 40 R133): with BCL set, or another command pending, it is refused with IWCOL while the wait runs on, which then fails at
once with BUS_COLLISION, or with TIMEOUT on a silent bus, the unit released; with SEN itself already pending it is not
refused, and the wait is for the earlier START (70 R360). -/
def Obligations.StartClaimsAndSucceeds : Prop :=
  ∀ (u : UnitId) (s : State) (rest : List Move), faultFree s → engineFree s → (getUnit s u).busy = false →
    (getUnit s u).cfg.timeoutMs ≠ 0#16 →
    let n := waitBudget (getUnit s u)
    (masterReady u s → s.agenda = promptCommand u .doneSen ++ rest →
      ∃ t, exec (.start u) s = .next t ∧ (getUnit t u).busy = true ∧
        core.run 4 t = .next
          { onUnit u (fun x => { x with busy := true, trace := x.trace ++ [.start], witer := x.witer + 1 }) s with
            tcnt := BitVec.ofNat 32 n, agenda := rest, out := s.out ++ [.response .polled ⟨true, false, .none⟩] }) ∧
    ((getUnit s u).con.cmd.getLsbD 0 = false → (getUnit s u).stat.bcl = true → s.agenda = List.replicate 4 .engine ++ rest →
      ∃ t, exec (.start u) s = .next t ∧ core.run 4 t = .next
        { onUnit u (fun x => { x with
            stat := { x.stat with iwcol := true }, code := .busCollision, witer := x.witer + 1 }) s with
          tcnt := BitVec.ofNat 32 n, agenda := rest, out := s.out ++ [.response .polled ⟨false, false, .none⟩] }) ∧
    ((getUnit s u).con.cmd.getLsbD 0 = false → (getUnit s u).con.cmd ≠ 0#5 → (getUnit s u).stat.bcl = false →
      (getUnit s u).stat.ov = false → s.agenda = List.replicate (3 + n) .engine ++ rest →
      ∃ t, exec (.start u) s = .next t ∧ core.run (3 + n) t = .next
        { onUnit u (fun x => { x with
            stat := { x.stat with iwcol := true }, code := .timeout, witer := x.witer + n }) s with
          tcnt := 0#32, agenda := rest, out := s.out ++ [.response .polled ⟨false, false, .none⟩] }) ∧
    ((getUnit s u).con.en = true → (getUnit s u).con.cmd = cmdSen → (getUnit s u).stat.bcl = false →
      (getUnit s u).stat.ov = false → s.agenda = promptCommand u .doneSen ++ rest →
      ∃ t, exec (.start u) s = .next t ∧ core.run 4 t = .next
        { onUnit u (fun x => { x with
            con := { x.con with cmd := 0#5 }, busy := true, trace := x.trace ++ [.start], witer := x.witer + 1 }) s with
          tcnt := BitVec.ofNat 32 n, agenda := rest, out := s.out ++ [.response .polled ⟨true, false, .none⟩] })

/-- R198 and R201: RESTART sets RSEN in its first step and on a prompt bus returns ok = 1 with `Sr` on the trace, the busy
flag neither read nor written; WAIT with nothing pending loads the counter and returns ok = 1 after one iteration. With BCL
set, or another command pending, the RSEN write is refused with IWCOL (20_memory R79, 40 R133) while the wait runs on, which
then fails at once with BUS_COLLISION, or with TIMEOUT on a silent bus. -/
def Obligations.RestartAndWaitSucceed : Prop :=
  ∀ (u : UnitId) (s : State) (rest : List Move), faultFree s → engineFree s → (getUnit s u).cfg.timeoutMs ≠ 0#16 →
    let n := waitBudget (getUnit s u)
    (masterReady u s → s.agenda = [.bus u .doneRsen, .engine, .engine] ++ rest →
      ∃ t, exec (.restart u) s = .next t ∧ (getUnit t u).con.cmd = cmdRsen ∧
        core.run 3 t = .next
          { onUnit u (fun x => { x with trace := x.trace ++ [.restart], witer := x.witer + 1 }) s with
            tcnt := BitVec.ofNat 32 n, agenda := rest, out := s.out ++ [.response .polled ⟨true, false, .none⟩] }) ∧
    (masterReady u s → s.agenda = .engine :: rest →
      ∃ t, exec (.wait u) s = .next t ∧ t.tcnt = BitVec.ofNat 32 n ∧
        core.run 1 t = .next
          { onUnit u (fun x => { x with witer := x.witer + 1 }) s with
            tcnt := BitVec.ofNat 32 n, agenda := rest, out := s.out ++ [.response .polled ⟨true, false, .none⟩] }) ∧
    ((getUnit s u).con.cmd.getLsbD 1 = false → (getUnit s u).stat.bcl = true → s.agenda = List.replicate 2 .engine ++ rest →
      ∃ t, exec (.restart u) s = .next t ∧ core.run 2 t = .next
        { onUnit u (fun x => { x with
            stat := { x.stat with iwcol := true }, code := .busCollision, witer := x.witer + 1 }) s with
          tcnt := BitVec.ofNat 32 n, agenda := rest, out := s.out ++ [.response .polled ⟨false, false, .none⟩] }) ∧
    ((getUnit s u).con.cmd.getLsbD 1 = false → (getUnit s u).con.cmd ≠ 0#5 → (getUnit s u).stat.bcl = false →
      (getUnit s u).stat.ov = false → s.agenda = List.replicate (1 + n) .engine ++ rest →
      ∃ t, exec (.restart u) s = .next t ∧ core.run (1 + n) t = .next
        { onUnit u (fun x => { x with
            stat := { x.stat with iwcol := true }, code := .timeout, witer := x.witer + n }) s with
          tcnt := 0#32, agenda := rest, out := s.out ++ [.response .polled ⟨false, false, .none⟩] })

/-- R199: STOP sets PEN in its first step; on a prompt bus it returns ok = 1 with busy 0, code IDLE and `P` on the trace,
whether or not the busy flag was set. With BCL set, or another command pending, the PEN write is refused with IWCOL
(20_memory R79, 40 R133) while the wait runs on: it fails at once with BUS_COLLISION, or with TIMEOUT on a silent bus, the
busy flag kept; and when an older START or RESTART completes in it, STOP returns ok = 1 and releases the unit although no
STOP was sent (70 R360). -/
def Obligations.StopReleasesTheUnit : Prop :=
  ∀ (u : UnitId) (s : State) (rest : List Move), faultFree s → engineFree s → (getUnit s u).cfg.timeoutMs ≠ 0#16 →
    let n := waitBudget (getUnit s u)
    (masterReady u s → s.agenda = [.bus u .donePen, .engine, .engine, .engine] ++ rest →
      ∃ t, exec (.stop u) s = .next t ∧ (getUnit t u).con.cmd = cmdPen ∧
        core.run 4 t = .next
          { onUnit u (fun x => { x with
              busy := false, code := .idle, trace := x.trace ++ [.stop], witer := x.witer + 1 }) s with
            tcnt := BitVec.ofNat 32 n, agenda := rest, out := s.out ++ [.response .polled ⟨true, false, .none⟩] }) ∧
    ((getUnit s u).con.cmd.getLsbD 2 = false → (getUnit s u).stat.bcl = true → s.agenda = List.replicate 2 .engine ++ rest →
      ∃ t, exec (.stop u) s = .next t ∧ core.run 2 t = .next
        { onUnit u (fun x => { x with
            stat := { x.stat with iwcol := true }, code := .busCollision, witer := x.witer + 1 }) s with
          tcnt := BitVec.ofNat 32 n, agenda := rest, out := s.out ++ [.response .polled ⟨false, false, .none⟩] }) ∧
    ((getUnit s u).con.cmd.getLsbD 2 = false → (getUnit s u).con.cmd ≠ 0#5 → (getUnit s u).stat.bcl = false →
      (getUnit s u).stat.ov = false →
      (s.agenda = List.replicate (1 + n) .engine ++ rest → ∃ t, exec (.stop u) s = .next t ∧ core.run (1 + n) t = .next
        { onUnit u (fun x => { x with
            stat := { x.stat with iwcol := true }, code := .timeout, witer := x.witer + n }) s with
          tcnt := 0#32, agenda := rest, out := s.out ++ [.response .polled ⟨false, false, .none⟩] }) ∧
      ∀ e b y, (e, b, y) ∈ [(BusEvent.doneSen, cmdSen, Sym.start), (.doneRsen, cmdRsen, .restart)] →
        (getUnit s u).con.en = true → (getUnit s u).con.cmd = b →
        s.agenda = [.bus u e, .engine, .engine, .engine] ++ rest →
        ∃ t, exec (.stop u) s = .next t ∧ core.run 4 t = .next
          { onUnit u (fun x => { x with
              con := { x.con with cmd := 0#5 }, stat := { x.stat with iwcol := true }, busy := false, code := .idle,
              trace := x.trace ++ [y], witer := x.witer + 1 }) s with
            tcnt := BitVec.ofNat 32 n, agenda := rest, out := s.out ++ [.response .polled ⟨true, false, .none⟩] })

/-- R192 and R195, for the wait of every primitive: an iteration reports a collision first, whatever OV, the pending bits
and the counter are, then an overrun, then success when nothing is pending; it clears no flag and cancels no command (R194).
After a failed wait START releases the busy flag (R196), STOP keeps it (R199), RESTART and WAIT return, WRITE_BYTE returns
without looking at ACKSTAT (43 R215), and READ_BYTE returns what RCV holds and clears RBF (43 R217, R218). After a
successful one START, RESTART and WAIT return, STOP clears the busy flag and records IDLE, WRITE_BYTE records DATA_NACK and
fails when ACKSTAT is 1, and READ_BYTE returns RCV and clears RBF. -/
def Obligations.WaitIterationChecksErrorsFirst : Prop :=
  ∀ (u : UnitId) (d : Byte) (ack : Bool) (s : State) (rest : List Move), faultFree s → ∀ f ∈ waitForms u d ack,
    s.polledOp = some ⟨f.1, .waitLoop f.2.1, f.2.2⟩ →
    let x := getUnit s u
    let failed : Code → State := fun c =>
      { onUnit u (fun x => { x with
          code := c, busy := if f.2.1 = .start then false else x.busy,
          stat := if f.2.1 = .readByte then { x.stat with rbf := false } else x.stat, witer := x.witer + 1 }) s with
        agenda := rest, polledOp := none,
        out := s.out ++ [.response .polled ⟨false, false, if f.2.1 = .readByte then .byte8 x.rcv else .none⟩] }
    let refused := decide (f.2.1 = .writeByte) && x.stat.ackstat
    (s.agenda = List.replicate (1 + stepsAfterWait f.2.1 false) .engine ++ rest →
      (x.stat.bcl = true → core.run (1 + stepsAfterWait f.2.1 false) s = .next (failed .busCollision)) ∧
      (x.stat.bcl = false → x.stat.ov = true →
        core.run (1 + stepsAfterWait f.2.1 false) s = .next (failed .rxOverrun))) ∧
    (s.agenda = List.replicate (1 + stepsAfterWait f.2.1 true) .engine ++ rest →
      x.stat.bcl = false → x.stat.ov = false → x.con.cmd = 0#5 →
      core.run (1 + stepsAfterWait f.2.1 true) s = .next
        { onUnit u (fun x => { x with
            code := if f.2.1 = .stop then .idle else if refused then .dataNack else x.code,
            busy := if f.2.1 = .stop then false else x.busy,
            stat := if f.2.1 = .readByte then { x.stat with rbf := false } else x.stat, witer := x.witer + 1 }) s with
          agenda := rest, polledOp := none,
          out := s.out ++ [.response .polled ⟨!refused, false, if f.2.1 = .readByte then .byte8 x.rcv else .none⟩] })

/-- R193 and R194, for the wait of every primitive: with a command pending, no error flag and no event of the bus, a wait
loaded with n iterations fails with TIMEOUT at the n-th, and the command stays pending. START then releases the busy flag
(R196), STOP keeps it (R199, 70 R366), WRITE_BYTE fails whatever ACKSTAT is (43 R215), and READ_BYTE returns the byte RCV
held before and clears RBF (43 R218). -/
def Obligations.WaitTimesOutAfterItsCount : Prop :=
  ∀ (u : UnitId) (d : Byte) (ack : Bool) (s : State) (n : Nat) (rest : List Move), faultFree s →
    ∀ f ∈ waitForms u d ack, s.polledOp = some ⟨f.1, .waitLoop f.2.1, f.2.2⟩ →
    (getUnit s u).stat.bcl = false → (getUnit s u).stat.ov = false → (getUnit s u).con.cmd ≠ 0#5 →
    s.tcnt.toNat = n → 0 < n → s.agenda = List.replicate (n + stepsAfterWait f.2.1 false) .engine ++ rest →
    core.run (n + stepsAfterWait f.2.1 false) s = .next
      { onUnit u (fun x => { x with
          code := .timeout, busy := if f.2.1 = .start then false else x.busy,
          stat := if f.2.1 = .readByte then { x.stat with rbf := false } else x.stat, witer := x.witer + n }) s with
        tcnt := 0#32, polledOp := none, agenda := rest,
        out := s.out ++ [.response .polled
          ⟨false, false, if f.2.1 = .readByte then .byte8 (getUnit s u).rcv else .none⟩] }

/-- R191: the load is `min(timeout_ms * TICKS_PER_MS, 2^32 - 1)`, and a configured timeout of 0 makes the wait fail at
once with TIMEOUT and no iteration. -/
def Obligations.CounterLoadSaturatesAndZeroTimesOut : Prop :=
  ∀ (u : UnitId) (s : State), engineFree s →
    ((getUnit s u).cfg.timeoutMs ≠ 0#16 → ∃ t, exec (.wait u) s = .next t ∧
      t.tcnt.toNat = min ((getUnit s u).cfg.timeoutMs.toNat * Config.ticksPerMs) (2 ^ 32 - 1) ∧ t.tcnt ≠ 0#32 ∧
      t.polledOp = some ⟨.wait u, .waitLoop .alone, .alone⟩ ∧ getUnit t u = getUnit s u) ∧
    ((getUnit s u).cfg.timeoutMs = 0#16 → exec (.wait u) s = .next
      { onUnit u (fun x => { x with code := .timeout }) s with
        tcnt := 0#32, out := s.out ++ [.response .polled ⟨false, false, .none⟩] })

/-! ## Bytes and transactions -/

/-- R215 and R216: WRITE_BYTE loads TRN in its first step; on a prompt bus the byte is on the trace with the sampled
acknowledge either way, and a NACK gives ok = 0 and code DATA_NACK, an ACK ok = 1 and the code unchanged. Its writes are
ordinary register writes (20_memory R79, 40 R133, R142). With BCL set both are refused with IWCOL, TRN keeps its byte, and
the wait fails at once with BUS_COLLISION. With XEN already pending the TRN write is refused and the XEN write is not new:
the wait and the check of ACKSTAT are those of the earlier byte. With another command pending TRN takes the byte, the XEN
write is refused, and on a silent bus the wait fails with TIMEOUT. -/
def Obligations.WriteByteSendsAndChecksTheAcknowledge : Prop :=
  ∀ (u : UnitId) (d : Byte) (a : Bool) (s : State) (rest : List Move), faultFree s → engineFree s →
    (getUnit s u).cfg.timeoutMs ≠ 0#16 →
    let n := waitBudget (getUnit s u)
    (masterReady u s → s.agenda = promptCommand u (.doneXen a) ++ [.engine] ++ rest →
      ∃ t, exec (.writeByte u d) s = .next t ∧ (getUnit t u).trn = d ∧
        core.run 5 t = .next
          { onUnit u (fun x => { x with
              trn := d, txsr := d, stat := { x.stat with ackstat := a }, code := if a then .dataNack else x.code,
              trace := x.trace ++ [.tx d a], witer := x.witer + 1 }) s with
            tcnt := BitVec.ofNat 32 n, agenda := rest, out := s.out ++ [.response .polled ⟨!a, false, .none⟩] }) ∧
    ((getUnit s u).con.cmd.getLsbD 4 = false → (getUnit s u).stat.bcl = true → s.agenda = List.replicate 3 .engine ++ rest →
      ∃ t, exec (.writeByte u d) s = .next t ∧ (getUnit t u).trn = (getUnit s u).trn ∧ core.run 3 t = .next
        { onUnit u (fun x => { x with
            stat := { x.stat with iwcol := true }, code := .busCollision, witer := x.witer + 1 }) s with
          tcnt := BitVec.ofNat 32 n, agenda := rest, out := s.out ++ [.response .polled ⟨false, false, .none⟩] }) ∧
    ((getUnit s u).con.en = true → (getUnit s u).con.cmd = cmdXen → (getUnit s u).stat.bcl = false →
      (getUnit s u).stat.ov = false → s.agenda = promptCommand u (.doneXen a) ++ [.engine] ++ rest →
      ∃ t, exec (.writeByte u d) s = .next t ∧ core.run 5 t = .next
        { onUnit u (fun x => { x with
            con := { x.con with cmd := 0#5 }, stat := { x.stat with iwcol := true, ackstat := a },
            code := if a then .dataNack else x.code, trace := x.trace ++ [.tx x.txsr a], witer := x.witer + 1 }) s with
          tcnt := BitVec.ofNat 32 n, agenda := rest, out := s.out ++ [.response .polled ⟨!a, false, .none⟩] }) ∧
    ((getUnit s u).con.cmd.getLsbD 4 = false → (getUnit s u).con.cmd ≠ 0#5 → (getUnit s u).stat.bcl = false →
      (getUnit s u).stat.ov = false → s.agenda = List.replicate (2 + n) .engine ++ rest →
      ∃ t, exec (.writeByte u d) s = .next t ∧ core.run (2 + n) t = .next
        { onUnit u (fun x => { x with
            trn := d, stat := { x.stat with iwcol := true }, code := .timeout, witer := x.witer + n }) s with
          tcnt := 0#32, agenda := rest, out := s.out ++ [.response .polled ⟨false, false, .none⟩] })

/-- R217 and R218: READ_BYTE sets ACKDT in its first step; on a prompt bus it returns the received byte with ok = 1 and the
chosen acknowledge on the trace; with an unread byte in RCV it overruns, and returns that byte with ok = 0 and code
RX_OVERRUN. RBF ends 0 either way. With BCL set, or another command pending, ACKDT is set but the RCEN write is refused with
IWCOL (20_memory R79, 40 R133) while the wait runs on, which fails at once with BUS_COLLISION, or with TIMEOUT on a silent
bus; the byte RCV holds is returned with ok = 0. -/
def Obligations.ReadByteReceivesAndAcknowledges : Prop :=
  ∀ (u : UnitId) (ack : Bool) (b : Byte) (s : State) (rest : List Move), faultFree s → engineFree s →
    (getUnit s u).cfg.timeoutMs ≠ 0#16 →
    let n := waitBudget (getUnit s u)
    (masterReady u s → s.agenda = promptCommand u (.doneRcen b) ++ [.engine] ++ rest →
      ∃ t, exec (.readByte u ack) s = .next t ∧ (getUnit t u).con.ackdt = !ack ∧
        ((getUnit s u).stat.rbf = false → core.run 5 t = .next
          { onUnit u (fun x => { x with
              con := { x.con with ackdt := !ack }, rxsr := b, rcv := b,
              trace := x.trace ++ [.rx b (!ack)], witer := x.witer + 1 }) s with
            tcnt := BitVec.ofNat 32 n, agenda := rest,
            out := s.out ++ [.response .polled ⟨true, false, .byte8 b⟩] }) ∧
        ((getUnit s u).stat.rbf = true → core.run 5 t = .next
          { onUnit u (fun x => { x with
              con := { x.con with ackdt := !ack }, rxsr := b, stat := { x.stat with ov := true, rbf := false },
              code := .rxOverrun, trace := x.trace ++ [.rx b (!ack)], witer := x.witer + 1 }) s with
            tcnt := BitVec.ofNat 32 n, agenda := rest,
            out := s.out ++ [.response .polled ⟨false, false, .byte8 (getUnit s u).rcv⟩] })) ∧
    ((getUnit s u).con.cmd.getLsbD 3 = false → (getUnit s u).stat.bcl = true → s.agenda = List.replicate 4 .engine ++ rest →
      ∃ t, exec (.readByte u ack) s = .next t ∧ core.run 4 t = .next
        { onUnit u (fun x => { x with
            con := { x.con with ackdt := !ack }, stat := { x.stat with iwcol := true, rbf := false },
            code := .busCollision, witer := x.witer + 1 }) s with
          tcnt := BitVec.ofNat 32 n, agenda := rest,
          out := s.out ++ [.response .polled ⟨false, false, .byte8 (getUnit s u).rcv⟩] }) ∧
    ((getUnit s u).con.cmd.getLsbD 3 = false → (getUnit s u).con.cmd ≠ 0#5 → (getUnit s u).stat.bcl = false →
      (getUnit s u).stat.ov = false → s.agenda = List.replicate (3 + n) .engine ++ rest →
      ∃ t, exec (.readByte u ack) s = .next t ∧ core.run (3 + n) t = .next
        { onUnit u (fun x => { x with
            con := { x.con with ackdt := !ack }, stat := { x.stat with iwcol := true, rbf := false },
            code := .timeout, witer := x.witer + n }) s with
          tcnt := 0#32, agenda := rest,
          out := s.out ++ [.response .polled ⟨false, false, .byte8 (getUnit s u).rcv⟩] })

/-- R233 and R235: WRITE_DATA of any list, on a prompt bus that acknowledges every byte, puts START, the write address
byte, the bytes in order and STOP on the trace and returns ok = 1 with busy 0 and code IDLE; WRITE_REGISTER does the same
with the index before the bytes. When only the final STOP fails, its ok is the command's (R231): ok = 0, busy 1. The address
byte of device a and direction d is 2 (a mod 128) + d (30_encoding R111). -/
def Obligations.WriteTransactionsSendEveryByte : Prop :=
  (∀ (a : Byte) (d : Bool), (addrByte a d).toNat = 2 * (a.toNat % 128) + if d then 1 else 0) ∧
  ∀ (u : UnitId) (a : Byte) (bs sent : List Byte) (i : Instr) (s : State) (rest : List Move), masterReady u s →
    (getUnit s u).busy = false → i.wellFormed = true →
    (i = .writeData u a bs ∧ sent = bs ∨ ∃ r, i = .writeRegister u a r bs ∧ sent = r :: bs) →
    (s.agenda = (promptWriteData u sent.length).tail ++ rest →
      ∃ t, exec i s = .next t ∧ (getUnit t u).busy = true ∧
        core.run ((promptWriteData u sent.length).length - 1) t = .next
          { onUnit u (fun x => { x with
              trn := (addrByte a false :: sent).getLastD 0, txsr := (addrByte a false :: sent).getLastD 0,
              stat := { x.stat with ackstat := false }, busy := false, code := .idle,
              trace := x.trace ++ [.start] ++ (addrByte a false :: sent).map (fun b => .tx b false) ++ [.stop],
              witer := x.witer + sent.length + 3 }) s with
            tcnt := BitVec.ofNat 32 (waitBudget (getUnit s u)), agenda := rest,
            out := s.out ++ [.response .polled ⟨true, false, .none⟩] }) ∧
    ∀ more, s.agenda = (promptStart u).tail ++ promptWriteByte u false ++
        (List.replicate sent.length (promptWriteByte u false)).flatten ++ more →
      ∃ t m, exec i s = .next t ∧ core.run (10 + 6 * sent.length) t = .next m ∧ (getUnit m u).busy = true ∧
        (getUnit m u).code = (getUnit s u).code ∧ (getUnit m u).trace = (getUnit s u).trace ++ [.start] ++
          (addrByte a false :: sent).map (fun b => .tx b false) ∧ m.out = s.out ∧ stopTimesOut u .none m more

/-- R234: READ_DATA of any count, on a prompt bus, returns the received bytes in order; every byte but the last is
acknowledged and the last is answered with NACK, exactly once. When only the final STOP fails, its ok is the command's
(R231): ok = 0 with every byte in OUT, busy 1. -/
def Obligations.ReadDataAcknowledgesAllButTheLast : Prop :=
  ∀ (u : UnitId) (a : Byte) (ds : List Byte) (s : State) (rest : List Move), masterReady u s →
    (getUnit s u).busy = false → (getUnit s u).stat.rbf = false → ds.length < 65536 →
    (Instr.readData u a (BitVec.ofNat 16 ds.length)).wellFormed = true →
    (s.agenda = (promptReadData u ds).tail ++ rest →
      ∃ t, exec (.readData u a (BitVec.ofNat 16 ds.length)) s = .next t ∧ (getUnit t u).busy = true ∧
        core.run ((promptReadData u ds).length - 1) t = .next
          { onUnit u (fun x => { x with
              con := { x.con with ackdt := x.con.ackdt || !ds.isEmpty },
              trn := addrByte a true, txsr := addrByte a true, rxsr := ds.getLastD x.rxsr, rcv := ds.getLastD x.rcv,
              stat := { x.stat with ackstat := false }, busy := false, code := .idle,
              trace := x.trace ++ [.start, .tx (addrByte a true) false] ++ readTrace ds ++ [.stop],
              witer := x.witer + ds.length + 3 }) s with
            tcnt := BitVec.ofNat 32 (waitBudget (getUnit s u)), agenda := rest,
            out := s.out ++ [.response .polled ⟨true, false, .out ds⟩] }) ∧
    ∀ more, s.agenda = (promptStart u).tail ++ promptWriteByte u false ++ ds.flatMap (promptReadByte u) ++ more →
      ∃ t m, exec (.readData u a (BitVec.ofNat 16 ds.length)) s = .next t ∧
        core.run (10 + 6 * ds.length) t = .next m ∧ (getUnit m u).busy = true ∧
        (getUnit m u).code = (getUnit s u).code ∧
        (getUnit m u).trace = (getUnit s u).trace ++ [.start, .tx (addrByte a true) false] ++ readTrace ds ∧
        m.out = s.out ∧ stopTimesOut u (.out ds) m more

/-- R236: READ_REGISTER, on a prompt bus that acknowledges, sends the write address byte and the index, a REPEATED START,
the read address byte, and reads as READ_DATA does. When only the final STOP fails, its ok is the command's (R231): ok = 0
with every byte in OUT, busy 1. -/
def Obligations.ReadRegisterCombinesWriteAndRead : Prop :=
  ∀ (u : UnitId) (a r : Byte) (ds : List Byte) (s : State) (rest : List Move), masterReady u s →
    (getUnit s u).busy = false → (getUnit s u).stat.rbf = false → ds.length < 65536 →
    (Instr.readRegister u a r (BitVec.ofNat 16 ds.length)).wellFormed = true →
    (s.agenda = (promptReadRegister u ds).tail ++ rest →
      ∃ t, exec (.readRegister u a r (BitVec.ofNat 16 ds.length)) s = .next t ∧ (getUnit t u).busy = true ∧
        core.run ((promptReadRegister u ds).length - 1) t = .next
          { onUnit u (fun x => { x with
              con := { x.con with ackdt := x.con.ackdt || !ds.isEmpty },
              trn := addrByte a true, txsr := addrByte a true, rxsr := ds.getLastD x.rxsr, rcv := ds.getLastD x.rcv,
              stat := { x.stat with ackstat := false }, busy := false, code := .idle,
              trace := x.trace ++ [.start, .tx (addrByte a false) false, .tx r false, .restart,
                .tx (addrByte a true) false] ++ readTrace ds ++ [.stop],
              witer := x.witer + ds.length + 6 }) s with
            tcnt := BitVec.ofNat 32 (waitBudget (getUnit s u)), agenda := rest,
            out := s.out ++ [.response .polled ⟨true, false, .out ds⟩] }) ∧
    ∀ more, s.agenda = (promptStart u).tail ++ promptWriteByte u false ++ promptWriteByte u false ++ promptRestart u ++
        promptWriteByte u false ++ ds.flatMap (promptReadByte u) ++ more →
      ∃ t m, exec (.readRegister u a r (BitVec.ofNat 16 ds.length)) s = .next t ∧
        core.run (26 + 6 * ds.length) t = .next m ∧ (getUnit m u).busy = true ∧
        (getUnit m u).code = (getUnit s u).code ∧
        (getUnit m u).trace = (getUnit s u).trace ++ [.start, .tx (addrByte a false) false, .tx r false, .restart,
          .tx (addrByte a true) false] ++ readTrace ds ∧ m.out = s.out ∧ stopTimesOut u (.out ds) m more

/-- R240: on a bus whose device acknowledges every byte and, on the read, returns the bytes written to it in order, a
WRITE_DATA followed by a READ_DATA of as many bytes from the same address answers ok = 1 twice, and the second answer's OUT
is the list written. -/
def Obligations.WriteThenReadReturnsTheBytes : Prop :=
  ∀ (u : UnitId) (a : Byte) (bs : List Byte) (s : State) (rest : List Move), masterReady u s →
    (getUnit s u).busy = false → (getUnit s u).stat.rbf = false → bs.length < 65536 →
    (Instr.writeData u a bs).wellFormed = true → (Instr.readData u a (BitVec.ofNat 16 bs.length)).wellFormed = true →
    s.agenda = .host (encode (.writeData u a bs)) :: (promptWriteData u bs.length).tail ++
      .host (encode (.readData u a (BitVec.ofNat 16 bs.length))) :: (promptReadData u bs).tail ++ rest →
    ∃ t, core.run ((promptWriteData u bs.length).length + (promptReadData u bs).length) s = .next t ∧
      t.out = s.out ++
        [.response .polled ⟨true, false, .none⟩, .response .polled ⟨true, false, .out bs⟩] ∧
      (getUnit t u).trace = (getUnit s u).trace ++
        ([.start] ++ (addrByte a false :: bs).map (fun b => .tx b false) ++ [.stop]) ++
        ([.start, .tx (addrByte a true) false] ++ readTrace bs ++ [.stop]) ∧ t.agenda = rest

/-- R237: SCAN_BUS, on a prompt bus on which any set of addresses answers, probes 1 to 126 in order, each with START, the
write address byte and STOP, lists the answering addresses ascending up to its capacity, and returns whether any answered.
On a busy unit every START fails with BUSY, and the scan goes on to 126 and finds nothing. After a probe of address p whose
STOP fails the unit stays busy, so every later START fails with BUSY, the scan goes on to 126, and FOUND holds what answered
up to p (70 R366). -/
def Obligations.ScanListsTheAnsweringAddresses : Prop :=
  ∀ (u : UnitId) (m : Byte) (present : BitVec 7 → Bool) (s : State) (rest : List Move),
    (masterReady u s → (getUnit s u).busy = false → s.agenda = (promptScan u present).tail ++ rest →
      ∃ t, exec (.scanBus u m) s = .next t ∧ (getUnit t u).busy = true ∧
        core.run ((promptScan u present).length - 1) t = .next
          { onUnit u (fun x => { x with
              trn := addrByte 126 false, txsr := addrByte 126 false, stat := { x.stat with ackstat := !present 126 },
              busy := false, code := .idle,
              trace := x.trace ++ scanAddresses.flatMap (fun a =>
                [.start, .tx (addrByte (a.setWidth 8) false) (!present a), .stop]),
              witer := x.witer + 378 }) s with
            tcnt := BitVec.ofNat 32 (waitBudget (getUnit s u)), agenda := rest,
            out := s.out ++ [.response .polled
              ⟨scanAddresses.any present, false, .found ((scanAddresses.filter present).take m.toNat)⟩] }) ∧
    (faultFree s → engineFree s → (getUnit s u).busy = true → s.agenda = List.replicate 125 .engine ++ rest →
      ∃ t, exec (.scanBus u m) s = .next t ∧ core.run 125 t = .next
        { onUnit u (fun x => { x with code := .busy }) s with
          agenda := rest, out := s.out ++ [.response .polled ⟨false, false, .found []⟩] }) ∧
    ∀ p : Nat, p < 126 → masterReady u s → (getUnit s u).busy = false →
      let probed := scanAddresses.take p
      let a := BitVec.ofNat 7 (p + 1)
      let moves := probed.flatMap (fun b => promptProbe u (present b)) ++
        failedProbe u (waitBudget (getUnit s u)) (present a) ++ List.replicate (125 - p) .engine
      s.agenda = moves.tail ++ rest →
      ∃ t t', exec (.scanBus u m) s = .next t ∧ core.run (moves.length - 1) t = .next t' ∧
        (getUnit t' u).trace = (getUnit s u).trace ++
          probed.flatMap (fun b => [.start, .tx (addrByte (b.setWidth 8) false) (!present b), .stop]) ++
          [.start, .tx (addrByte (a.setWidth 8) false) (!present a)] ∧
        (getUnit t' u).busy = true ∧ (getUnit t' u).code = (if p = 125 then .timeout else .busy) ∧
        (getUnit t' u).con.cmd = cmdPen ∧ t'.polledOp = none ∧ t'.agenda = rest ∧
        t'.out = s.out ++ [.response .polled ⟨(probed ++ [a]).any present, false,
          .found (((probed ++ [a]).filter present).take m.toNat)⟩]

/-- R231, R232, R235 to R239: a composite whose address byte is refused records ADDR_NACK, sends no further byte, reads
none, issues exactly one STOP and returns ok = 0 whatever that STOP gives: when it succeeds the code ends IDLE and busy 0,
when it times out the code ends TIMEOUT and busy stays 1 with PEN pending. A refused data or index byte of a write, or
index byte of READ_REGISTER, records DATA_NACK and ends the composite there in the same way, and so does the refused second
address byte of READ_REGISTER, with ADDR_NACK. A START whose wait fails ends a composite with no STOP and the unit released.
Any later part whose wait fails, by a collision or on a silent bus, ends it there: the code stays that of the wait, an
address byte's too (R232), the byte of a failed READ_BYTE is the last element of OUT (R234), and the STOP is issued but
refused with IWCOL. -/
def Obligations.RefusedByteEndsTheWriteWithOneStop : Prop :=
  ∀ (u : UnitId) (a : Byte) (i : Instr) (s : State) (more : List Move), masterReady u s →
    (getUnit s u).busy = false → i.wellFormed = true →
    (∀ (read : Bool) (fields : OutputFields), isComposite u a i read fields →
      s.agenda = (promptStart u).tail ++ promptWriteByte u true ++ [.engine] ++ more →
      ∃ t m, exec i s = .next t ∧ core.run 11 t = .next m ∧ (getUnit m u).code = .addrNack ∧
        (getUnit m u).trace = (getUnit s u).trace ++ [.start, .tx (addrByte a read) true] ∧
        (getUnit m u).witer = (getUnit s u).witer + 2 ∧ m.out = s.out ∧ failsByOneStop u fields m more) ∧
    (∀ (acked later sent : List Byte) (b : Byte), sent = acked ++ b :: later →
      (i = .writeData u a sent ∨ ∃ r bs, i = .writeRegister u a r bs ∧ sent = r :: bs) →
      s.agenda = (promptStart u).tail ++ promptWriteByte u false ++
        (List.replicate acked.length (promptWriteByte u false)).flatten ++ promptWriteByte u true ++ more →
      ∃ t m, exec i s = .next t ∧ core.run (16 + 6 * acked.length) t = .next m ∧ (getUnit m u).code = .dataNack ∧
        (getUnit m u).trace = (getUnit s u).trace ++ [.start] ++
          (addrByte a false :: acked).map (fun c => .tx c false) ++ [.tx b true] ∧
        (getUnit m u).witer = (getUnit s u).witer + acked.length + 3 ∧ m.out = s.out ∧ failsByOneStop u .none m more) ∧
    (∀ (r : Byte) (c : BitVec 16), i = .readRegister u a r c →
      (s.agenda = (promptStart u).tail ++ promptWriteByte u false ++ promptWriteByte u true ++ more →
        ∃ t m, exec i s = .next t ∧ core.run 16 t = .next m ∧ (getUnit m u).code = .dataNack ∧
          (getUnit m u).trace = (getUnit s u).trace ++ [.start, .tx (addrByte a false) false, .tx r true] ∧
          (getUnit m u).witer = (getUnit s u).witer + 3 ∧ m.out = s.out ∧ failsByOneStop u (.out []) m more) ∧
      (s.agenda = (promptStart u).tail ++ promptWriteByte u false ++ promptWriteByte u false ++ promptRestart u ++
          promptWriteByte u true ++ [.engine] ++ more →
        ∃ t m, exec i s = .next t ∧ core.run 27 t = .next m ∧ (getUnit m u).code = .addrNack ∧
          (getUnit m u).trace = (getUnit s u).trace ++
            [.start, .tx (addrByte a false) false, .tx r false, .restart, .tx (addrByte a true) true] ∧
          (getUnit m u).witer = (getUnit s u).witer + 5 ∧ m.out = s.out ∧ failsByOneStop u (.out []) m more)) ∧
    (∀ (read collides : Bool) (fields : OutputFields), isComposite u a i read fields →
      let moves := failingCommand u (waitBudget (getUnit s u)) collides ++ [.engine]
      s.agenda = moves ++ more →
      ∃ t t', exec i s = .next t ∧ core.run moves.length t = .next t' ∧
        (getUnit t' u).trace = (getUnit s u).trace ++ (if collides then [.col] else []) ∧
        (getUnit t' u).busy = false ∧ (getUnit t' u).code = failingCode collides ∧
        (getUnit t' u).con.cmd = (if collides then 0#5 else cmdSen) ∧
        (getUnit t' u).stat.iwcol = (getUnit s u).stat.iwcol ∧ t'.polledOp = none ∧ t'.agenda = more ∧
        t'.out = s.out ++ [.response .polled ⟨false, false, fields⟩]) ∧
    ∀ (collides : Bool) (before : List Move) (sent : List Sym) (bit : BitVec 5) (after : List Move) (fields : OutputFields),
      CompositePart u (getUnit s u) i before sent bit after fields →
      let moves := before ++ failingCommand u (waitBudget (getUnit s u)) collides ++ after
      s.agenda = moves ++ more →
      ∃ t m, exec i s = .next t ∧ core.run moves.length t = .next m ∧
        (getUnit m u).trace = (getUnit s u).trace ++ sent ++ (if collides then [.col] else []) ∧ m.out = s.out ∧
        failsByRefusedStop u bit collides fields m more

/-- After R327 and R370: whatever the state of the buses, a polled command in flight returns after finitely many ENGINE
steps. Only the ENGINE moves in the runs of this statement (log 1), which stands for the weak fairness R370 asks for, and
that the command has returned is said by `polled_op` being NONE again (10_state R53), no response being named. -/
def Obligations.EngineAlwaysFinishes : Prop :=
  ∀ s : State, faultFree s → ∃ n t,
    core.run n { s with agenda := List.replicate n .engine } = .next t ∧ t.polledOp = none ∧ t.faultMark = none
end

