-- ==== Sys2Proof/Laws/Decode.lean ====
section
/-! SUPPORT. The decoder and the encoder by fields: the parts of an encoded word, and the table of 30_encoding R102 read by
write bit, offset and data. -/

namespace Sys2Proof.Machine

/-- A concatenation is equal part by part. -/
theorem append_eq_append {n m : Nat} (a c : BitVec n) (b d : BitVec m) : a ++ b = c ++ d ↔ a = c ∧ b = d := by
  constructor
  · intro h
    refine ⟨?_, ?_⟩
    · have := congrArg (BitVec.extractLsb' m n) h
      simpa only [BitVec.extractLsb'_append_eq_left] using this
    · have := congrArg (BitVec.extractLsb' 0 m) h
      simpa only [BitVec.extractLsb'_append_eq_right] using this
  · rintro ⟨rfl, rfl⟩; rfl

/-- The unit of a register word (30_encoding R101). -/
theorem regWord_unit (w : BitVec 1) (u : UnitId) (off : BitVec 4) (d : Word) : unitOfBit ((regWord w u off d).getLsbD 20) = u := by
  simp only [regWord, BitVec.getLsbD_append]; simp; cases u <;> rfl

/-- The offset of a register word. -/
theorem regWord_off (w : BitVec 1) (u : UnitId) (off : BitVec 4) (d : Word) : (regWord w u off d).extractLsb' 16 4 = off := by
  apply BitVec.eq_of_getLsbD_eq; intro i hi
  simp only [BitVec.getLsbD_extractLsb', regWord, BitVec.getLsbD_append]
  interval_cases i <;> simp

/-- The data of a register word. -/
theorem regWord_data (w : BitVec 1) (u : UnitId) (off : BitVec 4) (d : Word) : (regWord w u off d).extractLsb' 0 16 = d := by
  apply BitVec.eq_of_getLsbD_eq; intro i hi
  simp only [BitVec.getLsbD_extractLsb', regWord, BitVec.getLsbD_append]
  simp [hi]

/-- The sixteen offsets: eight registers, and the reserved ones. -/
theorem offset_cases : ∀ o : BitVec 4, o = 0#4 ∨ o = 1#4 ∨ o = 2#4 ∨ o = 3#4 ∨ o = 4#4 ∨ o = 5#4 ∨ o = 6#4 ∨ o = 7#4 ∨
    (8#4 ≤ o ∧ o &&& 8#4 = 8#4 ∧ o.getLsbD 3 = true) := by decide

/-- A row of the table hits by fields -/
theorem rowHit_regWord (w : BitVec 1) (u : UnitId) (off : BitVec 4) (d : Word) (mo : BitVec 4) (ml : BitVec 16) (vw : BitVec 1) (vo : BitVec 4) (vl : BitVec 16) (m v : BitVec 22)
   (hm : m = 1#1 ++ 0#1 ++ mo ++ ml) (hv : v = vw ++ 0#1 ++ vo ++ vl) :
    rowHit (regWord w u off d) m v = (w == vw && (off &&& mo == vo) && (d &&& ml == vl)) := by
  subst hm hv
  show (((w ++ bitOfUnit u ++ off ++ d : BitVec (1 + 1 + 4 + 16)) &&& (1#1 ++ 0#1 ++ mo ++ ml : BitVec (1 + 1 + 4 + 16))) ==
    (vw ++ 0#1 ++ vo ++ vl : BitVec (1 + 1 + 4 + 16))) = _
  rw [BitVec.and_append, BitVec.and_append, BitVec.and_append]
  have e : bitOfUnit u &&& 0#1 = 0#1 := BitVec.and_zero
  have e1 : w &&& 1#1 = w := by revert w; decide
  rw [Bool.eq_iff_iff]
  simp only [e, e1, beq_iff_eq, Bool.and_eq_true, append_eq_append, true_and, and_true]

/-- The decoder by fields (30_encoding R102). -/
theorem decodeReg_regWord (w : BitVec 1) (u : UnitId) (off : BitVec 4) (d : Word) :
    decodeReg (regWord w u off d) =
      if w = 1#1 then
        if off = 0#4 then
          if d.extractLsb' 0 5 = 0b00001#5 then .conSen u d
          else if d.extractLsb' 0 5 = 0b00010#5 then .conRsen u d
          else if d.extractLsb' 0 5 = 0b00100#5 then .conPen u d
          else if d.extractLsb' 0 5 = 0b01000#5 then .conRcen u d
          else if d.extractLsb' 0 5 = 0b10000#5 then .conXen u d
          else if d.extractLsb' 0 5 = 0#5 then .conCfg u d
          else .conMulti u d
        else if off = 1#4 then .statW u d
        else if off = 2#4 then .addW u d
        else if off = 3#4 then .brgW u d
        else if off = 4#4 then .trnW u d
        else if off = 5#4 then .rcvW u d
        else if off = 6#4 then .ifsW u d
        else if off = 7#4 then .estatW u d
        else .rsvdW u off d
      else if off = 5#4 then .rcvR u
      else if 8#4 ≤ off then .rsvdR u off
      else .regR u off := by
  have low : ∀ c : BitVec 5, ((d &&& 0x001F#16) == c.setWidth 16) = decide (d.extractLsb' 0 5 = c) := by
    intro c
    rw [Bool.eq_iff_iff, beq_iff_eq, decide_eq_true_eq]
    constructor
    · intro h
      have := congrArg (BitVec.extractLsb' 0 5) h
      apply BitVec.eq_of_getLsbD_eq; intro i hi
      have := congrArg (fun b => b.getLsbD i) this
      simp only [BitVec.getLsbD_extractLsb', BitVec.getLsbD_and, BitVec.getLsbD_setWidth] at this ⊢
      interval_cases i <;> simpa using this
    · rintro rfl
      apply BitVec.eq_of_getLsbD_eq; intro i hi
      simp only [BitVec.getLsbD_extractLsb', BitVec.getLsbD_and, BitVec.getLsbD_setWidth]
      interval_cases i <;> simp
  have z : ∀ x : BitVec 16, (x &&& 0#16 == 0#16) = true := by intro x; simp
  have f : ∀ o : BitVec 4, o &&& 0xF#4 = o := by decide
  simp only [decodeReg, regWord_unit, regWord_off, regWord_data]
  rw [rowHit_regWord w u off d 0xF#4 0x1F#16 1#1 0#4 ((1#5).setWidth 16) 0x2F001F 0x200001 (by decide) (by decide),
    rowHit_regWord w u off d 0xF#4 0x1F#16 1#1 0#4 ((2#5).setWidth 16) 0x2F001F 0x200002 (by decide) (by decide),
    rowHit_regWord w u off d 0xF#4 0x1F#16 1#1 0#4 ((4#5).setWidth 16) 0x2F001F 0x200004 (by decide) (by decide),
    rowHit_regWord w u off d 0xF#4 0x1F#16 1#1 0#4 ((8#5).setWidth 16) 0x2F001F 0x200008 (by decide) (by decide),
    rowHit_regWord w u off d 0xF#4 0x1F#16 1#1 0#4 ((16#5).setWidth 16) 0x2F001F 0x200010 (by decide) (by decide),
    rowHit_regWord w u off d 0xF#4 0x1F#16 1#1 0#4 ((0#5).setWidth 16) 0x2F001F 0x200000 (by decide) (by decide),
    rowHit_regWord w u off d 0xF#4 0#16 1#1 0#4 0#16 0x2F0000 0x200000 (by decide) (by decide),
    rowHit_regWord w u off d 0xF#4 0#16 1#1 1#4 0#16 0x2F0000 0x210000 (by decide) (by decide),
    rowHit_regWord w u off d 0xF#4 0#16 1#1 2#4 0#16 0x2F0000 0x220000 (by decide) (by decide),
    rowHit_regWord w u off d 0xF#4 0#16 1#1 3#4 0#16 0x2F0000 0x230000 (by decide) (by decide),
    rowHit_regWord w u off d 0xF#4 0#16 1#1 4#4 0#16 0x2F0000 0x240000 (by decide) (by decide),
    rowHit_regWord w u off d 0xF#4 0#16 1#1 5#4 0#16 0x2F0000 0x250000 (by decide) (by decide),
    rowHit_regWord w u off d 0xF#4 0#16 1#1 6#4 0#16 0x2F0000 0x260000 (by decide) (by decide),
    rowHit_regWord w u off d 0xF#4 0#16 1#1 7#4 0#16 0x2F0000 0x270000 (by decide) (by decide),
    rowHit_regWord w u off d 0x8#4 0#16 1#1 8#4 0#16 0x280000 0x280000 (by decide) (by decide),
    rowHit_regWord w u off d 0xF#4 0#16 0#1 5#4 0#16 0x2F0000 0x050000 (by decide) (by decide),
    rowHit_regWord w u off d 0x8#4 0#16 0#1 8#4 0#16 0x280000 0x080000 (by decide) (by decide)]
  simp only [low, z, f, Bool.and_true, Bool.and_eq_true, beq_iff_eq, decide_eq_true_eq]
  have hw : w = 0#1 ∨ w = 1#1 := by revert w; decide
  have ho : ∀ o : BitVec 4, (8#4 ≤ o ↔ o &&& 8#4 = 8#4) := by decide
  simp only [ho]
  rcases hw with rfl | rfl
  · simp
  · simp only [true_and, if_true]
    by_cases h0 : off = 0#4
    · simp [h0]
    · simp only [h0, false_and, if_false]
      by_cases h1 : off = 1#4; · simp only [h1, if_true]
      by_cases h2 : off = 2#4; · simp [h2]
      by_cases h3 : off = 3#4; · simp [h3]
      by_cases h4 : off = 4#4; · simp [h4]
      by_cases h5 : off = 5#4; · simp [h5]
      by_cases h6 : off = 6#4; · simp [h6]
      by_cases h7 : off = 7#4; · simp [h7]
      have : off &&& 8#4 = 8#4 := by have := offset_cases off; simp only [h0, h1, h2, h3, h4, h5, h6, h7, false_or] at this; exact this.2.1
      simp only [h1, h2, h3, h4, h5, h6, h7, this, if_false, if_true]

/-- The low bits of CON: none, one, or two and more. -/
theorem low_cases : ∀ c : BitVec 5, c = 1#5 ∨ c = 2#5 ∨ c = 4#5 ∨ c = 8#5 ∨ c = 16#5 ∨ c = 0#5 ∨ 2 ≤ popcount5 c := by decide

/-- Z of an encoded command word is 0 (30_encoding R103). -/
theorem cmdWord_z (u : UnitId) (op : BitVec 8) : (cmdWord u op).extractLsb' 9 7 = 0#7 := by
  apply BitVec.eq_of_getLsbD_eq; intro i hi
  simp only [BitVec.getLsbD_extractLsb', cmdWord, BitVec.getLsbD_append]
  interval_cases i <;> simp

/-- OP of an encoded command word. -/
theorem cmdWord_op (u : UnitId) (op : BitVec 8) : (cmdWord u op).extractLsb' 0 8 = op := by
  apply BitVec.eq_of_getLsbD_eq; intro i hi
  simp only [BitVec.getLsbD_extractLsb', cmdWord, BitVec.getLsbD_append]
  interval_cases i <;> simp

/-- The unit of an encoded command word. -/
theorem cmdWord_unit (u : UnitId) (op : BitVec 8) : unitOfBit ((cmdWord u op).getLsbD 8) = u := by
  simp only [cmdWord, BitVec.getLsbD_append]; simp; cases u <;> rfl

/-- Two or more command bits written are no other CON form. -/
theorem multi_low (v : Word) (h : 2 ≤ commandBitsSet v) : v.extractLsb' 0 5 ≠ 1#5 ∧ v.extractLsb' 0 5 ≠ 2#5 ∧ v.extractLsb' 0 5 ≠ 4#5 ∧ v.extractLsb' 0 5 ≠ 8#5 ∧ v.extractLsb' 0 5 ≠ 16#5 ∧ v.extractLsb' 0 5 ≠ 0#5 := by
  have e : commandBitsSet v = popcount5 (v.extractLsb' 0 5) := by
    simp [commandBitsSet, popcount5]
  rw [e] at h
  clear e
  generalize v.extractLsb' 0 5 = c at *
  revert c; decide

/-- Every register word is its four fields. -/
theorem regWord_fields (w : BitVec 22) : w = regWord (w.extractLsb' 21 1) (unitOfBit (w.getLsbD 20)) (w.extractLsb' 16 4) (w.extractLsb' 0 16) := by
  apply BitVec.eq_of_getLsbD_eq; intro i hi
  have : ∀ b, bitOfUnit (unitOfBit b) = BitVec.ofBool b := by decide
  simp only [regWord, BitVec.getLsbD_append, BitVec.getLsbD_extractLsb']
  interval_cases i <;> simp [this]

/-- W of a register word. -/
theorem regWord_w (w : BitVec 1) (u : UnitId) (off : BitVec 4) (d : Word) : (regWord w u off d).getLsbD 21 = decide (w = 1#1) := by
  simp only [regWord, BitVec.getLsbD_append]; simp; revert w; decide

/-- A register word without its data. -/
theorem regWord_read (w : BitVec 1) (u : UnitId) (off : BitVec 4) (d : Word) : (regWord w u off d) &&& 0x3F0000#22 = regWord w u off 0#16 := by
  apply BitVec.eq_of_getLsbD_eq; intro i hi
  simp only [regWord, BitVec.getLsbD_append, BitVec.getLsbD_and]
  interval_cases i <;> simp

end Sys2Proof.Machine
end

