-- ==== Sys2Proof/Laws/State.lean ====
section
/-! SUPPORT. One lemma per field per state update, so that no proof unfolds a record update: the unit selector, HwWrite,
outputs, faults, holding a command, and the engine's own updates. -/

namespace Sys2Proof.Machine

@[simp] theorem getUnit_putUnit (u : UnitId) (x : BusUnit) (s : State) : getUnit (putUnit u x s) u = x := by
  cases u <;> rfl

theorem getUnit_putUnit_other {u w : UnitId} (h : w ≠ u) (x : BusUnit) (s : State) :
    getUnit (putUnit u x s) w = getUnit s w := by
  cases u <;> cases w <;> first | rfl | exact absurd rfl h

@[simp] theorem putUnit_putUnit (u : UnitId) (x y : BusUnit) (s : State) : putUnit u y (putUnit u x s) = putUnit u y s := by
  cases u <;> rfl

@[simp] theorem putUnit_getUnit (u : UnitId) (s : State) : putUnit u (getUnit s u) s = s := by
  cases u <;> rfl

@[simp] theorem getUnit_onUnit (u : UnitId) (f : BusUnit → BusUnit) (s : State) :
    getUnit (onUnit u f s) u = f (getUnit s u) := by
  simp [onUnit]

theorem getUnit_onUnit_other {u w : UnitId} (h : w ≠ u) (f : BusUnit → BusUnit) (s : State) :
    getUnit (onUnit u f s) w = getUnit s w := getUnit_putUnit_other h _ s

@[simp] theorem onUnit_onUnit (u : UnitId) (f g : BusUnit → BusUnit) (s : State) :
    onUnit u g (onUnit u f s) = onUnit u (fun x => g (f x)) s := by
  simp [onUnit]

@[simp] theorem onUnit_id (u : UnitId) (s : State) : onUnit u (fun x => x) s = s := by
  simp [onUnit]

theorem onUnit_congr {u : UnitId} {f g : BusUnit → BusUnit} {s : State} (h : f (getUnit s u) = g (getUnit s u)) :
    onUnit u f s = onUnit u g s := by
  simp [onUnit, h]

theorem onUnit_eq_self {u : UnitId} {f : BusUnit → BusUnit} {s : State} (h : f (getUnit s u) = getUnit s u) :
    onUnit u f s = s := by
  simp [onUnit, h]

/-- Two states with the same units and the same block-level fields are equal. -/
theorem state_ext {s t : State} (h1 : ∀ u, getUnit s u = getUnit t u) (h2 : s.tcnt = t.tcnt)
    (h3 : s.polledOp = t.polledOp) (h4 : s.isrOp = t.isrOp) (h5 : s.inCallback = t.inCallback)
    (h6 : s.faultMark = t.faultMark) (h7 : s.issuer = t.issuer) (h8 : s.out = t.out) (h9 : s.agenda = t.agenda)
    (h10 : s.tick = t.tick) : s = t := by
  have e1 := h1 .unit1
  have e2 := h1 .unit2
  cases s
  cases t
  simp_all [getUnit]

@[simp] theorem getUnit_hwWrite (u : UnitId) (off : BitVec 4) (v : Word) (s : State) :
    getUnit (hwWrite u off v s) u = writeOffset off v (getUnit s u) := by
  simp [hwWrite]

theorem getUnit_hwWrite_other {u w : UnitId} (h : w ≠ u) (off : BitVec 4) (v : Word) (s : State) :
    getUnit (hwWrite u off v s) w = getUnit s w := getUnit_onUnit_other h _ s

@[simp] theorem putUnit_tcnt (u : UnitId) (x : BusUnit) (s : State) : (putUnit u x s).tcnt = s.tcnt := by cases u <;> rfl
@[simp] theorem putUnit_polledOp (u : UnitId) (x : BusUnit) (s : State) : (putUnit u x s).polledOp = s.polledOp := by cases u <;> rfl
@[simp] theorem putUnit_isrOp (u : UnitId) (x : BusUnit) (s : State) : (putUnit u x s).isrOp = s.isrOp := by cases u <;> rfl
@[simp] theorem putUnit_inCallback (u : UnitId) (x : BusUnit) (s : State) : (putUnit u x s).inCallback = s.inCallback := by cases u <;> rfl
@[simp] theorem putUnit_faultMark (u : UnitId) (x : BusUnit) (s : State) : (putUnit u x s).faultMark = s.faultMark := by cases u <;> rfl
@[simp] theorem putUnit_issuer (u : UnitId) (x : BusUnit) (s : State) : (putUnit u x s).issuer = s.issuer := by cases u <;> rfl
@[simp] theorem putUnit_out (u : UnitId) (x : BusUnit) (s : State) : (putUnit u x s).out = s.out := by cases u <;> rfl
@[simp] theorem putUnit_agenda (u : UnitId) (x : BusUnit) (s : State) : (putUnit u x s).agenda = s.agenda := by cases u <;> rfl
@[simp] theorem putUnit_tick (u : UnitId) (x : BusUnit) (s : State) : (putUnit u x s).tick = s.tick := by cases u <;> rfl

@[simp] theorem onUnit_tcnt (u : UnitId) (f : BusUnit → BusUnit) (s : State) : (onUnit u f s).tcnt = s.tcnt := by cases u <;> rfl
@[simp] theorem onUnit_polledOp (u : UnitId) (f : BusUnit → BusUnit) (s : State) : (onUnit u f s).polledOp = s.polledOp := by cases u <;> rfl
@[simp] theorem onUnit_isrOp (u : UnitId) (f : BusUnit → BusUnit) (s : State) : (onUnit u f s).isrOp = s.isrOp := by cases u <;> rfl
@[simp] theorem onUnit_inCallback (u : UnitId) (f : BusUnit → BusUnit) (s : State) : (onUnit u f s).inCallback = s.inCallback := by cases u <;> rfl
@[simp] theorem onUnit_faultMark (u : UnitId) (f : BusUnit → BusUnit) (s : State) : (onUnit u f s).faultMark = s.faultMark := by cases u <;> rfl
@[simp] theorem onUnit_issuer (u : UnitId) (f : BusUnit → BusUnit) (s : State) : (onUnit u f s).issuer = s.issuer := by cases u <;> rfl
@[simp] theorem onUnit_out (u : UnitId) (f : BusUnit → BusUnit) (s : State) : (onUnit u f s).out = s.out := by cases u <;> rfl
@[simp] theorem onUnit_agenda (u : UnitId) (f : BusUnit → BusUnit) (s : State) : (onUnit u f s).agenda = s.agenda := by cases u <;> rfl
@[simp] theorem onUnit_tick (u : UnitId) (f : BusUnit → BusUnit) (s : State) : (onUnit u f s).tick = s.tick := by cases u <;> rfl

@[simp] theorem hwWrite_tcnt (u : UnitId) (off : BitVec 4) (v : Word) (s : State) : (hwWrite u off v s).tcnt = s.tcnt := by cases u <;> rfl
@[simp] theorem hwWrite_polledOp (u : UnitId) (off : BitVec 4) (v : Word) (s : State) : (hwWrite u off v s).polledOp = s.polledOp := by cases u <;> rfl
@[simp] theorem hwWrite_isrOp (u : UnitId) (off : BitVec 4) (v : Word) (s : State) : (hwWrite u off v s).isrOp = s.isrOp := by cases u <;> rfl
@[simp] theorem hwWrite_inCallback (u : UnitId) (off : BitVec 4) (v : Word) (s : State) : (hwWrite u off v s).inCallback = s.inCallback := by cases u <;> rfl
@[simp] theorem hwWrite_faultMark (u : UnitId) (off : BitVec 4) (v : Word) (s : State) : (hwWrite u off v s).faultMark = s.faultMark := by cases u <;> rfl
@[simp] theorem hwWrite_issuer (u : UnitId) (off : BitVec 4) (v : Word) (s : State) : (hwWrite u off v s).issuer = s.issuer := by cases u <;> rfl
@[simp] theorem hwWrite_out (u : UnitId) (off : BitVec 4) (v : Word) (s : State) : (hwWrite u off v s).out = s.out := by cases u <;> rfl
@[simp] theorem hwWrite_agenda (u : UnitId) (off : BitVec 4) (v : Word) (s : State) : (hwWrite u off v s).agenda = s.agenda := by cases u <;> rfl
@[simp] theorem hwWrite_tick (u : UnitId) (off : BitVec 4) (v : Word) (s : State) : (hwWrite u off v s).tick = s.tick := by cases u <;> rfl

@[simp] theorem getUnit_emit (o : HostOutput) (s : State) (w : UnitId) : getUnit (emit o s) w = getUnit s w := by cases w <;> rfl
@[simp] theorem emit_tcnt (o : HostOutput) (s : State) : (emit o s).tcnt = s.tcnt := rfl
@[simp] theorem emit_polledOp (o : HostOutput) (s : State) : (emit o s).polledOp = s.polledOp := rfl
@[simp] theorem emit_isrOp (o : HostOutput) (s : State) : (emit o s).isrOp = s.isrOp := rfl
@[simp] theorem emit_inCallback (o : HostOutput) (s : State) : (emit o s).inCallback = s.inCallback := rfl
@[simp] theorem emit_faultMark (o : HostOutput) (s : State) : (emit o s).faultMark = s.faultMark := rfl
@[simp] theorem emit_issuer (o : HostOutput) (s : State) : (emit o s).issuer = s.issuer := rfl
@[simp] theorem emit_out (o : HostOutput) (s : State) : (emit o s).out = s.out ++ [o] := rfl
@[simp] theorem emit_agenda (o : HostOutput) (s : State) : (emit o s).agenda = s.agenda := rfl
@[simp] theorem emit_tick (o : HostOutput) (s : State) : (emit o s).tick = s.tick := rfl

@[simp] theorem getUnit_respond (r : Response) (s : State) (w : UnitId) : getUnit (respond r s) w = getUnit s w := by cases w <;> rfl
@[simp] theorem respond_tcnt (r : Response) (s : State) : (respond r s).tcnt = s.tcnt := rfl
@[simp] theorem respond_polledOp (r : Response) (s : State) : (respond r s).polledOp = s.polledOp := rfl
@[simp] theorem respond_isrOp (r : Response) (s : State) : (respond r s).isrOp = s.isrOp := rfl
@[simp] theorem respond_inCallback (r : Response) (s : State) : (respond r s).inCallback = s.inCallback := rfl
@[simp] theorem respond_faultMark (r : Response) (s : State) : (respond r s).faultMark = s.faultMark := rfl
@[simp] theorem respond_issuer (r : Response) (s : State) : (respond r s).issuer = s.issuer := rfl
@[simp] theorem respond_out (r : Response) (s : State) : (respond r s).out = s.out ++ [.response s.issuer r] := rfl
@[simp] theorem respond_agenda (r : Response) (s : State) : (respond r s).agenda = s.agenda := rfl
@[simp] theorem respond_tick (r : Response) (s : State) : (respond r s).tick = s.tick := rfl

@[simp] theorem getUnit_raise (f : Fault) (s : State) (w : UnitId) : getUnit (raise f s) w = getUnit s w := by cases w <;> rfl
@[simp] theorem raise_tcnt (f : Fault) (s : State) : (raise f s).tcnt = s.tcnt := rfl
@[simp] theorem raise_polledOp (f : Fault) (s : State) : (raise f s).polledOp = s.polledOp := rfl
@[simp] theorem raise_isrOp (f : Fault) (s : State) : (raise f s).isrOp = s.isrOp := rfl
@[simp] theorem raise_inCallback (f : Fault) (s : State) : (raise f s).inCallback = s.inCallback := rfl
@[simp] theorem raise_faultMark (f : Fault) (s : State) : (raise f s).faultMark = some (s.faultMark.getD f) := rfl
@[simp] theorem raise_issuer (f : Fault) (s : State) : (raise f s).issuer = s.issuer := rfl
@[simp] theorem raise_out (f : Fault) (s : State) : (raise f s).out = s.out := rfl
@[simp] theorem raise_agenda (f : Fault) (s : State) : (raise f s).agenda = s.agenda := rfl
@[simp] theorem raise_tick (f : Fault) (s : State) : (raise f s).tick = s.tick := rfl

@[simp] theorem getUnit_hold (i : Instr) (s : State) (w : UnitId) : getUnit (hold i s) w = getUnit s w := by cases w <;> rfl
@[simp] theorem hold_tcnt (i : Instr) (s : State) : (hold i s).tcnt = s.tcnt := rfl
@[simp] theorem hold_polledOp (i : Instr) (s : State) : (hold i s).polledOp = s.polledOp := rfl
@[simp] theorem hold_isrOp (i : Instr) (s : State) : (hold i s).isrOp = s.isrOp := rfl
@[simp] theorem hold_inCallback (i : Instr) (s : State) : (hold i s).inCallback = s.inCallback := rfl
@[simp] theorem hold_faultMark (i : Instr) (s : State) : (hold i s).faultMark = s.faultMark := rfl
@[simp] theorem hold_issuer (i : Instr) (s : State) : (hold i s).issuer = s.issuer := rfl
@[simp] theorem hold_out (i : Instr) (s : State) : (hold i s).out = s.out := rfl
@[simp] theorem hold_agenda (i : Instr) (s : State) : (hold i s).agenda = .engine :: .host (encode i) :: s.agenda := rfl
@[simp] theorem hold_tick (i : Instr) (s : State) : (hold i s).tick = s.tick := rfl

/-- Issuing a class N command holds it or runs its one step. -/
theorem issueAtOnce_cases (i : Instr) (act : State → State) (s : State) :
    issueAtOnce i act s = hold i s ∨ issueAtOnce i act s = act s := by
  unfold issueAtOnce
  split <;> simp

/-- It runs from a callback, or with no command in flight (00_scope R8, 46 R298). -/
theorem issueAtOnce_runs {s : State} (h : mayIssue s) (i : Instr) (act : State → State) : issueAtOnce i act s = act s := by
  have : hostWaits s = false := by
    cases hi : s.issuer <;> simp_all [hostWaits, mayIssue]
  simp [issueAtOnce, this]

/-- It is held from the polled context while a command is in flight (10_state R55). -/
theorem issueAtOnce_held {s : State} (hi : s.issuer = .polled) (hp : s.polledOp ≠ none) (i : Instr)
    (act : State → State) : issueAtOnce i act s = hold i s := by
  have : hostWaits s = true := by simp [hostWaits, hi, Option.isSome_iff_ne_none, hp]
  simp [issueAtOnce, this]

@[simp] theorem getUnit_finish (ok : Bool) (f : OutputFields) (s : State) (w : UnitId) : getUnit (finish ok f s) w = getUnit s w := by cases w <;> rfl
@[simp] theorem finish_tcnt (ok : Bool) (f : OutputFields) (s : State) : (finish ok f s).tcnt = s.tcnt := rfl
@[simp] theorem finish_polledOp (ok : Bool) (f : OutputFields) (s : State) : (finish ok f s).polledOp = none := rfl
@[simp] theorem finish_isrOp (ok : Bool) (f : OutputFields) (s : State) : (finish ok f s).isrOp = s.isrOp := rfl
@[simp] theorem finish_inCallback (ok : Bool) (f : OutputFields) (s : State) : (finish ok f s).inCallback = s.inCallback := rfl
@[simp] theorem finish_faultMark (ok : Bool) (f : OutputFields) (s : State) : (finish ok f s).faultMark = s.faultMark := rfl
@[simp] theorem finish_issuer (ok : Bool) (f : OutputFields) (s : State) : (finish ok f s).issuer = s.issuer := rfl
@[simp] theorem finish_out (ok : Bool) (f : OutputFields) (s : State) : (finish ok f s).out = s.out ++ [.response .polled ⟨ok, false, f⟩] := rfl
@[simp] theorem finish_agenda (ok : Bool) (f : OutputFields) (s : State) : (finish ok f s).agenda = s.agenda := rfl
@[simp] theorem finish_tick (ok : Bool) (f : OutputFields) (s : State) : (finish ok f s).tick = s.tick := rfl

@[simp] theorem getUnit_endDispatch (e : Option Event) (s : State) (w : UnitId) : getUnit (endDispatch e s) w = getUnit s w := by cases w <;> rfl
@[simp] theorem endDispatch_tcnt (e : Option Event) (s : State) : (endDispatch e s).tcnt = s.tcnt := rfl
@[simp] theorem endDispatch_polledOp (e : Option Event) (s : State) : (endDispatch e s).polledOp = s.polledOp := rfl
@[simp] theorem endDispatch_isrOp (e : Option Event) (s : State) : (endDispatch e s).isrOp = none := rfl
@[simp] theorem endDispatch_inCallback (e : Option Event) (s : State) : (endDispatch e s).inCallback = false := rfl
@[simp] theorem endDispatch_faultMark (e : Option Event) (s : State) : (endDispatch e s).faultMark = s.faultMark := rfl
@[simp] theorem endDispatch_issuer (e : Option Event) (s : State) : (endDispatch e s).issuer = s.issuer := rfl
@[simp] theorem endDispatch_out (e : Option Event) (s : State) : (endDispatch e s).out = s.out ++ [.response .interrupt (okResponse (.event e))] := rfl
@[simp] theorem endDispatch_agenda (e : Option Event) (s : State) : (endDispatch e s).agenda = s.agenda := rfl
@[simp] theorem endDispatch_tick (e : Option Event) (s : State) : (endDispatch e s).tick = s.tick := rfl

@[simp] theorem getUnit_dispatchInvoke (u : UnitId) (h : Handle) (e : Event) (s : State) (w : UnitId) : getUnit (dispatchInvoke u h e s) w = getUnit s w := by cases w <;> rfl
@[simp] theorem dispatchInvoke_tcnt (u : UnitId) (h : Handle) (e : Event) (s : State) : (dispatchInvoke u h e s).tcnt = s.tcnt := rfl
@[simp] theorem dispatchInvoke_polledOp (u : UnitId) (h : Handle) (e : Event) (s : State) : (dispatchInvoke u h e s).polledOp = s.polledOp := rfl
@[simp] theorem dispatchInvoke_isrOp (u : UnitId) (h : Handle) (e : Event) (s : State) : (dispatchInvoke u h e s).isrOp = some ⟨u, .calling e⟩ := rfl
@[simp] theorem dispatchInvoke_inCallback (u : UnitId) (h : Handle) (e : Event) (s : State) : (dispatchInvoke u h e s).inCallback = true := rfl
@[simp] theorem dispatchInvoke_faultMark (u : UnitId) (h : Handle) (e : Event) (s : State) : (dispatchInvoke u h e s).faultMark = s.faultMark := rfl
@[simp] theorem dispatchInvoke_issuer (u : UnitId) (h : Handle) (e : Event) (s : State) : (dispatchInvoke u h e s).issuer = s.issuer := rfl
@[simp] theorem dispatchInvoke_out (u : UnitId) (h : Handle) (e : Event) (s : State) : (dispatchInvoke u h e s).out = s.out ++ [.invoked u h e] := rfl
@[simp] theorem dispatchInvoke_agenda (u : UnitId) (h : Handle) (e : Event) (s : State) : (dispatchInvoke u h e s).agenda = s.agenda := rfl
@[simp] theorem dispatchInvoke_tick (u : UnitId) (h : Handle) (e : Event) (s : State) : (dispatchInvoke u h e s).tick = s.tick := rfl

@[simp] theorem getUnit_goto (p : Position) (k : Frame) (s : State) (w : UnitId) : getUnit (goto p k s) w = getUnit s w := by
  unfold goto
  split
  · rfl
  · cases w <;> rfl

theorem goto_of_some {s : State} {f : InFlight} (h : s.polledOp = some f) (p : Position) (k : Frame) :
    goto p k s = { s with polledOp := some { f with pos := p, frame := k } } := by
  simp [goto, h]

@[simp] theorem goto_tcnt (p : Position) (k : Frame) (s : State) : (goto p k s).tcnt = s.tcnt := by
  unfold goto
  split <;> rfl
@[simp] theorem goto_isrOp (p : Position) (k : Frame) (s : State) : (goto p k s).isrOp = s.isrOp := by
  unfold goto
  split <;> rfl
@[simp] theorem goto_inCallback (p : Position) (k : Frame) (s : State) : (goto p k s).inCallback = s.inCallback := by
  unfold goto
  split <;> rfl
@[simp] theorem goto_faultMark (p : Position) (k : Frame) (s : State) : (goto p k s).faultMark = s.faultMark := by
  unfold goto
  split <;> rfl
@[simp] theorem goto_issuer (p : Position) (k : Frame) (s : State) : (goto p k s).issuer = s.issuer := by
  unfold goto
  split <;> rfl
@[simp] theorem goto_out (p : Position) (k : Frame) (s : State) : (goto p k s).out = s.out := by
  unfold goto
  split <;> rfl
@[simp] theorem goto_agenda (p : Position) (k : Frame) (s : State) : (goto p k s).agenda = s.agenda := by
  unfold goto
  split <;> rfl
@[simp] theorem goto_tick (p : Position) (k : Frame) (s : State) : (goto p k s).tick = s.tick := by
  unfold goto
  split <;> rfl

/-- An update of block-level fields leaves both units as they are. -/
@[simp] theorem getUnit_setBlock (s : State) (c : BitVec 32) (p : Option InFlight) (i : Option Servicing) (b : Bool)
    (f : Option Fault) (r : Issuer) (o : List HostOutput) (a : List Move) (n : Nat) (w : UnitId) :
    getUnit ⟨s.unit1, s.unit2, c, p, i, b, f, r, o, a, n⟩ w = getUnit s w := by
  cases w <;> rfl

end Sys2Proof.Machine
end

