-- ==== Sys2Proof/Laws/Registers.lean ====
section
/-! SUPPORT. What a register write does to a unit: the bits of CON as a word, the command part by cases, and that engine
writes of CON change only what they name. -/

namespace Sys2Proof.Machine

@[simp] theorem roleOfBits_roleBits (r : Role) : roleOfBits (roleBits r) = some r := by
  cases r <;> rfl

section conBits
variable (c : Con)

theorem conWord_en : (conWord c).getLsbD 15 = c.en := by simp only [conWord, BitVec.getLsbD_append]; simp
theorem conWord_sie : (conWord c).getLsbD 13 = c.sie := by simp only [conWord, BitVec.getLsbD_append]; simp
theorem conWord_slw : (conWord c).getLsbD 9 = c.slw := by simp only [conWord, BitVec.getLsbD_append]; simp
theorem conWord_smen : (conWord c).getLsbD 8 = c.smen := by simp only [conWord, BitVec.getLsbD_append]; simp
theorem conWord_gcen : (conWord c).getLsbD 7 = c.gcen := by simp only [conWord, BitVec.getLsbD_append]; simp
theorem conWord_ackdt : (conWord c).getLsbD 5 = c.ackdt := by simp only [conWord, BitVec.getLsbD_append]; simp

theorem conWord_cmd : (conWord c).extractLsb' 0 5 = c.cmd := by
  ext i hi
  simp only [BitVec.getElem_extractLsb', conWord, BitVec.getLsbD_append]
  simp [hi]

theorem conWord_mode : (conWord c).extractLsb' 11 2 = roleBits c.mode := by
  ext i hi
  simp only [BitVec.getElem_extractLsb', conWord, BitVec.getLsbD_append]
  obtain rfl | rfl : i = 0 ∨ i = 1 := by omega
  all_goals (cases c.mode <;> simp [roleBits])

/-- Setting command bits in the word of CON keeps its configuration fields. -/
theorem conFields_setBits (w : Word) (h : w.extractLsb' 5 11 = 0#11) : conFields (conWord c ||| w) c = c := by
  have hb : ∀ i, 5 ≤ i → i < 16 → w.getLsbD i = false := by
    intro i h5 h16
    have := congrArg (fun b => b.getLsbD (i - 5)) h
    have e : 5 + (i - 5) = i := by omega
    have l : i - 5 < 11 := by omega
    simpa [BitVec.getLsbD_extractLsb', e, l] using this
  have hm : (conWord c ||| w).extractLsb' 11 2 = roleBits c.mode := by
    rw [← conWord_mode c]
    ext i hi
    have := hb (11 + i) (by omega) (by omega)
    simp only [BitVec.getElem_extractLsb', BitVec.getLsbD_or, this, Bool.or_false]
  simp only [conFields, BitVec.getLsbD_or, hm, roleOfBits_roleBits, Option.getD_some, conWord_en, conWord_sie,
    conWord_slw, conWord_smen, conWord_gcen, conWord_ackdt, hb 15 (by omega) (by omega), hb 13 (by omega) (by omega),
    hb 9 (by omega) (by omega), hb 8 (by omega) (by omega), hb 7 (by omega) (by omega), hb 5 (by omega) (by omega),
    Bool.or_false]

end conBits

/-- A CON write of the current word with command bits `w` added is the command part alone (20_memory R79). -/
theorem conWrite_setBits (w : Word) (h : w.extractLsb' 5 11 = 0#11) (x : BusUnit) :
    conWrite (conWord x.con ||| w) x = conCommandPart (x.con.cmd ||| w.extractLsb' 0 5) x := by
  have he : (conWord x.con ||| w).getLsbD 15 = x.con.en := by
    have := congrArg Con.en (conFields_setBits x.con w h)
    exact this
  have hc : (conWord x.con ||| w).extractLsb' 0 5 = x.con.cmd ||| w.extractLsb' 0 5 := by
    rw [← conWord_cmd x.con]
    ext i hi
    simp only [BitVec.getElem_extractLsb', BitVec.getLsbD_or, BitVec.getElem_or]
  simp only [conWrite, conConfigPart, conFields_setBits x.con w h, hc, he]
  cases x.con.en <;> rfl

/-- The command part by cases (40 R133): nothing new, refused, or accepted with exactly one bit. -/
theorem conCommandPart_cases (w : BitVec 5) (x : BusUnit) :
    (w &&& ~~~x.con.cmd = 0#5 ∧ conCommandPart w x = x) ∨
    (w &&& ~~~x.con.cmd ≠ 0#5 ∧ (2 ≤ popcount5 (w &&& ~~~x.con.cmd) ∨ pending x = true ∨ x.stat.bcl = true) ∧
      conCommandPart w x = setIwcol x) ∨
    (w &&& ~~~x.con.cmd ≠ 0#5 ∧ popcount5 w ≤ 1 ∧ x.con.cmd = 0#5 ∧ x.stat.bcl = false ∧
      conCommandPart w x =
        { x with con := { x.con with cmd := w }, txsr := if w = cmdXen then x.trn else x.txsr }) := by
  by_cases h0 : w &&& ~~~x.con.cmd = 0#5
  · exact .inl ⟨h0, by simp [conCommandPart, h0]⟩
  · right
    by_cases h1 : (decide (2 ≤ popcount5 (w &&& ~~~x.con.cmd)) || pending x || x.stat.bcl) = true
    · refine .inl ⟨h0, ?_, by simp only [conCommandPart, h0, h1, if_true, if_false]⟩
      simp only [Bool.or_eq_true, decide_eq_true_eq] at h1
      tauto
    · right
      have hp : pending x = false := by
        cases h : pending x
        · rfl
        · simp [h] at h1
      have hc : x.con.cmd = 0#5 := by simpa [pending] using hp
      have hb : x.stat.bcl = false := by
        cases h : x.stat.bcl
        · rfl
        · simp [h] at h1
      have hw : w &&& ~~~x.con.cmd = w := by rw [hc, BitVec.not_zero, BitVec.and_allOnes]
      have h2 : popcount5 w ≤ 1 := by
        rw [hw] at h1
        simp only [Bool.or_eq_true, decide_eq_true_eq] at h1
        omega
      refine ⟨h0, h2, hc, hb, ?_⟩
      rw [hw] at h0 h1
      have e : conCommandPart w x = if w = 0#5 then x
          else if (decide (2 ≤ popcount5 w) || pending x || x.stat.bcl) = true then setIwcol x
          else { x with con := { x.con with cmd := w }, txsr := if w = cmdXen then x.trn else x.txsr } := by
        simp only [conCommandPart, hw]
      rw [e, if_neg h0, if_neg h1]

/-- RCV, ESTAT and the reserved offsets ignore a write (40 R143, R145, R146). -/
theorem writeOffset_ignored {off : BitVec 4} (h : 0x8#4 ≤ off ∨ off = 0x5#4 ∨ off = 0x7#4) (v : Word) (x : BusUnit) :
    writeOffset off v x = x := by
  have hn : ∀ o : BitVec 4, (0x8#4 ≤ o ∨ o = 0x5#4 ∨ o = 0x7#4) →
      o ≠ 0x0#4 ∧ o ≠ 0x1#4 ∧ o ≠ 0x2#4 ∧ o ≠ 0x3#4 ∧ o ≠ 0x4#4 ∧ o ≠ 0x6#4 := by decide
  obtain ⟨h0, h1, h2, h3, h4, h6⟩ := hn off h
  simp only [writeOffset, h0, h1, h2, h3, h4, h6, if_false]

/-- A reserved offset reads 0 (10_state R44). -/
theorem readOffset_reserved {off : BitVec 4} (h : 0x8#4 ≤ off) (x : BusUnit) : readOffset off x = 0#16 := by
  have hn : ∀ o : BitVec 4, 0x8#4 ≤ o → o ≠ 0x0#4 ∧ o ≠ 0x1#4 ∧ o ≠ 0x2#4 ∧ o ≠ 0x3#4 ∧ o ≠ 0x4#4 ∧ o ≠ 0x5#4 ∧
      o ≠ 0x6#4 ∧ o ≠ 0x7#4 := by decide
  obtain ⟨h0, h1, h2, h3, h4, h5, h6, h7⟩ := hn off h
  simp only [readOffset, h0, h1, h2, h3, h4, h5, h6, h7, if_false]

/-- Only a read of RCV has an effect (20_memory R78). -/
theorem readEffect_of_ne {off : BitVec 4} (h : off ≠ 0x5#4) (x : BusUnit) : readEffect off x = x := by
  simp only [readEffect, h, if_false]

/-- A host read of any register but RCV only hands the host its value. -/
theorem hostRead_of_ne {off : BitVec 4} (h : off ≠ 0x5#4) (u : UnitId) (s : State) :
    hostRead u off s = emit (.readValue (readOffset off (getUnit s u))) s := by
  rw [hostRead, onUnit_eq_self (readEffect_of_ne h _)]

/-- Every form of a CON write is one write of CON (40 R131 to R138). -/
theorem exec_conForms {u : UnitId} {v : Word} {i : Instr} (h : i ∈ conForms u v) (s : State) :
    exec i s = .next (hwWrite u 0x0#4 v s) := by
  simp only [conForms, List.mem_cons, List.not_mem_nil, or_false] at h
  rcases h with rfl | rfl | rfl | rfl | rfl | rfl | rfl <;> rfl

/-- Every write form is one write of its offset (40 R130). -/
theorem exec_writeForms {u : UnitId} {v : Word} {o : BitVec 4} {f : Instr × BitVec 4} (h : f ∈ writeForms u v o) (s : State) :
    exec f.1 s = .next (hwWrite u f.2 v s) := by
  simp only [writeForms, conForms, List.map_cons, List.map_nil, List.mem_append, List.mem_cons, List.not_mem_nil, or_false] at h
  rcases h with (h | h | h | h | h | h | h) | h | h | h | h | h | h | h | h <;> subst h <;> rfl

/-- A write of offset 0 is a write of CON. -/
theorem hwWrite_con (u : UnitId) (v : Word) (s : State) : hwWrite u 0x0#4 v s = onUnit u (conWrite v) s := by
  cases u <;> rfl

/-- The command part changes only the command bits, STAT and TXSR. -/
theorem conCommandPart_frame (w : BitVec 5) (x : BusUnit) :
    conCommandPart w x = { x with
      con := { x.con with cmd := (conCommandPart w x).con.cmd },
      stat := (conCommandPart w x).stat, txsr := (conCommandPart w x).txsr } := by
  rcases conCommandPart_cases w x with ⟨_, h⟩ | ⟨_, _, h⟩ | ⟨_, _, _, _, h⟩ <;> rw [h] <;> rfl

/-- Of CON, the command part changes only the command bits. -/
theorem conCommandPart_con (w : BitVec 5) (x : BusUnit) :
    (conCommandPart w x).con = { x.con with cmd := (conCommandPart w x).con.cmd } := by
  rcases conCommandPart_cases w x with ⟨_, h⟩ | ⟨_, _, h⟩ | ⟨_, _, _, _, h⟩ <;> rw [h] <;> rfl

/-- The configuration part changes only CON and what Disable clears (40 R131, R132). -/
theorem conConfigPart_frame (v : Word) (x : BusUnit) :
    conConfigPart v x = { x with
      con := (conConfigPart v x).con, stat := (conConfigPart v x).stat, sif := (conConfigPart v x).sif,
      slv := (conConfigPart v x).slv, m10 := (conConfigPart v x).m10 } := by
  simp only [conConfigPart]
  split <;> rfl

/-- CON after the configuration part. -/
theorem conConfigPart_con (v : Word) (x : BusUnit) :
    (conConfigPart v x).con = { conFields v x.con with
      cmd := if x.con.en && !v.getLsbD 15 then 0#5 else x.con.cmd } := by
  simp only [conConfigPart]
  split <;> simp_all [disable, conFields]

/-- STAT after the configuration part. -/
theorem conConfigPart_stat (v : Word) (x : BusUnit) :
    (conConfigPart v x).stat = if x.con.en && !v.getLsbD 15 then Stat.zero else x.stat := by
  simp only [conConfigPart]
  split <;> simp_all [disable, conFields]

/-- What a write of CON can change. -/
theorem conWrite_frame (v : Word) (x : BusUnit) :
    conWrite v x = { x with
      con := (conWrite v x).con, stat := (conWrite v x).stat, sif := (conWrite v x).sif,
      slv := (conWrite v x).slv, m10 := (conWrite v x).m10, txsr := (conWrite v x).txsr } := by
  unfold conWrite
  rw [conCommandPart_frame, conConfigPart_frame]

/-- Of STAT, the command part changes only IWCOL. -/
theorem conCommandPart_statMask (w : BitVec 5) (x : BusUnit) : statWord (conCommandPart w x).stat &&& 0xFFF7#16 = statWord x.stat &&& 0xFFF7#16 := by
  rcases conCommandPart_cases w x with ⟨_, h⟩ | ⟨_, _, h⟩ | ⟨_, _, _, _, h⟩ <;> rw [h]
  simp only [setIwcol, statWord]
  generalize x.stat = t
  obtain ⟨a1,a2,a3,a4,a5,a6,a7,a8,a9,a10⟩ := t
  simp only
  revert a1 a2 a3 a4 a5 a6 a7 a8 a9 a10
  decide

/-- A read of a word address by its unit and offset (20_memory R70). -/
theorem memRead_eq (a : BitVec 5) (s : State) : memRead a s = readOffset (a.extractLsb' 0 4) (getUnit s (unitOfBit (a.getLsbD 4))) := rfl

/-- A register reads the same in two units that agree on it. -/
theorem readOffset_congr {off : BitVec 4} {x y : BusUnit} 
   (h0 : off = 0#4 → x.con = y.con) (h1 : off = 1#4 → x.stat = y.stat) (h2 : off = 2#4 → x.add = y.add) (h3 : off = 3#4 → x.brg = y.brg)
   (h4 : off = 4#4 → x.trn = y.trn) (h5 : off = 5#4 → x.rcv = y.rcv) (h6 : off = 6#4 → x.sif = y.sif) (h7 : off = 7#4 → x.busy = y.busy ∧ x.code = y.code) :
   readOffset off x = readOffset off y := by
  unfold readOffset estatWord
  split; · rw [h0 ‹_›]
  split; · rw [h1 ‹_›]
  split; · rw [h2 ‹_›]
  split; · rw [h3 ‹_›]
  split; · rw [h4 ‹_›]
  split; · rw [h5 ‹_›]
  split; · rw [h6 ‹_›]
  split
  · rw [(h7 ‹_›).1, (h7 ‹_›).2]
  · rfl

/-- What a write of each offset can change. -/
theorem writeOffset_frame (off : BitVec 4) (v : Word) (x : BusUnit) : ∃ y : BusUnit,
   writeOffset off v x = { x with con := y.con, stat := y.stat, add := y.add, brg := y.brg, trn := y.trn, sif := y.sif, slv := y.slv, m10 := y.m10, txsr := y.txsr } ∧
   (off ≠ 0#4 → y.con = x.con ∧ y.sif = (if off = 6#4 then y.sif else x.sif)) ∧ (off ≠ 0#4 → off ≠ 1#4 → off ≠ 4#4 → y.stat = x.stat) ∧ (off ≠ 2#4 → y.add = x.add) ∧ (off ≠ 3#4 → y.brg = x.brg) ∧ (off ≠ 4#4 → y.trn = x.trn) ∧
   (off ≠ 0#4 → y.slv = x.slv ∧ y.m10 = x.m10 ∧ y.txsr = x.txsr) := by
  refine ⟨writeOffset off v x, ?_, ?_⟩ <;> unfold writeOffset
  · split
    · rw [conWrite_frame]
    split; · rfl
    split; · rfl
    split; · rfl
    split
    · unfold trnWrite; split <;> rfl
    split; · rfl
    · rfl
  · by_cases h0 : off = 0#4
    · subst h0
      have := conWrite_frame v x
      refine ⟨fun h => absurd rfl h, fun h => absurd rfl h, ?_, ?_, ?_, fun h => absurd rfl h⟩ <;> intro _ <;> simp only [if_true] <;> rw [this]
    by_cases h1 : off = 1#4
    · subst h1; simp [statWrite]
    by_cases h2 : off = 2#4
    · subst h2; simp [addWrite]
    by_cases h3 : off = 3#4
    · subst h3; simp [brgWrite]
    by_cases h4 : off = 4#4
    · subst h4; simp [trnWrite]; split <;> simp [setIwcol]
    by_cases h6 : off = 6#4
    · subst h6; simp [ifsWrite]
    simp [h0, h1, h2, h3, h4, h6]

end Sys2Proof.Machine
end

