-- ==== Sys2Proof/Laws/Engine.lean ====
section
/-! SUPPORT. The engine: what one atomic step can change (one lemma per shared operation), and the steps of a command in
flight written on the pair of its unit and its sequencer position, from which a whole prompt run is read off. -/

namespace Sys2Proof.Machine

/-! ## What resuming a command can change -/

/-- A resumed command either returns its response or goes on at another position; nothing else changes. -/
theorem resume_cases (k : Frame) (ok : Bool) (b : Byte) (s : State) :
    (∃ r f, resume k ok b s = finish r f s) ∨ (∃ p k', resume k ok b s = goto p k' s) := by
  cases k <;> cases ok <;> simp only [resume, sendNext, readNextByte, scanNext] <;>
    repeat (first
      | exact .inl ⟨_, _, rfl⟩
      | exact .inr ⟨_, _, rfl⟩
      | split)

/-- A wait that returned leads to the response or to another position; nothing else changes. -/
theorem waitReturn_cases (w : Waiter) (k : Frame) (ok : Bool) (s : State) :
    (∃ r f, waitReturn w k ok s = finish r f s) ∨ (∃ p k', waitReturn w k ok s = goto p k' s) := by
  cases w <;> cases ok <;> simp only [waitReturn] <;>
    first
      | exact resume_cases _ _ _ _
      | exact .inr ⟨_, _, rfl⟩

section frames
variable (k : Frame) (ok : Bool) (b : Byte) (w : Waiter) (s : State)

@[simp] theorem getUnit_resume (v : UnitId) : getUnit (resume k ok b s) v = getUnit s v := by
  rcases resume_cases k ok b s with ⟨_, _, h⟩ | ⟨_, _, h⟩ <;> rw [h] <;> simp
@[simp] theorem resume_tcnt : (resume k ok b s).tcnt = s.tcnt := by
  rcases resume_cases k ok b s with ⟨_, _, h⟩ | ⟨_, _, h⟩ <;> rw [h] <;> simp
@[simp] theorem resume_isrOp : (resume k ok b s).isrOp = s.isrOp := by
  rcases resume_cases k ok b s with ⟨_, _, h⟩ | ⟨_, _, h⟩ <;> rw [h] <;> simp
@[simp] theorem resume_inCallback : (resume k ok b s).inCallback = s.inCallback := by
  rcases resume_cases k ok b s with ⟨_, _, h⟩ | ⟨_, _, h⟩ <;> rw [h] <;> simp
@[simp] theorem resume_faultMark : (resume k ok b s).faultMark = s.faultMark := by
  rcases resume_cases k ok b s with ⟨_, _, h⟩ | ⟨_, _, h⟩ <;> rw [h] <;> simp
@[simp] theorem resume_issuer : (resume k ok b s).issuer = s.issuer := by
  rcases resume_cases k ok b s with ⟨_, _, h⟩ | ⟨_, _, h⟩ <;> rw [h] <;> simp
@[simp] theorem resume_agenda : (resume k ok b s).agenda = s.agenda := by
  rcases resume_cases k ok b s with ⟨_, _, h⟩ | ⟨_, _, h⟩ <;> rw [h] <;> simp
@[simp] theorem resume_tick : (resume k ok b s).tick = s.tick := by
  rcases resume_cases k ok b s with ⟨_, _, h⟩ | ⟨_, _, h⟩ <;> rw [h] <;> simp

@[simp] theorem getUnit_waitReturn (v : UnitId) : getUnit (waitReturn w k ok s) v = getUnit s v := by
  rcases waitReturn_cases w k ok s with ⟨_, _, h⟩ | ⟨_, _, h⟩ <;> rw [h] <;> simp
@[simp] theorem waitReturn_tcnt : (waitReturn w k ok s).tcnt = s.tcnt := by
  rcases waitReturn_cases w k ok s with ⟨_, _, h⟩ | ⟨_, _, h⟩ <;> rw [h] <;> simp
@[simp] theorem waitReturn_isrOp : (waitReturn w k ok s).isrOp = s.isrOp := by
  rcases waitReturn_cases w k ok s with ⟨_, _, h⟩ | ⟨_, _, h⟩ <;> rw [h] <;> simp
@[simp] theorem waitReturn_inCallback : (waitReturn w k ok s).inCallback = s.inCallback := by
  rcases waitReturn_cases w k ok s with ⟨_, _, h⟩ | ⟨_, _, h⟩ <;> rw [h] <;> simp
@[simp] theorem waitReturn_faultMark : (waitReturn w k ok s).faultMark = s.faultMark := by
  rcases waitReturn_cases w k ok s with ⟨_, _, h⟩ | ⟨_, _, h⟩ <;> rw [h] <;> simp
@[simp] theorem waitReturn_issuer : (waitReturn w k ok s).issuer = s.issuer := by
  rcases waitReturn_cases w k ok s with ⟨_, _, h⟩ | ⟨_, _, h⟩ <;> rw [h] <;> simp
@[simp] theorem waitReturn_agenda : (waitReturn w k ok s).agenda = s.agenda := by
  rcases waitReturn_cases w k ok s with ⟨_, _, h⟩ | ⟨_, _, h⟩ <;> rw [h] <;> simp
@[simp] theorem waitReturn_tick : (waitReturn w k ok s).tick = s.tick := by
  rcases waitReturn_cases w k ok s with ⟨_, _, h⟩ | ⟨_, _, h⟩ <;> rw [h] <;> simp

end frames

/-! ## What one engine step can change -/

/-- What the step at position `p` does to its unit, the counter being `c` (42, 43, 44 R232, 46 R290). -/
def unitAfter (p : Position) (c : BitVec 32) (x : BusUnit) : BusUnit :=
  match p with
  | .claim => if x.busy then setCode .busy x else { x with busy := true }
  | .setSen => conWrite (conWord x.con ||| 0x0001) x
  | .release => { x with busy := false }
  | .setRsen => conWrite (conWord x.con ||| 0x0002) x
  | .setPen => conWrite (conWord x.con ||| 0x0004) x
  | .settle => { x with busy := false, code := .idle }
  | .loadTrn d => trnWrite (d.setWidth 16) x
  | .setXen => conWrite (conWord x.con ||| 0x0010) x
  | .checkAck => if x.stat.ackstat then setCode .dataNack x else x
  | .setAckdt a => conWrite ((conWord x.con &&& ~~~0x0020#16) ||| (if a then 0x0020#16 else 0#16)) x
  | .setRcen => conWrite (conWord x.con ||| 0x0008) x
  | .takeByte _ => clearRbf x
  | .waitLoad _ => if waitBudget x = 0 then setCode .timeout x else x
  | .waitLoop _ =>
    let y := { x with witer := x.witer + 1 }
    if x.stat.bcl then setCode .busCollision y
    else if x.stat.ov then setCode .rxOverrun y
    else if !pending x then y
    else if c - 1 = 0#32 then setCode .timeout y
    else y
  | .addrNack => if x.code = .dataNack then setCode .addrNack x else x
  | .initDisable _ _ => conWrite 0x0000 x
  | .initStore c h => { x with cfg := c, cb := h }
  | .initBrg c => brgWrite (dividerWord c.speedHz) x
  | .initAdd c => addWrite (c.ownAddr.setWidth 16) x
  | .initCon c => conWrite (initConWord c) x
  | .initDone => { x with code := .idle, busy := false, sif := false }

/-- A write of CON, by its offset (20_memory R72). -/
theorem writeOffset_con (v : Word) (x : BusUnit) : writeOffset 0x0 v x = conWrite v x := rfl
/-- A write of ADD, by its offset. -/
theorem writeOffset_add (v : Word) (x : BusUnit) : writeOffset 0x2 v x = addWrite v x := rfl
/-- A write of BRG, by its offset. -/
theorem writeOffset_brg (v : Word) (x : BusUnit) : writeOffset 0x3 v x = brgWrite v x := rfl
/-- A write of TRN, by its offset. -/
theorem writeOffset_trn (v : Word) (x : BusUnit) : writeOffset 0x4 v x = trnWrite v x := rfl

/-- The unit after one engine step, whatever the command does next. -/
theorem getUnit_positionStep (u : UnitId) (p : Position) (k : Frame) (s : State) :
    getUnit (positionStep u p k s) u = unitAfter p s.tcnt (getUnit s u) := by
  cases p <;>
    simp only [positionStep, unitAfter, setCommandBit, loadCounter, waitIteration] <;>
    repeat' split
  all_goals first
    | rfl
    | (simp only [getUnit_goto, getUnit_hwWrite]; rfl)
    | simp_all

/-- One engine step leaves the other unit as it is (60 R338). -/
theorem getUnit_positionStep_other {u w : UnitId} (h : w ≠ u) (p : Position) (k : Frame) (s : State) :
    getUnit (positionStep u p k s) w = getUnit s w := by
  cases p <;>
    simp only [positionStep, setCommandBit, loadCounter, waitIteration] <;>
    repeat' split
  all_goals simp [getUnit_onUnit_other h, getUnit_hwWrite_other h]

/-- One engine step leaves the interrupt context, the fault mark and the agenda as they are. -/
theorem positionStep_frame (u : UnitId) (p : Position) (k : Frame) (s : State) :
    (positionStep u p k s).isrOp = s.isrOp ∧ (positionStep u p k s).inCallback = s.inCallback ∧
      (positionStep u p k s).faultMark = s.faultMark ∧ (positionStep u p k s).issuer = s.issuer ∧
      (positionStep u p k s).agenda = s.agenda ∧ (positionStep u p k s).tick = s.tick := by
  cases p <;>
    simp only [positionStep, setCommandBit, loadCounter, waitIteration] <;>
    repeat' split
  all_goals simp

end Sys2Proof.Machine
end

