-- ==== Sys2Proof/Laws/Step.lean ====
section
/-! SUPPORT. The step: the move on the agenda, runs of several steps, and the environment events as changes of one unit. -/

namespace Sys2Proof.Machine

/-- The step takes the first move of the agenda. -/
theorem step_agenda {s : State} {m : Move} {rest : List Move} (hf : faultFree s) (ha : s.agenda = m :: rest) :
    step s = takeMove m { s with agenda := rest } := by
  simp [step, hf, ha]

/-- A run whose first step answers a next state goes on from it. -/
theorem run_next (M : Host.Core) {s t : M.State} (h : M.step s = .next t) (k : Nat) : M.run (k+1) s = M.run k t := by
  rw [Host.Core.run.eq_def]; simp only [h]
/-- A run stops at a fault. -/
theorem run_fault (M : Host.Core) {s : M.State} {f : M.Fault} (h : M.step s = .fault f) (k : Nat) : M.run (k+1) s = .fault f := by
  rw [Host.Core.run.eq_def]; simp only [h]
/-- A run stops at a refusal. -/
theorem run_refused (M : Host.Core) {s : M.State} {f : M.Refusal} (h : M.step s = .refused f) (k : Nat) : M.run (k+1) s = .refused f := by
  rw [Host.Core.run.eq_def]; simp only [h]

/-- One more step of a run. -/
theorem core_run_succ (k : Nat) (s : State) : core.run (k+1) s = match step s with | .next t => core.run k t | .fault f => .fault f | .refused r => .refused r := by
  cases h : step s
  · exact run_next core h k
  · exact run_fault core h k
  · exact run_refused core h k

/-- `run_next` for this machine. -/
theorem core_run_next {s t : State} (h : step s = .next t) (k : Nat) : core.run (k+1) s = core.run k t := by
  rw [core_run_succ, h]

/-- No step leaves the state. -/
theorem core_run_zero (s : State) : core.run 0 s = .next s := rfl

/-- A run of `n` steps that answers a next state goes on from it. -/
theorem core_run_add {n : Nat} {s t : State} (h : core.run n s = .next t) (m : Nat) :
    core.run (n + m) s = core.run m t := by
  induction n generalizing s with
  | zero =>
    rw [core_run_zero] at h
    injection h with h
    rw [Nat.zero_add, h]
  | succ n ih =>
    rw [Nat.succ_add, core_run_succ]
    rw [core_run_succ] at h
    cases hs : step s with
    | next a => rw [hs] at h; exact ih h
    | fault f => rw [hs] at h; cases h
    | refused f => rw [hs] at h; cases h

/-- A master event is the effect on its unit -/
theorem busEvent_master {u : UnitId} {e : BusEvent} (h : isSlaveEvent e = false) (s : State) :
    busEvent u e s = onUnit u (unitEvent e) s := by simp [busEvent, h]

/-- A pending command of an enabled unit runs. -/
theorem commandRuns_of {b : BitVec 5} {x : BusUnit} (h1 : x.con.en = true) (h2 : x.con.cmd &&& b ≠ 0#5) : commandRuns b x = true := by
  simp [commandRuns, isPending, h1, h2]

/-- A slave event that is ready changes its unit alone. -/
theorem slave_step {u : UnitId} {e : BusEvent} {s : State} {rest : List Move} (hr : slaveReady u s) (ha : s.agenda = .bus u e :: rest)
   (he : isSlaveEvent e = true) (hn : slaveEnabled e (getUnit s u) = true) :
   step s = .next (onUnit u (unitEvent e) { s with agenda := rest }) := by
  obtain ⟨hf, h1, h2, h3⟩ := hr
  rw [step_agenda hf ha]
  have : masterBusy u { s with agenda := rest } = masterBusy u s := rfl
  simp [takeMove, busEvent, he, hn, h2, h3, this]

/-- The address compared in the 7-bit role (45 R264), by numbers. -/
theorem hi7 (b : Byte) (a : BitVec 10) : b.extractLsb' 1 7 = a.extractLsb' 0 7 ↔ b.toNat / 2 = a.toNat % 128 := by
  rw [← BitVec.toNat_inj]; simp [BitVec.extractLsb'_toNat, Nat.shiftRight_eq_div_pow]; omega

/-- The direction bit of a write. -/
theorem bit0_false (b : Byte) : b.getLsbD 0 = false ↔ b.toNat % 2 = 0 := by
  simp [BitVec.getLsbD, Nat.testBit_zero]
/-- The direction bit of a read. -/
theorem bit0_true (b : Byte) : b.getLsbD 0 = true ↔ b.toNat % 2 = 1 := by
  simp [BitVec.getLsbD, Nat.testBit_zero]

/-- The first byte of a 10-bit address (45 R266), by numbers. -/
theorem hi10eq (b : Byte) (x : BusUnit) : matchesHigh10 b x = true ↔ b.toNat / 2 = 0b1111000 + x.add.toNat / 256 := by
  simp only [matchesHigh10, Bool.and_eq_true, beq_iff_eq]
  rw [← BitVec.toNat_inj, ← BitVec.toNat_inj]; simp [BitVec.extractLsb'_toNat, Nat.shiftRight_eq_div_pow]; omega

end Sys2Proof.Machine
end

