-- ==== Sys2Proof/Laws/Invariants.lean ====
section
/-! SUPPORT. How each operation on one unit keeps `unitInv` and the stored configuration, and where one engine step leaves
the sequencer: the lemmas that statements about every step cite. -/

namespace Sys2Proof.Machine

/-! ## `unitInv` -/

theorem popcount5_mask (c b : BitVec 5) (h : popcount5 c ≤ 1) : popcount5 (c &&& b) ≤ 1 := by
  revert c b
  decide

/-- A change that keeps the command bits and the code keeps `unitInv`. -/
theorem unitInv_of_eq {x y : BusUnit} (h : unitInv x) (hc : y.con.cmd = x.con.cmd) (hk : y.code = x.code) : unitInv y := by
  simpa only [unitInv, hc, hk] using h

/-- A change that keeps the command bits and records a code other than ARB_LOST and SUCCESS keeps `unitInv`. -/
theorem unitInv_of_code {x y : BusUnit} (h : unitInv x) (hc : y.con.cmd = x.con.cmd) (c : Code) (hk : y.code = c)
    (hn : c ≠ .arbLost ∧ c ≠ .success) : unitInv y := by
  refine ⟨by rw [hc]; exact h.1, ?_, ?_⟩ <;> rw [hk]
  exacts [hn.1, hn.2]

theorem popcount5_zero : popcount5 0#5 ≤ 1 := by decide

theorem unitInv_disable {x : BusUnit} (h : unitInv x) : unitInv (disable x) := ⟨popcount5_zero, h.2⟩

theorem unitInv_conCommandPart {x : BusUnit} (w : BitVec 5) (h : unitInv x) : unitInv (conCommandPart w x) := by
  rcases conCommandPart_cases w x with ⟨_, e⟩ | ⟨_, _, e⟩ | ⟨_, hp, _, _, e⟩ <;> rw [e]
  · exact h
  · exact h
  · exact ⟨hp, h.2⟩

theorem unitInv_conWrite {x : BusUnit} (v : Word) (h : unitInv x) : unitInv (conWrite v x) := by
  apply unitInv_conCommandPart
  simp only [conConfigPart]
  split
  · exact unitInv_disable h
  · exact h

theorem unitInv_trnWrite {x : BusUnit} (v : Word) (h : unitInv x) : unitInv (trnWrite v x) := by
  unfold trnWrite
  split <;> exact h

theorem unitInv_writeOffset {x : BusUnit} (off : BitVec 4) (v : Word) (h : unitInv x) : unitInv (writeOffset off v x) := by
  unfold writeOffset
  split; · exact unitInv_conWrite v h
  split; · exact h
  split; · exact h
  split; · exact h
  split; · exact unitInv_trnWrite v h
  split <;> exact h

theorem unitInv_readEffect {x : BusUnit} (off : BitVec 4) (h : unitInv x) : unitInv (readEffect off x) := by
  unfold readEffect
  split <;> exact h

theorem unitInv_completeCmd {x : BusUnit} (b : BitVec 5) (h : unitInv x) : unitInv (completeCmd b x) :=
  ⟨popcount5_mask _ _ h.1, h.2⟩

theorem unitInv_receiveByte {x : BusUnit} (b : Byte) (h : unitInv x) : unitInv (receiveByte b x) := by
  unfold receiveByte
  split <;> exact h

/-- Every environment event keeps `unitInv`. -/
theorem unitInv_unitEvent {x : BusUnit} (e : BusEvent) (h : unitInv x) : unitInv (unitEvent e x) := by
  cases e with
  | doneSen => simp only [unitEvent, doneSen]; split; exacts [unitInv_completeCmd _ h, h]
  | doneRsen => simp only [unitEvent, doneRsen]; split; exacts [unitInv_completeCmd _ h, h]
  | donePen => simp only [unitEvent, donePen]; split; exacts [unitInv_completeCmd _ h, h]
  | doneXen a => simp only [unitEvent, doneXen]; split; exacts [unitInv_completeCmd (x := { x with stat := _ }) _ h, h]
  | doneRcen b => simp only [unitEvent, doneRcen]; split; exacts [unitInv_completeCmd _ (unitInv_receiveByte b h), h]
  | collide => simp only [unitEvent, collide]; split; exacts [⟨popcount5_zero, h.2⟩, h]
  | sStart r => exact h
  | sStop => exact h
  | sRxByte b =>
    simp only [unitEvent, slaveByte]
    split
    · split
      · simp only [addressByte7]
        repeat' split
        all_goals exact h
      · simp only [addressByte10]
        repeat' split
        all_goals exact h
      · exact h
    · simp only [addressByteLow]
      split <;> exact h
    · exact unitInv_receiveByte b h
    · exact h
    · exact h
  | sTx a => simp only [unitEvent, slaveTx]; split <;> exact h

/-- Every engine step keeps `unitInv`. -/
theorem unitInv_unitAfter {x : BusUnit} (p : Position) (c : BitVec 32) (h : unitInv x) : unitInv (unitAfter p c x) := by
  cases p <;> simp only [unitAfter]
  case claim => split; exacts [unitInv_of_code h rfl .busy rfl (by decide), h]
  case setSen => exact unitInv_conWrite _ h
  case setRsen => exact unitInv_conWrite _ h
  case setPen => exact unitInv_conWrite _ h
  case setXen => exact unitInv_conWrite _ h
  case setRcen => exact unitInv_conWrite _ h
  case setAckdt => exact unitInv_conWrite _ h
  case initDisable => exact unitInv_conWrite _ h
  case initCon => exact unitInv_conWrite _ h
  case loadTrn => exact unitInv_trnWrite _ h
  case release => exact h
  case takeByte => exact h
  case initStore => exact h
  case initBrg => exact h
  case initAdd => exact h
  case settle => exact unitInv_of_code h rfl .idle rfl (by decide)
  case initDone => exact unitInv_of_code h rfl .idle rfl (by decide)
  case checkAck => split; exacts [unitInv_of_code h rfl .dataNack rfl (by decide), h]
  case waitLoad => split; exacts [unitInv_of_code h rfl .timeout rfl (by decide), h]
  case addrNack => split; exacts [unitInv_of_code h rfl .addrNack rfl (by decide), h]
  case waitLoop =>
    repeat' split
    all_goals first
      | exact h
      | exact unitInv_of_code h rfl .busCollision rfl (by decide)
      | exact unitInv_of_code h rfl .rxOverrun rfl (by decide)
      | exact unitInv_of_code h rfl .timeout rfl (by decide)

/-! ## The stored configuration -/

theorem cfg_conWrite (v : Word) (x : BusUnit) : (conWrite v x).cfg = x.cfg ∧ (conWrite v x).cb = x.cb := by
  rw [conWrite_frame]
  exact ⟨rfl, rfl⟩

theorem cfg_trnWrite (v : Word) (x : BusUnit) : (trnWrite v x).cfg = x.cfg ∧ (trnWrite v x).cb = x.cb := by
  unfold trnWrite
  split <;> exact ⟨rfl, rfl⟩

/-- No register write changes the stored configuration or the callback. -/
theorem cfg_writeOffset (off : BitVec 4) (v : Word) (x : BusUnit) :
    (writeOffset off v x).cfg = x.cfg ∧ (writeOffset off v x).cb = x.cb := by
  obtain ⟨y, h, _⟩ := writeOffset_frame off v x
  rw [h]
  exact ⟨rfl, rfl⟩

/-- No environment event changes the stored configuration. -/
theorem cfg_unitEvent (e : BusEvent) (x : BusUnit) : (unitEvent e x).cfg = x.cfg := by
  cases e <;> simp only [unitEvent, doneSen, doneRsen, donePen, doneXen, doneRcen, collide, slaveStart, slaveStop, slaveTx,
    slaveByte, receiveByte, addressByte7, addressByte10, addressByteLow, slaveData] <;> repeat' split
  all_goals rfl

/-- Of the engine steps only INIT's store changes the stored configuration (10_state R49, R51). -/
theorem cfg_unitAfter (p : Position) (c : BitVec 32) (x : BusUnit) :
    (unitAfter p c x).cfg = x.cfg ∨
      ∃ g h, p = .initStore g h ∧ (unitAfter p c x).cfg = g ∧ (unitAfter p c x).cb = h := by
  cases p <;> simp only [unitAfter]
  case initStore g h => exact .inr ⟨g, h, rfl, rfl, rfl⟩
  case setSen => exact .inl (cfg_conWrite _ _).1
  case setRsen => exact .inl (cfg_conWrite _ _).1
  case setPen => exact .inl (cfg_conWrite _ _).1
  case setXen => exact .inl (cfg_conWrite _ _).1
  case setRcen => exact .inl (cfg_conWrite _ _).1
  case setAckdt => exact .inl (cfg_conWrite _ _).1
  case initDisable => exact .inl (cfg_conWrite _ _).1
  case initCon => exact .inl (cfg_conWrite _ _).1
  case loadTrn => exact .inl (cfg_trnWrite _ _).1
  all_goals
    left
    repeat' split
    all_goals first
      | rfl
      | trivial

/-! ## The sequencer -/

/-- One engine step of a command in flight leaves the same command in flight at some position, or none; it leaves it in
a wait only with a counter that is not 0 (42 R191, R192). -/
theorem positionStep_polledOp (u : UnitId) (p : Position) (k : Frame) (s : State) (i : Instr) (p0 : Position) (k0 : Frame)
    (h : s.polledOp = some ⟨i, p0, k0⟩) :
    (positionStep u p k s).polledOp = none ∨ ∃ q l, (positionStep u p k s).polledOp = some ⟨i, q, l⟩ ∧
      (∀ w, q = .waitLoop w → (positionStep u p k s).tcnt ≠ 0#32) := by
  have hg : ∀ (t : State) (q : Position) (l : Frame), t.polledOp = s.polledOp → (∀ w, q ≠ .waitLoop w) →
      (goto q l t).polledOp = none ∨ ∃ q' l', (goto q l t).polledOp = some ⟨i, q', l'⟩ ∧
        (∀ w, q' = .waitLoop w → (goto q l t).tcnt ≠ 0#32) := by
    intro t q l ht hq
    rw [h] at ht
    rw [goto_of_some ht]
    exact .inr ⟨q, l, rfl, fun w hw => absurd hw (hq w)⟩
  have hr : ∀ (t : State) (l : Frame) (ok : Bool) (b : Byte), t.polledOp = s.polledOp →
      (resume l ok b t).polledOp = none ∨ ∃ q' l', (resume l ok b t).polledOp = some ⟨i, q', l'⟩ ∧
        (∀ w, q' = .waitLoop w → (resume l ok b t).tcnt ≠ 0#32) := by
    intro t l ok b ht
    cases l <;> cases ok <;> simp only [resume, sendNext, readNextByte, scanNext] <;> repeat' split
    all_goals first
      | exact .inl rfl
      | exact hg _ _ _ ht (by intro w hw; cases hw)
      | simp_all
  have hw : ∀ (t : State) (w : Waiter) (l : Frame) (ok : Bool), t.polledOp = s.polledOp →
      (waitReturn w l ok t).polledOp = none ∨ ∃ q' l', (waitReturn w l ok t).polledOp = some ⟨i, q', l'⟩ ∧
        (∀ w', q' = .waitLoop w' → (waitReturn w l ok t).tcnt ≠ 0#32) := by
    intro t w l ok ht
    cases w <;> simp only [waitReturn] <;> repeat' split
    all_goals first
      | exact hr _ _ _ _ ht
      | exact hg _ _ _ ht (by intro w hw; cases hw)
  have hq : ∀ (t : State) (w : Waiter) (l : Frame), t.polledOp = s.polledOp → t.tcnt ≠ 0#32 →
      (goto (.waitLoop w) l t).polledOp = none ∨ ∃ q' l', (goto (.waitLoop w) l t).polledOp = some ⟨i, q', l'⟩ ∧
        (∀ w', q' = .waitLoop w' → (goto (.waitLoop w) l t).tcnt ≠ 0#32) := by
    intro t w l ht hc
    rw [h] at ht
    rw [goto_of_some ht]
    exact .inr ⟨_, l, rfl, fun _ _ => hc⟩
  cases p <;> simp only [positionStep, setCommandBit, loadCounter, waitIteration] <;> repeat' split
  all_goals first
    | exact .inl rfl
    | exact hr _ _ _ _ (by simp)
    | exact hw _ _ _ _ (by simp)
    | refine hq _ _ _ (by simp) ?_
    | exact hg _ _ _ (by simp) (by intro w hw; cases hw)
  · rename_i hne
    intro hz
    apply hne
    have hb : waitBudget (getUnit s u) ≤ 0xFFFFFFFF := Nat.min_le_right _ _
    have := congrArg BitVec.toNat hz
    simp only [BitVec.toNat_ofNat] at this
    omega
  · assumption

end Sys2Proof.Machine
end

