-- ==== Sys2Proof/Laws/Runs.lean ====
section
/-! SUPPORT. Runs of a command in flight. `flying` is a state written as its unit, its sequencer position, its counter and its
agenda over a base state; each engine step and each event of the unit's bus is then a rewrite of one `flying` into the
next, and each prompt part of a command (Safety) is one lemma. -/

namespace Sys2Proof.Machine

/-- The state `s` with unit `u` equal to `x`, command `i` in flight at position `p` with frame `k`, counter `c` and agenda `l`. -/
def flying (u : UnitId) (x : BusUnit) (i : Instr) (p : Position) (k : Frame) (c : BitVec 32) (l : List Move) (s : State) :
    State :=
  { putUnit u x s with tcnt := c, polledOp := some ⟨i, p, k⟩, agenda := l }

/-- The state `s` with unit `u` equal to `x`, no command in flight, counter `c`, agenda `l`, and one response more. -/
def landed (u : UnitId) (x : BusUnit) (c : BitVec 32) (l : List Move) (ok : Bool) (f : OutputFields) (s : State) : State :=
  { putUnit u x s with tcnt := c, polledOp := none, agenda := l, out := s.out ++ [.response .polled ⟨ok, false, f⟩] }

/-- A unit on which a command can run to its end on a prompt bus (Safety `masterReady`). -/
abbrev readyUnit (x : BusUnit) : Prop :=
  x.con.en = true ∧ x.con.cmd = 0#5 ∧ x.stat.bcl = false ∧ x.stat.ov = false ∧ x.cfg.timeoutMs ≠ 0#16

section rewrites
variable (u : UnitId) (x : BusUnit) (i : Instr) (p : Position) (k : Frame) (c : BitVec 32) (l : List Move) (s : State)

@[simp] theorem getUnit_flying : getUnit (flying u x i p k c l s) u = x := by cases u <;> rfl
@[simp] theorem tcnt_flying : (flying u x i p k c l s).tcnt = c := rfl
@[simp] theorem polledOp_flying : (flying u x i p k c l s).polledOp = some ⟨i, p, k⟩ := rfl
@[simp] theorem faultMark_flying : (flying u x i p k c l s).faultMark = s.faultMark := by cases u <;> rfl
@[simp] theorem agenda_flying : (flying u x i p k c l s).agenda = l := rfl

@[simp] theorem onUnit_flying (f : BusUnit → BusUnit) :
    onUnit u f (flying u x i p k c l s) = flying u (f x) i p k c l s := by cases u <;> rfl

@[simp] theorem hwWrite_flying (off : BitVec 4) (v : Word) :
    hwWrite u off v (flying u x i p k c l s) = flying u (writeOffset off v x) i p k c l s := by cases u <;> rfl

@[simp] theorem setCommandBit_flying (w : Word) :
    setCommandBit u w (flying u x i p k c l s) = flying u (conWrite (conWord x.con ||| w) x) i p k c l s := by
  cases u <;> rfl

@[simp] theorem goto_flying (q : Position) (k' : Frame) :
    goto q k' (flying u x i p k c l s) = flying u x i q k' c l s := by cases u <;> rfl

@[simp] theorem finish_flying (ok : Bool) (f : OutputFields) :
    finish ok f (flying u x i p k c l s) = landed u x c l ok f s := by cases u <;> rfl

/-- The ENGINE's move runs the position's step. -/
theorem step_flying_engine (hi : unitOf i = u) (hf : faultFree s) :
    step (flying u x i p k c (.engine :: l) s) = .next (positionStep u p k (flying u x i p k c l s)) := by
  rw [step_agenda ((faultMark_flying u x i p k c _ s).trans hf) rfl]
  subst hi
  rfl

/-- A master event of the unit's bus changes the unit. -/
theorem step_flying_bus (hf : faultFree s) (e : BusEvent) (he : isSlaveEvent e = false) :
    step (flying u x i p k c (.bus u e :: l) s) = .next (flying u (unitEvent e x) i p k c l s) := by
  rw [step_agenda ((faultMark_flying u x i p k c _ s).trans hf) rfl]
  show Host.Outcome.next (busEvent u e (flying u x i p k c l s)) = _
  rw [busEvent_master he, onUnit_flying]

end rewrites

/-- A state whose command is handed over is `flying` at once (46 R298). -/
theorem issue_free {i : Instr} {s : State} (h : engineFree s) (p : Position) (k : Frame) :
    issue i p k s =
      positionStep (unitOf i) p k (flying (unitOf i) (getUnit s (unitOf i)) i p k s.tcnt s.agenda s) := by
  have e : flying (unitOf i) (getUnit s (unitOf i)) i p k s.tcnt s.agenda s = { s with polledOp := some ⟨i, p, k⟩ } := by
    cases unitOf i <;> rfl
  rw [e]
  simp [issue, h.1, h.2, engineStep]

/-- Running on from the handed-over command is running the flying command with its first step still to come. -/
theorem run_issue {i : Instr} {s : State} (h : engineFree s) (hf : faultFree s) (p : Position) (k : Frame) (n : Nat) :
    core.run n (issue i p k s) =
      core.run (n + 1) (flying (unitOf i) (getUnit s (unitOf i)) i p k s.tcnt (.engine :: s.agenda) s) := by
  rw [issue_free h, core_run_next (step_flying_engine _ _ _ _ _ _ _ _ rfl hf)]

/-- A landed command, written as an update of the state it was handed over in. -/
theorem landed_eq {u : UnitId} {s : State} (h : s.polledOp = none) (f : BusUnit → BusUnit) (c : BitVec 32) (l : List Move)
    (ok : Bool) (o : OutputFields) :
    landed u (f (getUnit s u)) c l ok o s =
      { onUnit u f s with tcnt := c, agenda := l, out := s.out ++ [.response .polled ⟨ok, false, o⟩] } := by
  cases u <;> simp [landed, onUnit, putUnit, getUnit, h]

/-- `masterReady` by its parts. -/
theorem masterReady_parts {u : UnitId} {s : State} (h : masterReady u s) :
    faultFree s ∧ engineFree s ∧ readyUnit (getUnit s u) :=
  ⟨h.1, ⟨h.2.1, h.2.2.1⟩, h.2.2.2.1, h.2.2.2.2.1, h.2.2.2.2.2.1, h.2.2.2.2.2.2.1, h.2.2.2.2.2.2.2⟩

/-! ## Steps of a flying command -/

section steps
variable {u : UnitId} {x : BusUnit} {i : Instr} {p0 : Position} {k0 : Frame} {c : BitVec 32} {l : List Move} {s : State}

/-- On a unit with nothing pending and BCL clear, setting one command bit makes it pending (40 R133). -/
theorem setCommandBit_ready (b : BitVec 5) (w : Word) (hw : w.extractLsb' 5 11 = 0#11) (hb : w.extractLsb' 0 5 = b)
    (h0 : b ≠ 0#5) (h1 : popcount5 b ≤ 1) (hc : x.con.cmd = 0#5) (hbcl : x.stat.bcl = false) :
    conWrite (conWord x.con ||| w) x =
      { x with con := { x.con with cmd := b }, txsr := if b = cmdXen then x.trn else x.txsr } := by
  rw [conWrite_setBits w hw, hb, hc, BitVec.zero_or]
  rcases conCommandPart_cases b x with ⟨hn, _⟩ | ⟨_, hn, _⟩ | ⟨_, _, _, _, e⟩
  · rw [hc, BitVec.not_zero, BitVec.and_allOnes] at hn
    exact absurd hn h0
  · rw [hc, BitVec.not_zero, BitVec.and_allOnes] at hn
    rcases hn with hn | hn | hn
    · omega
    · simp [pending, hc] at hn
    · rw [hbcl] at hn
      cases hn
  · exact e

/-- Completing the one command bit that was set leaves the unit as before it was set. -/
theorem completeCmd_set (b : BitVec 5) (hc : x.con.cmd = 0#5) :
    completeCmd b { x with con := { x.con with cmd := b } } = x := by
  have hb : b &&& ~~~b = x.con.cmd := by
    rw [hc]
    revert b
    decide
  simp only [completeCmd, hb]

/-- The load of a configured timeout goes to the wait loop (42 R191). -/
theorem waitBudget_ne {x : BusUnit} (h : x.cfg.timeoutMs ≠ 0#16) : waitBudget x ≠ 0 := by
  have hk := Config.ticksPerMs.pos
  have ht : 0 < x.cfg.timeoutMs.toNat := by
    rcases Nat.eq_zero_or_pos x.cfg.timeoutMs.toNat with h0 | h0
    · exact absurd (BitVec.eq_of_toNat_eq (by simpa using h0)) h
    · exact h0
  have := Nat.mul_pos hk ht
  unfold waitBudget
  omega

theorem waitLoad_flying (w : Waiter) (k : Frame) (h : x.cfg.timeoutMs ≠ 0#16) :
    positionStep u (.waitLoad w) k (flying u x i p0 k0 c l s) =
      flying u x i (.waitLoop w) k (BitVec.ofNat 32 (waitBudget x)) l s := by
  simp only [positionStep, loadCounter, getUnit_flying, waitBudget_ne h, if_false]
  cases u <;> rfl

/-- The first iteration with nothing pending and no error flag returns success (42 R192). -/
theorem waitLoop_flying (w : Waiter) (k : Frame) (hb : x.stat.bcl = false) (ho : x.stat.ov = false) (hc : x.con.cmd = 0#5) :
    positionStep u (.waitLoop w) k (flying u x i p0 k0 c l s) =
      waitReturn w k true (flying u { x with witer := x.witer + 1 } i p0 k0 c l s) := by
  simp [positionStep, waitIteration, hb, ho, pending, hc]

end steps

/-! ## Prompt commands: a command bit set, completed, waited for -/

section prompt
variable {u : UnitId} {x : BusUnit} {i : Instr} {k : Frame} {c : BitVec 32} {l : List Move} {s : State}

/-- One engine step, one event, one counter load, one iteration (Safety `promptCommand`). `y` is the unit with the command
bit set, `z` the unit after the event. -/
theorem run_promptCommand (hi : unitOf i = u) (hf : faultFree s) (p : Position) (w : Waiter) (e : BusEvent) {y z : BusUnit}
    (he : isSlaveEvent e = false)
    (hp : ∀ l, positionStep u p k (flying u x i p k c l s) = flying u y i (.waitLoad w) k c l s)
    (hz : unitEvent e y = z) (ht : z.cfg.timeoutMs ≠ 0#16) (hb : z.stat.bcl = false) (ho : z.stat.ov = false)
    (hc : z.con.cmd = 0#5) :
    core.run 4 (flying u x i p k c (promptCommand u e ++ l) s) =
      .next (waitReturn w k true
        (flying u { z with witer := z.witer + 1 } i (.waitLoop w) k (BitVec.ofNat 32 (waitBudget z)) l s)) := by
  simp only [promptCommand, List.cons_append, List.nil_append]
  rw [core_run_next (step_flying_engine u x i p k c _ s hi hf), hp, core_run_next (step_flying_bus u y i _ k c _ s hf e he),
    hz, core_run_next (step_flying_engine u z i _ k c _ s hi hf), waitLoad_flying w k ht,
    core_run_next (step_flying_engine u z i _ k _ _ s hi hf), waitLoop_flying w k hb ho hc, core_run_zero]

/-- A prompt START after its claim (42 R196). -/
theorem run_promptSen (hi : unitOf i = u) (hf : faultFree s) (h : readyUnit x) :
    core.run 4 (flying u x i .setSen k c (promptCommand u .doneSen ++ l) s) =
      .next (resume k true 0 (flying u { x with trace := x.trace ++ [.start], witer := x.witer + 1 } i (.waitLoop .start) k
        (BitVec.ofNat 32 (waitBudget x)) l s)) := by
  obtain ⟨hen, hcmd, hbcl, hov, ht⟩ := h
  rw [run_promptCommand (y := { x with con := { x.con with cmd := cmdSen } })
    (z := { x with trace := x.trace ++ [.start] }) hi hf .setSen .start .doneSen rfl ?_ ?_ ht hbcl hov hcmd]
  · rfl
  · intro l
    simp only [positionStep, setCommandBit_flying, goto_flying]
    rw [setCommandBit_ready cmdSen 0x0001 rfl rfl (by decide) (by decide) hcmd hbcl]
    rfl
  · simp only [unitEvent, doneSen]
    refine (if_pos (by exact commandRuns_of (by exact hen) (show cmdSen &&& cmdSen ≠ 0#5 by decide))).trans ?_
    exact congrArg (addTrace _) (completeCmd_set (x := x) cmdSen hcmd)

/-- A prompt RESTART (42 R198). -/
theorem run_promptRsen (hi : unitOf i = u) (hf : faultFree s) (h : readyUnit x) :
    core.run 4 (flying u x i .setRsen k c (promptCommand u .doneRsen ++ l) s) =
      .next (resume k true 0 (flying u { x with trace := x.trace ++ [.restart], witer := x.witer + 1 } i
        (.waitLoop .restart) k (BitVec.ofNat 32 (waitBudget x)) l s)) := by
  obtain ⟨hen, hcmd, hbcl, hov, ht⟩ := h
  rw [run_promptCommand (y := { x with con := { x.con with cmd := cmdRsen } })
    (z := { x with trace := x.trace ++ [.restart] }) hi hf .setRsen .restart .doneRsen rfl ?_ ?_ ht hbcl hov hcmd]
  · rfl
  · intro l
    simp only [positionStep, setCommandBit_flying, goto_flying]
    rw [setCommandBit_ready cmdRsen 0x0002 rfl rfl (by decide) (by decide) hcmd hbcl]
    rfl
  · simp only [unitEvent, doneRsen]
    refine (if_pos (by exact commandRuns_of (by exact hen) (show cmdRsen &&& cmdRsen ≠ 0#5 by decide))).trans ?_
    exact congrArg (addTrace _) (completeCmd_set (x := x) cmdRsen hcmd)

/-- A prompt STOP up to its settling step (42 R199). -/
theorem run_promptPen (hi : unitOf i = u) (hf : faultFree s) (h : readyUnit x) :
    core.run 4 (flying u x i .setPen k c (promptCommand u .donePen ++ l) s) =
      .next (flying u { x with trace := x.trace ++ [.stop], witer := x.witer + 1 } i .settle k
        (BitVec.ofNat 32 (waitBudget x)) l s) := by
  obtain ⟨hen, hcmd, hbcl, hov, ht⟩ := h
  rw [run_promptCommand (y := { x with con := { x.con with cmd := cmdPen } })
    (z := { x with trace := x.trace ++ [.stop] }) hi hf .setPen .stop .donePen rfl ?_ ?_ ht hbcl hov hcmd]
  · simp only [waitReturn, if_true, goto_flying]
    rfl
  · intro l
    simp only [positionStep, setCommandBit_flying, goto_flying]
    rw [setCommandBit_ready cmdPen 0x0004 rfl rfl (by decide) (by decide) hcmd hbcl]
    rfl
  · simp only [unitEvent, donePen]
    refine (if_pos (by exact commandRuns_of (by exact hen) (show cmdPen &&& cmdPen ≠ 0#5 by decide))).trans ?_
    exact congrArg (addTrace _) (completeCmd_set (x := x) cmdPen hcmd)

/-- A prompt transmit after TRN is loaded, up to the check of ACKSTAT (43 R215). -/
theorem run_promptXen (hi : unitOf i = u) (hf : faultFree s) (h : readyUnit x) (a : Bool) :
    core.run 4 (flying u x i .setXen k c (promptCommand u (.doneXen a) ++ l) s) =
      .next (flying u { x with
        txsr := x.trn, stat := { x.stat with ackstat := a }, trace := x.trace ++ [.tx x.trn a], witer := x.witer + 1 } i
        .checkAck k (BitVec.ofNat 32 (waitBudget x)) l s) := by
  obtain ⟨hen, hcmd, hbcl, hov, ht⟩ := h
  rw [run_promptCommand (y := { x with con := { x.con with cmd := cmdXen }, txsr := x.trn })
    (z := { x with txsr := x.trn, stat := { x.stat with ackstat := a }, trace := x.trace ++ [.tx x.trn a] })
    hi hf .setXen .writeByte (.doneXen a) rfl ?_ ?_ ht hbcl hov hcmd]
  · simp only [waitReturn, if_true, goto_flying]
    rfl
  · intro l
    simp only [positionStep, setCommandBit_flying, goto_flying]
    rw [setCommandBit_ready cmdXen 0x0010 rfl rfl (by decide) (by decide) hcmd hbcl]
    rfl
  · simp only [unitEvent, doneXen]
    refine (if_pos (by exact commandRuns_of (by exact hen) (show cmdXen &&& cmdXen ≠ 0#5 by decide))).trans ?_
    exact congrArg (addTrace _) (completeCmd_set (x := { x with txsr := x.trn, stat := { x.stat with ackstat := a } }) cmdXen hcmd)

/-- A prompt receive with RBF 0 after ACKDT is set, up to the read of RCV (43 R217). -/
theorem run_promptRcen (hi : unitOf i = u) (hf : faultFree s) (h : readyUnit x) (hr : x.stat.rbf = false) (b : Byte) :
    core.run 4 (flying u x i .setRcen k c (promptCommand u (.doneRcen b) ++ l) s) =
      .next (flying u { x with
        rxsr := b, rcv := b, stat := { x.stat with rbf := true }, trace := x.trace ++ [.rx b x.con.ackdt],
        witer := x.witer + 1 } i (.takeByte true) k (BitVec.ofNat 32 (waitBudget x)) l s) := by
  obtain ⟨hen, hcmd, hbcl, hov, ht⟩ := h
  rw [run_promptCommand (y := { x with con := { x.con with cmd := cmdRcen } })
    (z := { x with rxsr := b, rcv := b, stat := { x.stat with rbf := true }, trace := x.trace ++ [.rx b x.con.ackdt] })
    hi hf .setRcen .readByte (.doneRcen b) rfl ?_ ?_ ht hbcl hov hcmd]
  · simp only [waitReturn, goto_flying]
    rfl
  · intro l
    simp only [positionStep, setCommandBit_flying, goto_flying]
    rw [setCommandBit_ready cmdRcen 0x0008 rfl rfl (by decide) (by decide) hcmd hbcl]
    rfl
  · simp only [unitEvent, doneRcen]
    refine (if_pos (by exact commandRuns_of (by exact hen) (show cmdRcen &&& cmdRcen ≠ 0#5 by decide))).trans ?_
    rw [receiveByte, if_neg (by simp [hr])]
    exact congrArg (addTrace _) (completeCmd_set (x := { x with rxsr := b, rcv := b, stat := { x.stat with rbf := true } }) cmdRcen hcmd)

/-! ## Prompt primitives -/

/-- A prompt START (42 R196) of a free unit: the busy flag is claimed first. -/
theorem run_promptStart (hi : unitOf i = u) (hf : faultFree s) (h : readyUnit x) (hb : x.busy = false) :
    core.run 5 (flying u x i .claim k c (promptStart u ++ l) s) =
      .next (resume k true 0 (flying u { x with busy := true, trace := x.trace ++ [.start], witer := x.witer + 1 } i
        (.waitLoop .start) k (BitVec.ofNat 32 (waitBudget x)) l s)) := by
  have e : positionStep u .claim k (flying u x i .claim k c (promptCommand u .doneSen ++ l) s) =
      flying u { x with busy := true } i .setSen k c (promptCommand u .doneSen ++ l) s := by
    simp only [positionStep, getUnit_flying, hb, onUnit_flying, goto_flying]
    rfl
  have h' : readyUnit { x with busy := true } := h
  rw [promptStart, List.cons_append, core_run_next (step_flying_engine u x i _ k c _ s hi hf), e,
    run_promptSen hi hf h']
  rfl

/-- A prompt STOP (42 R199). -/
theorem run_promptStop (hi : unitOf i = u) (hf : faultFree s) (h : readyUnit x) :
    core.run 5 (flying u x i .setPen k c (promptStop u ++ l) s) =
      .next (resume k true 0 (flying u { x with
        busy := false, code := .idle, trace := x.trace ++ [.stop], witer := x.witer + 1 } i .settle k
        (BitVec.ofNat 32 (waitBudget x)) l s)) := by
  rw [promptStop, List.append_assoc, core_run_add (run_promptPen hi hf h) 1, List.singleton_append,
    core_run_next (step_flying_engine _ _ _ _ _ _ _ _ hi hf), core_run_zero]
  simp only [positionStep, onUnit_flying]

/-- With nothing pending and BCL clear, TRN takes the byte (40 R142). -/
theorem trnWrite_ready (hc : x.con.cmd = 0#5) (hb : x.stat.bcl = false) (d : Byte) :
    trnWrite (d.setWidth 16) x = { x with trn := d } := by
  have e : (d.setWidth 16).extractLsb' 0 8 = d := by
    apply BitVec.eq_of_getLsbD_eq
    intro j hj
    simp only [BitVec.getLsbD_extractLsb', BitVec.getLsbD_setWidth]
    simp [hj]
    intro h
    omega
  simp [trnWrite, isPending, hc, hb, e]

/-- A prompt WRITE_BYTE answered with `a` (43 R215, R216). -/
theorem run_promptWriteByte (hi : unitOf i = u) (hf : faultFree s) (h : readyUnit x) (d : Byte) (a : Bool) :
    core.run 6 (flying u x i (.loadTrn d) k c (promptWriteByte u a ++ l) s) =
      .next (resume k (!a) 0 (flying u { x with
        trn := d, txsr := d, stat := { x.stat with ackstat := a }, code := if a then .dataNack else x.code,
        trace := x.trace ++ [.tx d a], witer := x.witer + 1 } i .checkAck k (BitVec.ofNat 32 (waitBudget x)) l s)) := by
  have e : ∀ l, positionStep u (.loadTrn d) k (flying u x i (.loadTrn d) k c l s) =
      flying u { x with trn := d } i .setXen k c l s := by
    intro l
    simp only [positionStep, hwWrite_flying, goto_flying]
    exact congrArg (fun y => flying u y i _ k c l s) (trnWrite_ready h.2.1 h.2.2.1 d)
  have h' : readyUnit { x with trn := d } := h
  simp only [promptWriteByte, List.cons_append, List.append_assoc]
  rw [core_run_next (step_flying_engine u x i _ k c _ s hi hf), e, core_run_add (run_promptXen hi hf h' a) 1,
    core_run_next (step_flying_engine _ _ _ _ _ _ _ _ hi hf), core_run_zero]
  cases a <;> simp only [positionStep, getUnit_flying, onUnit_flying] <;> rfl

/-- The word of CON with ACKDT replaced keeps the other fields (43 R217). -/
theorem conFields_ackdt (r : Con) (a : Bool) :
    conFields ((conWord r &&& ~~~0x0020#16) ||| (if a then 0x0020#16 else 0#16)) r = { r with ackdt := a } := by
  have hm : ((conWord r &&& ~~~0x0020#16) ||| (if a then 0x0020#16 else 0#16)).extractLsb' 11 2 = roleBits r.mode := by
    rw [← conWord_mode r]
    apply BitVec.eq_of_getLsbD_eq
    intro j hj
    simp only [BitVec.getLsbD_extractLsb', BitVec.getLsbD_or, BitVec.getLsbD_and]
    obtain rfl | rfl : j = 0 ∨ j = 1 := by omega
    all_goals cases a <;> simp
  have hk : ∀ j, j ≠ 5 → j < 16 →
      ((conWord r &&& ~~~0x0020#16) ||| (if a then 0x0020#16 else 0#16)).getLsbD j = (conWord r).getLsbD j := by
    intro j h5 h16
    simp only [BitVec.getLsbD_or, BitVec.getLsbD_and]
    interval_cases j <;> cases a <;> simp_all
  have h5 : ((conWord r &&& ~~~0x0020#16) ||| (if a then 0x0020#16 else 0#16)).getLsbD 5 = a := by
    simp only [BitVec.getLsbD_or, BitVec.getLsbD_and]
    cases a <;> simp
  simp only [conFields, hm, roleOfBits_roleBits, Option.getD_some, h5, hk 15 (by decide) (by decide),
    hk 13 (by decide) (by decide), hk 9 (by decide) (by decide), hk 8 (by decide) (by decide), hk 7 (by decide) (by decide),
    conWord_en, conWord_sie, conWord_slw, conWord_smen, conWord_gcen]

/-- Setting ACKDT changes nothing else: no command bit of the written word is new (43 R217). -/
theorem conWrite_ackdt (a : Bool) (y : BusUnit) :
    conWrite ((conWord y.con &&& ~~~0x0020#16) ||| (if a then 0x0020#16 else 0#16)) y =
      { y with con := { y.con with ackdt := a } } := by
  have hl : ((conWord y.con &&& ~~~0x0020#16) ||| (if a then 0x0020#16 else 0#16)).extractLsb' 0 5 = y.con.cmd := by
    rw [← conWord_cmd y.con]
    apply BitVec.eq_of_getLsbD_eq
    intro j hj
    simp only [BitVec.getLsbD_extractLsb', BitVec.getLsbD_or, BitVec.getLsbD_and]
    interval_cases j <;> cases a <;> simp
  have he := congrArg Con.en (conFields_ackdt y.con a)
  simp only [conFields] at he
  have hz : ∀ w : BitVec 5, w &&& ~~~w = 0#5 := by decide
  simp only [conWrite, conConfigPart, conFields_ackdt, hl, he]
  cases y.con.en <;> simp [conCommandPart, hz]

/-- A prompt READ_BYTE with RBF 0 that receives `b` and answers with `a` (43 R217). -/
theorem run_promptReadByte (hi : unitOf i = u) (hf : faultFree s) (h : readyUnit x) (hr : x.stat.rbf = false) (a : Bool)
    (b : Byte) :
    core.run 6 (flying u x i (.setAckdt a) k c (promptReadByte u b ++ l) s) =
      .next (resume k true b (flying u { x with
        con := { x.con with ackdt := a }, rxsr := b, rcv := b, trace := x.trace ++ [.rx b a], witer := x.witer + 1 } i
        (.takeByte true) k (BitVec.ofNat 32 (waitBudget x)) l s)) := by
  have e : ∀ l, positionStep u (.setAckdt a) k (flying u x i (.setAckdt a) k c l s) =
      flying u { x with con := { x.con with ackdt := a } } i .setRcen k c l s := by
    intro l
    simp only [positionStep, getUnit_flying, hwWrite_flying, goto_flying]
    exact congrArg (fun y => flying u y i _ k c l s) (conWrite_ackdt a x)
  have h' : readyUnit { x with con := { x.con with ackdt := a } } := h
  simp only [promptReadByte, List.cons_append, List.append_assoc]
  rw [core_run_next (step_flying_engine u x i _ k c _ s hi hf), e, core_run_add (run_promptRcen hi hf h' hr b) 1,
    core_run_next (step_flying_engine _ _ _ _ _ _ _ _ hi hf), core_run_zero]
  simp only [positionStep, getUnit_flying, onUnit_flying, clearRbf]
  have hs : { x.stat with rbf := false } = x.stat := by rw [← hr]
  rw [hs]
  rfl

end prompt

end Sys2Proof.Machine
end

