-- ==== Sys2Proof/Laws/Waits.lean ====
section
/-! SUPPORT. Engine writes of CON that are refused (20_memory R79, 40 R133), waits that fail by a collision or on a silent bus
(42 R192 to R194), and the STOP a failed composite issues (44 R231). -/

namespace Sys2Proof.Machine

/-- A state whose unit, position, counter and agenda are read off is `flying`. -/
theorem flying_self {u : UnitId} {s : State} {i p k l} (h : s.polledOp = some ⟨i, p, k⟩) (ha : s.agenda = l) : s = flying u (getUnit s u) i p k s.tcnt l s := by
  obtain ⟨⟩ := s; subst ha; cases u <;> simp_all [flying, putUnit, getUnit]

section landed
variable (u : UnitId) (x : BusUnit) (c : BitVec 32) (l : List Move) (ok : Bool) (f : OutputFields) (s : State)

@[simp] theorem getUnit_landed : getUnit (landed u x c l ok f s) u = x := by cases u <;> rfl
@[simp] theorem polledOp_landed : (landed u x c l ok f s).polledOp = none := rfl
@[simp] theorem agenda_landed : (landed u x c l ok f s).agenda = l := rfl
@[simp] theorem out_landed : (landed u x c l ok f s).out = s.out ++ [.response .polled ⟨ok, false, f⟩] := by cases u <;> rfl
@[simp] theorem out_flying (i : Instr) (p : Position) (k : Frame) : (flying u x i p k c l s).out = s.out := by
  cases u <;> rfl

end landed

/-- A command bit that is not pending is refused with IWCOL while another is pending or BCL is set (40 R133). -/
theorem setCommandBit_refused {x : BusUnit} (b : BitVec 5) (w : Word) (hw : w.extractLsb' 5 11 = 0#11)
    (hb : w.extractLsb' 0 5 = b) (hn : b &&& ~~~x.con.cmd ≠ 0#5) (hr : x.con.cmd ≠ 0#5 ∨ x.stat.bcl = true) :
    conWrite (conWord x.con ||| w) x = setIwcol x := by
  have h2 : ∀ c d : BitVec 5, (c ||| d) &&& ~~~c = d &&& ~~~c := by decide
  rw [conWrite_setBits w hw, hb]
  rcases conCommandPart_cases (x.con.cmd ||| b) x with ⟨h, _⟩ | ⟨_, _, e⟩ | ⟨_, _, hc, hbcl, _⟩
  · exact absurd ((h2 _ _).symm.trans h) hn
  · exact e
  · rcases hr with hr | hr
    · exact absurd hc hr
    · rw [hbcl] at hr
      cases hr

/-- Command bit `j` is new where it is not pending. -/
theorem commandBit_new {c : BitVec 5} (j : Fin 5) (h : c.getLsbD j = false) : (1#5 <<< j.val) &&& ~~~c ≠ 0#5 := by
  revert c j
  decide

/-- A command bit that is already pending is not new, so nothing is written (40 R133). -/
theorem setCommandBit_same {x : BusUnit} (b : BitVec 5) (w : Word) (hw : w.extractLsb' 5 11 = 0#11)
    (hb : w.extractLsb' 0 5 = b) (hc : x.con.cmd = b) : conWrite (conWord x.con ||| w) x = x := by
  have h2 : ∀ c : BitVec 5, (c ||| c) &&& ~~~c = 0#5 := by decide
  rw [conWrite_setBits w hw, hb, hc]
  rcases conCommandPart_cases (b ||| b) x with ⟨_, e⟩ | ⟨h, _⟩ | ⟨h, _⟩
  · exact e
  all_goals exact absurd (by rw [hc]; exact h2 b) h

/-- A wait iteration with a command pending and no error flag counts down (42 R192, R193). -/
theorem waitLoop_pending {u x i p0 k0 c l} {s : State} (w : Waiter) (k : Frame) (hb : x.stat.bcl = false) (ho : x.stat.ov = false) (hc : x.con.cmd ≠ 0#5) :
    positionStep u (.waitLoop w) k (flying u x i p0 k0 c l s) =
      if c - 1 = 0#32 then waitReturn w k false (flying u { x with code := .timeout, witer := x.witer + 1 } i p0 k0 (c - 1) l s)
      else flying u { x with witer := x.witer + 1 } i (.waitLoop w) k (c - 1) l s := by
  simp only [positionStep, waitIteration, getUnit_flying, hb, ho, pending, onUnit_flying, Bool.false_eq_true, if_false]
  simp [hc]
  split
  · cases u <;> simp_all [flying, onUnit, putUnit, getUnit, setCode]
  · cases u <;> simp_all [flying, goto, putUnit]

/-- A wait of `n + 1` iterations on a silent bus times out at the last, the command still pending (42 R193, R194). -/
theorem run_waitTimesOut {u : UnitId} {i : Instr} {s : State} (hi : unitOf i = u) (hf : faultFree s) (w : Waiter)
    (k : Frame) (l : List Move) (n : Nat) :
    ∀ (x : BusUnit) (c : BitVec 32), x.stat.bcl = false → x.stat.ov = false → x.con.cmd ≠ 0#5 → c.toNat = n + 1 →
    core.run (n + 1) (flying u x i (.waitLoop w) k c (List.replicate (n + 1) .engine ++ l) s) =
      .next (waitReturn w k false
        (flying u { x with code := .timeout, witer := x.witer + (n + 1) } i (.waitLoop w) k 0#32 l s)) := by
  induction n with
  | zero =>
    intro x c h1 h2 h3 h4
    have h5 : c - 1 = 0#32 := by bv_omega
    rw [List.replicate_succ, List.cons_append, core_run_next (step_flying_engine _ _ _ _ _ _ _ _ hi hf),
      waitLoop_pending _ _ h1 h2 h3, if_pos h5, h5, core_run_zero]
    rfl
  | succ n ih =>
    intro x c h1 h2 h3 h4
    have h5 : c - 1 ≠ 0#32 := by bv_omega
    have h6 : (c - 1).toNat = n + 1 := by bv_omega
    rw [List.replicate_succ, List.cons_append, core_run_next (step_flying_engine _ _ _ _ _ _ _ _ hi hf),
      waitLoop_pending _ _ h1 h2 h3, if_neg h5, ih { x with witer := x.witer + 1 } _ h1 h2 h3 h6]
    simp only [Nat.add_assoc, Nat.add_comm 1]

/-- The unit after a failing wait of a command on `x`: BCL was set, or the count ran out (42 R192, R193). -/
def waitFailed (collides : Bool) (x : BusUnit) : BusUnit :=
  { x with code := failingCode collides, witer := x.witer + if collides then 1 else waitBudget x }

/-- The counter after a failing wait. -/
def failingCount (collides : Bool) (x : BusUnit) : BitVec 32 :=
  if collides then BitVec.ofNat 32 (waitBudget x) else 0#32

/-- The wait of a command from its counter load, which fails: by BCL, or on a silent bus with a command pending (42 R191 to
R194). -/
theorem run_failingWait {u : UnitId} {x : BusUnit} {i : Instr} {p : Position} {k : Frame} {c : BitVec 32} {l : List Move}
    {s : State} (hi : unitOf i = u) (hf : faultFree s) (w : Waiter) (hp : p = .waitLoad w) (ht : x.cfg.timeoutMs ≠ 0#16)
    (collides : Bool) (hb : x.stat.bcl = collides) (ho : collides = false → x.stat.ov = false ∧ x.con.cmd ≠ 0#5) :
    core.run (failingWait (waitBudget x) collides).length
        (flying u x i p k c (failingWait (waitBudget x) collides ++ l) s) =
      .next (waitReturn w k false
        (flying u (waitFailed collides x) i (.waitLoop w) k (failingCount collides x) l s)) := by
  subst hp
  cases collides
  · obtain ⟨n, hn⟩ : ∃ n, waitBudget x = n + 1 := ⟨waitBudget x - 1, by have := waitBudget_ne ht; omega⟩
    have hle : waitBudget x ≤ 0xFFFFFFFF := Nat.min_le_right _ _
    simp only [failingWait, Bool.false_eq_true, if_false, List.length_replicate]
    rw [Nat.add_comm 1, List.replicate_succ, List.cons_append, core_run_next (step_flying_engine _ _ _ _ _ _ _ _ hi hf),
      waitLoad_flying _ _ ht, hn, run_waitTimesOut hi hf w k l n _ _ hb (ho rfl).1 (ho rfl).2
        (by rw [BitVec.toNat_ofNat, Nat.mod_eq_of_lt (by omega)])]
    simp only [waitFailed, failingCount, failingCode, Bool.false_eq_true, if_false, hn]
  · show core.run 2 (flying u x i (.waitLoad w) k c (.engine :: .engine :: l) s) = _
    rw [core_run_next (step_flying_engine _ _ _ _ _ _ _ _ hi hf), waitLoad_flying _ _ ht,
      core_run_next (step_flying_engine _ _ _ _ _ _ _ _ hi hf), core_run_zero]
    simp only [positionStep, waitIteration, getUnit_flying, hb, if_true, onUnit_flying]
    rfl

/-- The engine's write of a command bit has left `y`, with no event of the bus in the `m` engine steps that follow: the wait
fails by BCL, or because a command stays pending (70 R360). -/
theorem run_refusedCommand {u : UnitId} {x y : BusUnit} {i : Instr} {p : Position} {k : Frame} {c : BitVec 32}
    {l : List Move} {s : State} (m : Nat) (hi : unitOf i = u) (hf : faultFree s) (w : Waiter)
    (hp : ∀ l, positionStep u p k (flying u x i p k c l s) = flying u y i (.waitLoad w) k c l s)
    (ht : y.cfg.timeoutMs ≠ 0#16) (collides : Bool) (hb : y.stat.bcl = collides)
    (ho : collides = false → y.stat.ov = false ∧ y.con.cmd ≠ 0#5) (hm : m = 1 + (failingWait (waitBudget y) collides).length) :
    core.run m (flying u x i p k c (List.replicate m .engine ++ l) s) =
      .next (waitReturn w k false
        (flying u (waitFailed collides y) i (.waitLoop w) k (failingCount collides y) l s)) := by
  have e := run_failingWait (x := y) (k := k) (c := c) (l := l) hi hf w rfl ht collides hb ho
  have hr : failingWait (waitBudget y) collides = List.replicate (failingWait (waitBudget y) collides).length .engine := by
    simp only [failingWait, List.length_replicate]
  rw [hm, Nat.add_comm 1, List.replicate_succ, List.cons_append, core_run_next (step_flying_engine _ _ _ _ _ _ _ _ hi hf),
    hp, ← hr, e]

/-- The unit after a command that was accepted, leaving `y`, has failed by its wait: a collision aborted it (40 R155), or it
is still pending (42 R194). -/
def commandFailed (collides : Bool) (y : BusUnit) : BusUnit :=
  waitFailed collides { y with
    con := { y.con with cmd := if collides then 0#5 else y.con.cmd }, stat := { y.stat with bcl := collides }
    trace := y.trace ++ if collides then [.col] else [] }

/-- One engine step sets a command bit, leaving `y`, and the wait of the command fails (Safety `failingCommand`). -/
theorem run_failingCommand {u : UnitId} {x y : BusUnit} {i : Instr} {p : Position} {k : Frame} {c : BitVec 32}
    {l : List Move} {s : State} (hi : unitOf i = u) (hf : faultFree s) (w : Waiter)
    (hp : ∀ l, positionStep u p k (flying u x i p k c l s) = flying u y i (.waitLoad w) k c l s)
    (hen : y.con.en = true) (hc : y.con.cmd ≠ 0#5) (hb : y.stat.bcl = false) (ho : y.stat.ov = false)
    (ht : y.cfg.timeoutMs ≠ 0#16) (collides : Bool) :
    core.run (failingCommand u (waitBudget y) collides).length
        (flying u x i p k c (failingCommand u (waitBudget y) collides ++ l) s) =
      .next (waitReturn w k false
        (flying u (commandFailed collides y) i (.waitLoop w) k (failingCount collides y) l s)) := by
  cases collides
  · have e := run_failingWait (x := y) (k := k) (c := c) (l := l) hi hf w rfl ht false hb fun _ => ⟨ho, hc⟩
    have hy : commandFailed false y = waitFailed false y := by
      have h1 : { y.stat with bcl := false } = y.stat := by rw [← hb]
      simp [commandFailed, h1]
    rw [hy]
    simp only [failingCommand, Bool.false_eq_true, if_false, List.nil_append, List.cons_append, List.length_cons]
    rw [core_run_next (step_flying_engine _ _ _ _ _ _ _ _ hi hf), hp, e]
  · have hz : unitEvent .collide y = { y with
        con := { y.con with cmd := 0#5 }, stat := { y.stat with bcl := true }, trace := y.trace ++ [.col] } := by
      have : (y.con.en && pending y) = true := by simp [hen, pending, hc]
      simp only [unitEvent, collide, this, if_true, addTrace]
      rfl
    have e := run_failingWait (u := u) (x := unitEvent .collide y) (k := k) (c := c) (l := l) hi hf w rfl
      (by rw [hz]; exact ht) true (by rw [hz]) (fun h => by cases h)
    have hw : waitBudget (unitEvent .collide y) = waitBudget y := by rw [hz]; rfl
    rw [hw] at e
    rw [show failingCommand u (waitBudget y) true =
        .engine :: .bus u .collide :: failingWait (waitBudget y) true from rfl, List.cons_append, List.cons_append,
      List.length_cons, List.length_cons, core_run_next (step_flying_engine _ _ _ _ _ _ _ _ hi hf), hp,
      core_run_next (step_flying_bus _ _ _ _ _ _ _ _ hf _ rfl), e]
    simp only [commandFailed, hz, if_true]
    rfl

/-- A command on a silent bus is the ENGINE's steps alone: the bit, the counter load, the iterations. -/
theorem failingCommand_silent (u : UnitId) (n : Nat) : failingCommand u n false = List.replicate (2 + n) .engine := by
  rw [show 2 + n = (1 + n) + 1 by omega, List.replicate_succ]
  rfl

/-- A STOP on a silent bus times out, PEN still pending (42 R199). -/
theorem run_silentStop {u : UnitId} {x : BusUnit} {i : Instr} {k : Frame} {c : BitVec 32} {l : List Move} {s : State} {n : Nat}
    (hi : unitOf i = u) (hf : faultFree s) (h : readyUnit x) (hn : n = waitBudget x) :
    core.run (2 + n) (flying u x i .setPen k c (List.replicate (2 + n) .engine ++ l) s) =
      .next (resume k false 0 (flying u (commandFailed false { x with con := { x.con with cmd := cmdPen } }) i
        (.waitLoop .stop) k 0#32 l s)) := by
  obtain ⟨hen, hcmd, hbcl, hov, ht⟩ := h
  have e := run_failingCommand (x := x) (y := { x with con := { x.con with cmd := cmdPen } }) (k := k) (c := c) (p := .setPen)
    (l := l) hi hf .stop
    (fun l => by
      simp only [positionStep, setCommandBit_flying, goto_flying]
      rw [setCommandBit_ready cmdPen 0x0004 rfl rfl (by decide) (by decide) hcmd hbcl]
      rfl) hen (show cmdPen ≠ 0#5 by decide) hbcl hov ht false
  rw [show waitBudget { x with con := { x.con with cmd := cmdPen } } = waitBudget x from rfl, failingCommand_silent,
    List.length_replicate] at e
  rw [hn]
  exact e

/-- The STOP of a composite on a silent bus times out, and its ok is the composite's (44 R231). -/
theorem stopTimesOut_flying {u : UnitId} {x : BusUnit} {i : Instr} {k : Frame} {c : BitVec 32} {s : State} (hi : unitOf i = u)
    (hf : faultFree s) (h : readyUnit x) (hb : x.busy = true) (fields : OutputFields)
    (hk : ∀ t, resume k false 0 t = finish false fields t) (more : List Move) :
    stopTimesOut u fields (flying u x i .setPen k c more s) more := by
  simp only [stopTimesOut, getUnit_flying, out_flying]
  rintro rest rfl
  rw [run_silentStop hi hf h rfl, hk, finish_flying]
  refine ⟨_, rfl, ?_⟩
  rw [getUnit_landed]
  exact ⟨by simp [commandFailed, waitFailed], hb, rfl, rfl, rfl, rfl, rfl, out_landed ..⟩

/-- The one STOP of a failed composite, prompt or timed out (44 R231, R238). -/
theorem failsByOneStop_flying {u : UnitId} {x : BusUnit} {i : Instr} {c : BitVec 32} {s : State} (hi : unitOf i = u)
    (hf : faultFree s) (h : readyUnit x) (hb : x.busy = true) (fields : OutputFields) (more : List Move) :
    failsByOneStop u fields (flying u x i .setPen (.failStop fields) c more s) more := by
  refine ⟨by rw [getUnit_flying]; exact hb, ?_, stopTimesOut_flying hi hf h hb fields (fun _ => rfl) more⟩
  rintro rest rfl
  rw [run_promptStop hi hf h, out_flying, getUnit_flying]
  simp only [resume, finish_flying]
  refine ⟨_, rfl, ?_⟩
  rw [getUnit_landed]
  exact ⟨rfl, rfl, rfl, h.2.1, rfl, rfl, rfl, out_landed ..⟩

/-- The STOP of a composite failed by a wait is refused, and its wait fails as the first did (44 R231, 40 R133). -/
theorem failsByRefusedStop_flying {u : UnitId} {x : BusUnit} {i : Instr} {c : BitVec 32} {s : State} (hi : unitOf i = u)
    (hf : faultFree s) (ht : x.cfg.timeoutMs ≠ 0#16) (hbusy : x.busy = true) (bit : BitVec 5) (hn : bit ≠ 0#5)
    (hbit : cmdPen &&& ~~~bit ≠ 0#5) (collides : Bool) (hcode : x.code = failingCode collides)
    (hbcl : x.stat.bcl = collides) (hov : x.stat.ov = false) (hcmd : x.con.cmd = if collides then 0#5 else bit)
    (fields : OutputFields) (more : List Move) :
    failsByRefusedStop u bit collides fields (flying u x i .setPen (.failStop fields) c more s) more := by
  simp only [failsByRefusedStop, getUnit_flying, out_flying]
  refine ⟨hbusy, hcode, hbcl, hcmd, ?_⟩
  rintro rest rfl
  have hr : conWrite (conWord x.con ||| 0x0004) x = setIwcol x := by
    refine setCommandBit_refused cmdPen _ rfl rfl ?_ ?_
    · rw [hcmd]
      cases collides
      · exact hbit
      · exact show cmdPen &&& ~~~0#5 ≠ 0#5 by decide
    · cases collides
      · exact .inl (by rw [hcmd]; exact hn)
      · exact .inr hbcl
  have e := run_failingWait (u := u) (x := setIwcol x) (i := i) (k := .failStop fields) (c := c) (l := rest) hi hf .stop rfl
    ht collides hbcl (by rintro rfl; exact ⟨hov, by simp only [setIwcol, hcmd]; exact hn⟩)
  rw [show waitBudget (setIwcol x) = waitBudget x from rfl] at e
  rw [List.cons_append, Nat.add_comm, core_run_next (step_flying_engine _ _ _ _ _ _ _ _ hi hf)]
  simp only [positionStep, setCommandBit_flying, goto_flying]
  rw [hr, e]
  simp only [waitReturn, Bool.false_eq_true, if_false, resume, finish_flying]
  refine ⟨_, rfl, ?_⟩
  rw [getUnit_landed]
  exact ⟨rfl, hcmd, rfl, hbusy, rfl, rfl, rfl, out_landed ..⟩

/-! ## Parts of a composite whose wait fails (44 R231, R232, R234) -/

section parts
variable {u : UnitId} {x : BusUnit} {i : Instr} {p0 : Position} {k : Frame} {c : BitVec 32} {l : List Move} {s : State}

/-- Loading TRN on a ready unit (43 R215). -/
theorem loadTrn_flying (d : Byte) (h : readyUnit x) :
    positionStep u (.loadTrn d) k (flying u x i p0 k c l s) = flying u { x with trn := d } i .setXen k c l s := by
  simp only [positionStep, hwWrite_flying, goto_flying]
  exact congrArg (fun y => flying u y i _ k c l s) (trnWrite_ready h.2.1 h.2.2.1 d)

/-- Setting XEN on a ready unit (43 R215). -/
theorem setXen_flying (h : readyUnit x) :
    positionStep u .setXen k (flying u x i .setXen k c l s) =
      flying u { x with con := { x.con with cmd := cmdXen }, txsr := x.trn } i (.waitLoad .writeByte) k c l s := by
  simp only [positionStep, setCommandBit_flying, goto_flying]
  rw [setCommandBit_ready cmdXen 0x0010 rfl rfl (by decide) (by decide) h.2.1 h.2.2.1]
  rfl

/-- What the failed command of a part leaves: the code of its wait, and a STOP that is refused. -/
theorem failsByRefusedStop_failed (hi : unitOf i = u) (hf : faultFree s) {y : BusUnit} (h : readyUnit x) (hb : x.busy = true)
    (bit : BitVec 5) (hn : bit ≠ 0#5) (hbit : cmdPen &&& ~~~bit ≠ 0#5) (collides : Bool) (hc : y.cfg = x.cfg)
    (hy : y.busy = x.busy ∧ y.code = failingCode collides ∧ y.stat.bcl = collides ∧ y.stat.ov = x.stat.ov ∧
      y.con.cmd = if collides then 0#5 else bit) (fields : OutputFields) (more : List Move) :
    failsByRefusedStop u bit collides fields (flying u y i .setPen (.failStop fields) c more s) more :=
  failsByRefusedStop_flying hi hf (by rw [hc]; exact h.2.2.2.2) (hy.1.trans hb) bit hn hbit collides hy.2.1 hy.2.2.1
    (hy.2.2.2.1.trans h.2.2.2.1) hy.2.2.2.2 fields more

/-- A data or index byte, or the RESTART, whose wait fails: the STOP follows at once (44 R233 to R236). -/
theorem run_failedPart (w : Waiter) {p : Position} (bit : BitVec 5) (fields : OutputFields) (collides : Bool)
    (more : List Move) {n : Nat} (hn : n = waitBudget x) (hi : unitOf i = u) (hf : faultFree s) (h : readyUnit x)
    (hb : x.busy = true) {tx : Byte}
    (hp : ∀ l, positionStep u p k (flying u x i p k c l s) =
      flying u { x with con := { x.con with cmd := bit }, txsr := tx } i (.waitLoad w) k c l s)
    (h0 : bit ≠ 0#5) (hbit : cmdPen &&& ~~~bit ≠ 0#5)
    (hw : ∀ t, waitReturn w k false t = goto .setPen (.failStop fields) t) :
    ∃ m, core.run (failingCommand u n collides ++ []).length
        (flying u x i p k c (failingCommand u n collides ++ [] ++ more) s) = .next m ∧
      (getUnit m u).trace = x.trace ++ (if collides then [.col] else []) ∧ m.out = s.out ∧
      failsByRefusedStop u bit collides fields m more := by
  subst hn
  have e := run_failingCommand (l := more) hi hf w hp h.1 h0 h.2.2.1 h.2.2.2.1 h.2.2.2.2 collides
  rw [hw, goto_flying] at e
  rw [List.append_nil]
  exact ⟨_, e, by rw [getUnit_flying]; rfl, out_flying .., failsByRefusedStop_failed hi hf h hb bit h0 hbit collides (by rfl)
    (by exact ⟨rfl, rfl, rfl, rfl, rfl⟩) fields more⟩

/-- An address byte whose wait fails: AddrNack leaves the code of the wait, and the STOP follows (44 R232). -/
theorem run_failedAddress (fields : OutputFields) (collides : Bool) (more : List Move) {n : Nat} (hn : n = waitBudget x)
    (hi : unitOf i = u) (hf : faultFree s) (h : readyUnit x) (hb : x.busy = true)
    (hw : ∀ t, resume k false 0 t = goto .addrNack (.failStop fields) t) :
    ∃ m, core.run (failingCommand u n collides ++ [Move.engine]).length
        (flying u x i .setXen k c (failingCommand u n collides ++ [.engine] ++ more) s) = .next m ∧
      (getUnit m u).trace = x.trace ++ (if collides then [.col] else []) ∧ m.out = s.out ∧
      failsByRefusedStop u cmdXen collides fields m more := by
  subst hn
  have e := run_failingCommand (k := k) (c := c) (l := .engine :: more) hi hf .writeByte (fun l => setXen_flying h) h.1
    (show cmdXen ≠ 0#5 by decide) h.2.2.1 h.2.2.2.1 h.2.2.2.2 collides
  rw [waitReturn, if_neg Bool.false_ne_true, hw, goto_flying] at e
  have e2 : ∀ (y : BusUnit) (d : BitVec 32), y.code = failingCode collides →
      core.run 1 (flying u y i .addrNack (.failStop fields) d (.engine :: more) s) =
        .next (flying u y i .setPen (.failStop fields) d more s) := by
    intro y d hy
    rw [core_run_next (step_flying_engine _ _ _ _ _ _ _ _ hi hf), core_run_zero]
    simp only [positionStep, onUnit_flying, goto_flying, hy]
    rw [if_neg (by cases collides <;> decide)]
  rw [List.length_append, List.append_assoc]
  exact ⟨_, (core_run_add e 1).trans (e2 _ _ rfl), by rw [getUnit_flying]; rfl, out_flying ..,
    failsByRefusedStop_failed hi hf h hb cmdXen (by decide) (by decide) collides (by rfl)
      (by exact ⟨rfl, rfl, rfl, rfl, rfl⟩) fields more⟩

/-- A read whose wait fails: the byte RCV holds is read, and the STOP follows (43 R218, 44 R234). -/
theorem run_failedRead (out : List Byte) (j : Nat) (collides : Bool) (more : List Move) {n : Nat} (hn : n = waitBudget x)
    (hi : unitOf i = u) (hf : faultFree s) (h : readyUnit x) (hb : x.busy = true) :
    ∃ m, core.run (failingCommand u n collides ++ [Move.engine]).length
        (flying u x i .setRcen (.readNext j out) c (failingCommand u n collides ++ [.engine] ++ more) s) = .next m ∧
      (getUnit m u).trace = x.trace ++ (if collides then [.col] else []) ∧ m.out = s.out ∧
      failsByRefusedStop u cmdRcen collides (.out (out ++ [x.rcv])) m more := by
  subst hn
  have e := run_failingCommand (x := x) (y := { x with con := { x.con with cmd := cmdRcen } }) (p := .setRcen)
    (k := .readNext j out) (c := c) (l := .engine :: more) hi hf .readByte
    (fun l => by
      simp only [positionStep, setCommandBit_flying, goto_flying]
      rw [setCommandBit_ready cmdRcen 0x0008 rfl rfl (by decide) (by decide) h.2.1 h.2.2.1]
      rfl) h.1 (show cmdRcen ≠ 0#5 by decide) h.2.2.1 h.2.2.2.1 h.2.2.2.2 collides
  rw [waitReturn, goto_flying] at e
  have e2 : ∀ y d, core.run 1 (flying u y i (.takeByte false) (.readNext j out) d (.engine :: more) s) =
      .next (flying u (clearRbf y) i .setPen (.failStop (.out (out ++ [y.rcv]))) d more s) := by
    intro y d
    rw [core_run_next (step_flying_engine _ _ _ _ _ _ _ _ hi hf), core_run_zero]
    simp only [positionStep, onUnit_flying, getUnit_flying, resume, Bool.false_eq_true, if_false, goto_flying]
  rw [List.length_append, List.append_assoc]
  exact ⟨_, (core_run_add e 1).trans (e2 _ _), by rw [getUnit_flying]; rfl, out_flying ..,
    failsByRefusedStop_failed hi hf h hb cmdRcen (by decide) (by decide) collides (by rfl)
      (by exact ⟨rfl, rfl, rfl, rfl, rfl⟩) _ more⟩

end parts

end Sys2Proof.Machine
end

