-- ==== Sys2Proof/Laws/Loops.lean ====
section
/-! SUPPORT. Runs of the composites' loops on a prompt bus (44 R233 to R237), each by induction over the list, the count or
the addresses: one lemma runs the first items of a loop, and the whole loop and the loop that stops early follow from it. -/

namespace Sys2Proof.Machine

/-- Setting ACKDT (43 R217). -/
theorem setAckdt_flying {u x i p0 k0 c l s} (a : Bool) (k : Frame) : positionStep u (.setAckdt a) k (flying u x i p0 k0 c l s) =
      flying u { x with con := { x.con with ackdt := a } } i .setRcen k c l s := by
  simp only [positionStep, getUnit_flying, hwWrite_flying, goto_flying]
  exact congrArg (fun y => flying u y i _ k c l s) (conWrite_ackdt a x)

/-- START on a busy unit fails in its first step (42 R197). -/
theorem claim_busy {u x i p0 k0 c l s} (k : Frame) (hb : x.busy = true) :
    positionStep u .claim k (flying u x i p0 k0 c l s) =
      resume k false 0 (flying u { x with code := .busy } i p0 k0 c l s) := by
  rw [positionStep, getUnit_flying, if_pos hb, onUnit_flying]
  rfl

/-- What the loops do at their next item and at their end (44 R233, R234). -/
theorem sendNext_nil (s : State) : sendNext [] s = goto .setPen (.lastStop .none) s := rfl
theorem sendNext_cons (b : Byte) (bs : List Byte) (s : State) :
    sendNext (b :: bs) s = goto (.loadTrn b) (.writeNext bs) s := rfl
theorem readNextByte_zero (out : List Byte) (s : State) : readNextByte 0 out s = goto .setPen (.lastStop (.out out)) s := rfl
theorem readNextByte_succ (n : Nat) (out : List Byte) (s : State) :
    readNextByte (n + 1) out s = goto (.setAckdt (n == 0)) (.readNext n out) s := rfl

/-- A write's unit after the bytes `bs` were sent and acknowledged (44 R233). -/
def bytesSent (bs : List Byte) (x : BusUnit) : BusUnit :=
  { x with
    trn := bs.getLastD x.trn, txsr := bs.getLastD x.txsr
    stat := { x.stat with ackstat := if bs = [] then x.stat.ackstat else false }
    trace := x.trace ++ bs.map (fun b => .tx b false), witer := x.witer + bs.length }

/-- The first bytes of a write, all acknowledged; the bytes `later` are still to send (44 R233). -/
theorem run_writePrefix {u : UnitId} {i : Instr} {s : State} (hi : unitOf i = u) (hf : faultFree s) (later : List Byte)
    (l : List Move) (bs : List Byte) :
    ∀ (x : BusUnit) (p : Position) (k : Frame) (c : BitVec 32), readyUnit x → c = BitVec.ofNat 32 (waitBudget x) → ∃ p' k',
      core.run (6 * bs.length) (sendNext (bs ++ later) (flying u x i p k c
        ((List.replicate bs.length (promptWriteByte u false)).flatten ++ l) s)) =
      .next (sendNext later (flying u (bytesSent bs x) i p' k' c l s)) := by
  induction bs with
  | nil =>
    intro x p k c h hc
    refine ⟨p, k, ?_⟩
    have e : bytesSent [] x = x := by simp [bytesSent]
    rw [e]
    rfl
  | cons b bs ih =>
    intro x p k c h hc
    obtain ⟨p', k', e⟩ := ih { x with
      trn := b, txsr := b, stat := { x.stat with ackstat := false }, trace := x.trace ++ [.tx b false],
      witer := x.witer + 1 } .checkAck (.writeNext (bs ++ later)) c (by exact h) (by rw [hc]; rfl)
    refine ⟨p', k', ?_⟩
    simp only [List.length_cons, List.replicate_succ, List.flatten_cons, List.append_assoc, List.cons_append]
    rw [sendNext_cons, goto_flying, show 6 * (bs.length + 1) = 6 + 6 * bs.length by omega, core_run_add (run_promptWriteByte hi hf h b false)]
    simp only [Bool.not_false, resume, if_true, Bool.false_eq_true, if_false, ← hc]
    rw [e]
    congr 3
    cases bs <;> (simp [bytesSent, List.getLast?_cons]; try omega)

/-- The data bytes of a write, all acknowledged, and its STOP (44 R233). -/
theorem run_writeLoop {u : UnitId} {i : Instr} {s : State} (hi : unitOf i = u) (hf : faultFree s) (bs : List Byte)
    (x : BusUnit) (p : Position) (k : Frame) (c : BitVec 32) (l : List Move) (h : readyUnit x)
    (hc : c = BitVec.ofNat 32 (waitBudget x)) :
    core.run (6 * bs.length + 5) (sendNext bs (flying u x i p k c
        ((List.replicate bs.length (promptWriteByte u false)).flatten ++ (promptStop u ++ l)) s)) =
      .next (landed u { bytesSent bs x with
        busy := false, code := .idle, trace := (bytesSent bs x).trace ++ [.stop], witer := (bytesSent bs x).witer + 1 } c l
        true .none s) := by
  obtain ⟨p', k', e⟩ := run_writePrefix hi hf [] (promptStop u ++ l) bs x p k c h hc
  rw [List.append_nil] at e
  rw [core_run_add e, sendNext_nil, goto_flying, run_promptStop hi hf (by exact h), hc]
  simp only [resume, finish_flying]
  rfl

/-- The data bytes of a write up to the one that is refused, its STOP next (44 R231, R233). -/
theorem run_writeLoopRefused {u : UnitId} {i : Instr} {s : State} (hi : unitOf i = u) (hf : faultFree s) (b : Byte)
    (later : List Byte) (l : List Move) (bs : List Byte) (x : BusUnit) (p : Position) (k : Frame) (c : BitVec 32)
    (h : readyUnit x) (hc : c = BitVec.ofNat 32 (waitBudget x)) : ∃ y c',
      core.run (6 * bs.length + 6) (sendNext (bs ++ b :: later) (flying u x i p k c
        ((List.replicate bs.length (promptWriteByte u false)).flatten ++ (promptWriteByte u true ++ l)) s)) =
      .next (flying u y i .setPen (.failStop .none) c' l s) ∧ readyUnit y ∧ y.busy = x.busy ∧ y.code = .dataNack ∧
      y.trace = x.trace ++ bs.map (fun b => .tx b false) ++ [.tx b true] ∧ y.witer = x.witer + bs.length + 1 := by
  obtain ⟨p', k', e⟩ := run_writePrefix hi hf (b :: later) (promptWriteByte u true ++ l) bs x p k c h hc
  rw [core_run_add e, sendNext_cons, goto_flying, run_promptWriteByte hi hf (by exact h) b true]
  simp only [Bool.not_true, resume, Bool.false_eq_true, if_false, goto_flying, if_true]
  exact ⟨_, _, rfl, h, rfl, rfl, rfl, rfl⟩

/-- A refused address byte of a composite after its START, up to its STOP: ADDR_NACK is recorded (44 R232). -/
theorem run_addressRefused {u : UnitId} {x : BusUnit} {i : Instr} {k : Frame} {c : BitVec 32} {l : List Move} {s : State}
    (hi : unitOf i = u) (hf : faultFree s) (h : readyUnit x) (d : Byte) (fields : OutputFields)
    (hk : ∀ t, resume k false 0 t = goto .addrNack (.failStop fields) t) :
    core.run 7 (flying u x i (.loadTrn d) k c (promptWriteByte u true ++ (.engine :: l)) s) =
      .next (flying u { x with
        trn := d, txsr := d, stat := { x.stat with ackstat := true }, code := .addrNack,
        trace := x.trace ++ [.tx d true], witer := x.witer + 1 } i .setPen (.failStop fields)
        (BitVec.ofNat 32 (waitBudget x)) l s) := by
  rw [show 7 = 6 + 1 from rfl, core_run_add (run_promptWriteByte hi hf h d true)]
  simp only [Bool.not_true, hk, goto_flying, if_true]
  rw [core_run_next (step_flying_engine _ _ _ _ _ _ _ _ hi hf), core_run_zero]
  simp only [positionStep, onUnit_flying, goto_flying]
  rfl

/-- A prompt READ_BYTE is six moves. -/
theorem length_promptReads (u : UnitId) (ds : List Byte) : (ds.flatMap (promptReadByte u)).length = 6 * ds.length := by
  induction ds with
  | nil => rfl
  | cons d ds ih =>
    simp [promptReadByte, promptCommand]
    omega

/-- A read's unit after the bytes `ds` were received, the last of them answered with NACK when `last` (44 R234). -/
def bytesRead (ds : List Byte) (last : Bool) (x : BusUnit) : BusUnit :=
  { x with
    con := { x.con with ackdt := if ds = [] then x.con.ackdt else last }
    rxsr := ds.getLastD x.rxsr, rcv := ds.getLastD x.rcv
    trace := x.trace ++ (if last then readTrace ds else ds.map (fun d => .rx d false)), witer := x.witer + ds.length }

/-- The first reads of a READ_DATA; `n` bytes are still to read (44 R234). -/
theorem run_readPrefix {u : UnitId} {i : Instr} {s : State} (hi : unitOf i = u) (hf : faultFree s) (n : Nat) (l : List Move)
    (ds : List Byte) :
    ∀ (x : BusUnit) (p : Position) (k : Frame) (c : BitVec 32) (out : List Byte), readyUnit x →
      (ds = [] ∨ x.stat.rbf = false) → c = BitVec.ofNat 32 (waitBudget x) → ∃ p' k',
      core.run (6 * ds.length) (readNextByte (ds.length + n) out
        (flying u x i p k c (ds.flatMap (promptReadByte u) ++ l) s)) =
      .next (readNextByte n (out ++ ds) (flying u (bytesRead ds (n == 0) x) i p' k' c l s)) := by
  induction ds with
  | nil =>
    intro x p k c out h hr hc
    refine ⟨p, k, ?_⟩
    have e : bytesRead [] (n == 0) x = x := by cases n <;> simp [bytesRead, readTrace]
    rw [e, List.append_nil, List.length_nil, Nat.zero_add]
    rfl
  | cons b ds ih =>
    intro x p k c out h hr hc
    have hr' : x.stat.rbf = false := by simpa using hr
    obtain ⟨p', k', e⟩ := ih { x with
      con := { x.con with ackdt := ds.length + n == 0 }, rxsr := b, rcv := b,
      trace := x.trace ++ [.rx b (ds.length + n == 0)], witer := x.witer + 1 } (.takeByte true)
      (.readNext (ds.length + n) out) c (out ++ [b]) (by exact h) (.inr hr') (by rw [hc]; rfl)
    refine ⟨p', k', ?_⟩
    rw [show (b :: ds).length + n = ds.length + n + 1 by simp; omega]
    simp only [List.length_cons, List.flatMap_cons, List.append_assoc]
    rw [readNextByte_succ, goto_flying, show 6 * (ds.length + 1) = 6 + 6 * ds.length by omega, core_run_add (run_promptReadByte hi hf h hr' _ b)]
    simp only [resume, if_true, ← hc]
    rw [e]
    simp only [List.append_assoc, List.singleton_append]
    congr 3
    cases n <;> cases ds <;> simp [bytesRead, readTrace, List.getLast?_cons] <;> omega

/-- The reads of a READ_DATA and its STOP (44 R234). -/
theorem run_readLoop {u : UnitId} {i : Instr} {s : State} (hi : unitOf i = u) (hf : faultFree s) (ds : List Byte)
    (x : BusUnit) (p : Position) (k : Frame) (c : BitVec 32) (l : List Move) (out : List Byte) (h : readyUnit x)
    (hr : x.stat.rbf = false) (hc : c = BitVec.ofNat 32 (waitBudget x)) :
    core.run (6 * ds.length + 5) (readNextByte ds.length out
        (flying u x i p k c (ds.flatMap (promptReadByte u) ++ (promptStop u ++ l)) s)) =
      .next (landed u { bytesRead ds true x with
        busy := false, code := .idle, trace := (bytesRead ds true x).trace ++ [.stop],
        witer := (bytesRead ds true x).witer + 1 } c l true (.out (out ++ ds)) s) := by
  obtain ⟨p', k', e⟩ := run_readPrefix hi hf 0 (promptStop u ++ l) ds x p k c out h (.inr hr) hc
  rw [Nat.add_zero] at e
  rw [core_run_add e, readNextByte_zero, goto_flying, run_promptStop hi hf (by exact h), hc]
  simp only [resume, finish_flying]
  rfl

/-- The unit after a probe of `a` that was acknowledged exactly when `ack` (44 R237). -/
def probed (a : BitVec 7) (ack : Bool) (x : BusUnit) : BusUnit :=
  { x with
    trn := addrByte (a.setWidth 8) false, txsr := addrByte (a.setWidth 8) false
    stat := { x.stat with ackstat := !ack }, busy := false, code := .idle
    trace := x.trace ++ [.start, .tx (addrByte (a.setWidth 8) false) (!ack), .stop], witer := x.witer + 3 }

/-- One prompt probe of a scan (44 R237). -/
theorem run_probe {u : UnitId} {i : Instr} {s : State} (hi : unitOf i = u) (hf : faultFree s) (x : BusUnit) (c : BitVec 32)
    (l : List Move) (h : readyUnit x) (hb : x.busy = false) (a : BitVec 7) (m : Byte) (found : Bool)
    (list : List (BitVec 7)) (ack : Bool) : ∃ p k,
    core.run (promptProbe u ack).length
        (flying u x i .claim (.scanStart a m found list) c (promptProbe u ack ++ l) s) =
      .next (scanNext a m (found || ack) (if ack && decide (list.length < m.toNat) then list ++ [a] else list)
        (flying u (probed a ack x) i p k (BitVec.ofNat 32 (waitBudget x)) l s)) := by
  have hr2 : readyUnit { x with busy := true, trace := x.trace ++ [.start], witer := x.witer + 1 } := h
  cases ack
  · have hl : (promptProbe u false).length = 5 + (6 + (1 + 5)) := rfl
    have ht : promptProbe u false ++ l = promptStart u ++ (promptWriteByte u true ++ (.engine :: (promptStop u ++ l))) := by simp [promptProbe]
    rw [hl, ht, core_run_add (run_promptStart hi hf h hb)]
    simp only [resume, if_true, goto_flying]
    rw [core_run_add (run_promptWriteByte hi hf hr2 _ true)]
    simp only [Bool.not_true, resume, Bool.false_eq_true, if_false, goto_flying, if_true]
    rw [Nat.add_comm 1 5, core_run_next (step_flying_engine _ _ _ _ _ _ _ _ hi hf)]
    simp only [positionStep, onUnit_flying, goto_flying, if_true]
    rw [run_promptStop hi hf (by exact h)]
    simp only [resume, Bool.false_eq_true, if_false]
    refine ⟨.settle, .scanStop a m found list false, ?_⟩
    simp [probed, setCode, waitBudget]
  · have hl : (promptProbe u true).length = 5 + (6 + 5) := rfl
    have ht : promptProbe u true ++ l = promptStart u ++ (promptWriteByte u false ++ (promptStop u ++ l)) := by simp [promptProbe]
    rw [hl, ht, core_run_add (run_promptStart hi hf h hb)]
    simp only [resume, if_true, goto_flying]
    rw [core_run_add (run_promptWriteByte hi hf hr2 _ false)]
    simp only [Bool.not_false, resume, if_true, goto_flying]
    rw [run_promptStop hi hf (by exact h)]
    simp only [resume, if_true]
    refine ⟨.settle, .scanStop a m found list true, ?_⟩
    simp [probed, waitBudget]

/-- The `n` addresses from `a` on. -/
def addrsFrom (a : Nat) (n : Nat) : List (BitVec 7) := (List.range' a n).map (BitVec.ofNat 7)

/-- A scan's list `list` with the addresses of `as` it adds to it, its capacity being `m` (44 R237). -/
def scanned (present : BitVec 7 → Bool) (m : Byte) (list as : List (BitVec 7)) : List (BitVec 7) :=
  list ++ (as.filter present).take (m.toNat - list.length)

/-- One probe adds its address to the list when it is acknowledged and there is room (44 R237). -/
theorem scanned_cons (present : BitVec 7 → Bool) (m : Byte) (list as : List (BitVec 7)) (a : BitVec 7) :
    scanned present m list (a :: as) =
      scanned present m (if present a && decide (list.length < m.toNat) then list ++ [a] else list) as := by
  unfold scanned
  cases hp : present a
  · simp [hp]
  · by_cases hh : list.length < m.toNat
    · obtain ⟨j, hj⟩ : ∃ j, m.toNat - list.length = j + 1 := ⟨m.toNat - list.length - 1, by omega⟩
      have : m.toNat - (list.length + 1) = j := by omega
      simp [hp, hh, hj, this]
    · have : m.toNat - list.length = 0 := by omega
      simp [hp, hh, this]

/-- The list after two stretches of a scan. -/
theorem scanned_append (present : BitVec 7 → Bool) (m : Byte) (bs as : List (BitVec 7)) :
    ∀ list, scanned present m (scanned present m list as) bs = scanned present m list (as ++ bs) := by
  induction as with
  | nil => intro list; simp [scanned]
  | cons a as ih => intro list; rw [scanned_cons present m list as a, ih, List.cons_append, scanned_cons present m list _ a]

/-- The trace of the probes of the addresses `as` (44 R237). -/
def scanTrace (present : BitVec 7 → Bool) (as : List (BitVec 7)) : List Sym :=
  as.flatMap (fun a => [.start, .tx (addrByte (a.setWidth 8) false) (!present a), .stop])

/-- The first `n` probes of a scan that goes on to address `a + n` (44 R237). -/
theorem run_scanPrefix {u : UnitId} {i : Instr} {s : State} (present : BitVec 7 → Bool) (hi : unitOf i = u)
    (hf : faultFree s) (m : Byte) (l : List Move) (n : Nat) :
    ∀ (x : BusUnit) (a : Nat) (found : Bool) (list : List (BitVec 7)) (c : BitVec 32), a + n ≤ 126 → readyUnit x →
      x.busy = false → ∃ y c',
      core.run ((addrsFrom a n).flatMap (fun a => promptProbe u (present a))).length
        (flying u x i .claim (.scanStart (BitVec.ofNat 7 a) m found list) c
          ((addrsFrom a n).flatMap (fun a => promptProbe u (present a)) ++ l) s) =
      .next (flying u y i .claim (.scanStart (BitVec.ofNat 7 (a + n)) m (found || (addrsFrom a n).any present)
        (scanned present m list (addrsFrom a n))) c' l s) ∧
      readyUnit y ∧
      y = { x with
        trn := y.trn, txsr := y.txsr, stat := { x.stat with ackstat := y.stat.ackstat }, busy := false, code := y.code,
        trace := x.trace ++ scanTrace present (addrsFrom a n), witer := x.witer + 3 * n } := by
  induction n with
  | zero =>
    intro x a found list c ha h hb
    refine ⟨x, c, ?_, h, ?_⟩
    · simp only [addrsFrom, List.range'_zero, List.map_nil, List.flatMap_nil, List.length_nil, List.nil_append,
        List.any_nil, Bool.or_false, scanned, List.filter_nil, List.take_nil, List.append_nil, Nat.add_zero]
      rfl
    · simp [scanTrace, addrsFrom, ← hb]
  | succ n ih =>
    intro x a found list c ha h hb
    have e : addrsFrom a (n + 1) = BitVec.ofNat 7 a :: addrsFrom (a + 1) n := by
      simp only [addrsFrom, List.range'_succ, List.map_cons]
    have e1 : BitVec.ofNat 7 a + 1 = BitVec.ofNat 7 (a + 1) := by
      apply BitVec.eq_of_toNat_eq
      simp [BitVec.toNat_add]
    obtain ⟨p, k, hp⟩ := run_probe hi hf x c ((addrsFrom (a + 1) n).flatMap (fun a => promptProbe u (present a)) ++ l) h hb
      (BitVec.ofNat 7 a) m found list (present (BitVec.ofNat 7 a))
    obtain ⟨y, c', h1, h2, h3⟩ := ih (probed (BitVec.ofNat 7 a) (present (BitVec.ofNat 7 a)) x) (a + 1)
      (found || present (BitVec.ofNat 7 a))
      (if present (BitVec.ofNat 7 a) && decide (list.length < m.toNat) then list ++ [BitVec.ofNat 7 a] else list)
      (BitVec.ofNat 32 (waitBudget x)) (by omega) (by exact h) rfl
    refine ⟨y, c', ?_, h2, ?_⟩
    · rw [e]
      simp only [List.flatMap_cons, List.length_append, List.append_assoc]
      rw [core_run_add hp, scanNext, if_pos (by simp; omega), goto_flying, e1, h1, scanned_cons]
      simp only [List.any_cons, Bool.or_assoc, show a + 1 + n = a + (n + 1) by omega]
    · rw [h3, e]
      simp only [probed, scanTrace, List.flatMap_cons, List.append_assoc,
        show x.witer + 3 + 3 * n = x.witer + 3 * (n + 1) by omega]

/-- The probes of a scan from address `a` to 126 (44 R237). -/
theorem run_scan {u : UnitId} {i : Instr} {s : State} (present : BitVec 7 → Bool) (hi : unitOf i = u) (hf : faultFree s)
    (n : Nat) (x : BusUnit) (a : Nat) (m : Byte) (found : Bool) (list : List (BitVec 7)) (c : BitVec 32) (l : List Move)
    (ha : a + n = 126) (h : readyUnit x) (hb : x.busy = false) :
    core.run ((addrsFrom a (n + 1)).flatMap (fun a => promptProbe u (present a))).length
        (flying u x i .claim (.scanStart (BitVec.ofNat 7 a) m found list) c
          ((addrsFrom a (n + 1)).flatMap (fun a => promptProbe u (present a)) ++ l) s) =
      .next (landed u { x with
        trn := addrByte 126 false, txsr := addrByte 126 false, stat := { x.stat with ackstat := !present 126 },
        busy := false, code := .idle, trace := x.trace ++ scanTrace present (addrsFrom a (n + 1)),
        witer := x.witer + 3 * (n + 1) } (BitVec.ofNat 32 (waitBudget x)) l (found || (addrsFrom a (n + 1)).any present)
        (.found (scanned present m list (addrsFrom a (n + 1)))) s) := by
  have e : addrsFrom a (n + 1) = addrsFrom a n ++ [126#7] := by
    simp only [addrsFrom, List.range'_1_concat, List.map_append, List.map_cons, List.map_nil, ha]
  obtain ⟨y, c', h1, h2, h3⟩ := run_scanPrefix present hi hf m (promptProbe u (present 126#7) ++ l) n x a found list c
    (by omega) h hb
  rw [ha] at h1
  have hby : y.busy = false := by rw [h3]
  obtain ⟨p, k, hp⟩ := run_probe hi hf y c' l h2 hby 126#7 m (found || (addrsFrom a n).any present)
    (scanned present m list (addrsFrom a n)) (present 126#7)
  rw [e]
  simp only [List.flatMap_append, List.flatMap_cons, List.flatMap_nil, List.append_nil, List.length_append,
    List.append_assoc]
  rw [core_run_add h1, hp, scanNext, if_neg (by decide), finish_flying, ← scanned_append, scanned_cons]
  have hw : waitBudget y = waitBudget x := by rw [h3]; rfl
  rw [hw]
  congr 2
  · rw [h3]
    simp [probed, scanTrace]
    omega
  · simp [Bool.or_assoc]
  · simp [scanned]

/-- On a busy unit every probe of a scan fails with BUSY, its START being refused, up to 126 (44 R237, 70 R366). -/
theorem run_busyScan {u : UnitId} {i : Instr} {s : State} (hi : unitOf i = u) (hf : faultFree s) (m : Byte) (found : Bool)
    (list : List (BitVec 7)) (c : BitVec 32) (l : List Move) (n : Nat) :
    ∀ (x : BusUnit) (a : Nat), a + n = 126 → x.busy = true →
    core.run (n + 1) (flying u x i .claim (.scanStart (BitVec.ofNat 7 a) m found list) c
        (List.replicate (n + 1) .engine ++ l) s) =
      .next (landed u { x with code := .busy } c l found (.found list) s) := by
  induction n with
  | zero =>
    intro x a ha hb
    obtain rfl : a = 126 := by omega
    rw [List.replicate_succ, List.cons_append, core_run_next (step_flying_engine _ _ _ _ _ _ _ _ hi hf), core_run_zero,
      claim_busy _ hb, resume, if_neg Bool.false_ne_true, scanNext, if_neg (by decide), finish_flying]
    rfl
  | succ n ih =>
    intro x a ha hb
    have e1 : BitVec.ofNat 7 a + 1 = BitVec.ofNat 7 (a + 1) := by
      apply BitVec.eq_of_toNat_eq
      simp [BitVec.toNat_add]
    rw [List.replicate_succ, List.cons_append, core_run_next (step_flying_engine _ _ _ _ _ _ _ _ hi hf), claim_busy _ hb,
      resume, if_neg Bool.false_ne_true, scanNext, if_pos (by simp; omega), goto_flying, e1]
    exact ih { x with code := .busy } (a + 1) (by omega) hb

/-- A probe whose STOP times out leaves the unit busy with PEN pending (44 R237, 42 R199). -/
theorem run_failedProbe {u : UnitId} {i : Instr} {s : State} (hi : unitOf i = u) (hf : faultFree s) (x : BusUnit)
    (c : BitVec 32) (l : List Move) (h : readyUnit x) (hb : x.busy = false) (a : BitVec 7) (m : Byte) (found : Bool)
    (list : List (BitVec 7)) (ack : Bool) : ∃ y p k,
    core.run (failedProbe u (waitBudget x) ack).length
        (flying u x i .claim (.scanStart a m found list) c (failedProbe u (waitBudget x) ack ++ l) s) =
      .next (scanNext a m (found || ack) (if ack && decide (list.length < m.toNat) then list ++ [a] else list)
        (flying u y i p k 0#32 l s)) ∧
    y.busy = true ∧ y.code = .timeout ∧ y.con.cmd = cmdPen ∧
    y.trace = x.trace ++ [.start, .tx (addrByte (a.setWidth 8) false) (!ack)] := by
  have hr2 : readyUnit { x with busy := true, trace := x.trace ++ [.start], witer := x.witer + 1 } := h
  cases ack
  · have ht : failedProbe u (waitBudget x) false ++ l = promptStart u ++ (promptWriteByte u true ++
        (.engine :: (List.replicate (2 + waitBudget x) .engine ++ l))) := by simp [failedProbe]
    have hl : (failedProbe u (waitBudget x) false).length = 5 + (6 + ((2 + waitBudget x) + 1)) := by
      simp [failedProbe, promptStart, promptWriteByte, promptCommand]
      omega
    rw [hl, ht, core_run_add (run_promptStart hi hf h hb)]
    simp only [resume, if_true, goto_flying]
    rw [core_run_add (run_promptWriteByte hi hf hr2 _ true)]
    simp only [Bool.not_true, resume, Bool.false_eq_true, if_false, goto_flying, if_true]
    rw [core_run_next (step_flying_engine _ _ _ _ _ _ _ _ hi hf)]
    simp only [positionStep, onUnit_flying, goto_flying, if_true]
    rw [run_silentStop hi hf (by exact h) (by rfl)]
    simp only [resume, Bool.false_eq_true, if_false, Bool.or_false, Bool.false_and]
    exact ⟨_, _, _, rfl, rfl, rfl, rfl, by simp [commandFailed, waitFailed, setCode]⟩
  · have ht : failedProbe u (waitBudget x) true ++ l = promptStart u ++ (promptWriteByte u false ++
        (List.replicate (2 + waitBudget x) .engine ++ l)) := by simp [failedProbe]
    have hl : (failedProbe u (waitBudget x) true).length = 5 + (6 + (2 + waitBudget x)) := by
      simp [failedProbe, promptStart, promptWriteByte, promptCommand]
      omega
    rw [hl, ht, core_run_add (run_promptStart hi hf h hb)]
    simp only [resume, if_true, goto_flying]
    rw [core_run_add (run_promptWriteByte hi hf hr2 _ false)]
    simp only [Bool.not_false, resume, if_true, goto_flying, Bool.false_eq_true, if_false]
    rw [run_silentStop hi hf (by exact h) (by rfl)]
    simp only [resume, if_true, Bool.or_true, Bool.true_and, decide_eq_true_eq]
    exact ⟨_, _, _, rfl, rfl, rfl, rfl, by simp [commandFailed, waitFailed]⟩

/-- A scan probes the addresses from 1 on. -/
theorem scanAddresses_eq : scanAddresses = addrsFrom 1 126 := by decide

end Sys2Proof.Machine
end

