-- ==== Sys2Proof/Laws/PerInstr.lean ====
section
/-! SUPPORT. The family `Encoding`: one lemma per constructor about the interface an instruction is encoded for, its unit bit
and its fixed bits (30_encoding R101, R103, R104). -/

namespace Sys2Proof.Laws.Encoding

open Sys2Proof.Machine

/-- A command goes to the command interface with Z = 0, an access to the register interface, and either word's U bit is
the instruction's unit (30_encoding R100, R101, R103). -/
def Statement (i : Instr) : Prop :=
  match encode i with
  | .reg w => commandClass i = none ∧ unitOfBit (w.getLsbD 20) = unitOf i
  | .cmd w _ => commandClass i ≠ none ∧ w.extractLsb' 9 7 = 0#7 ∧ unitOfBit (w.getLsbD 8) = unitOf i

theorem start (u : UnitId) : Statement (.start u) := ⟨Option.some_ne_none _, cmdWord_z _ _, cmdWord_unit _ _⟩

theorem restart (u : UnitId) : Statement (.restart u) := ⟨Option.some_ne_none _, cmdWord_z _ _, cmdWord_unit _ _⟩

theorem stop (u : UnitId) : Statement (.stop u) := ⟨Option.some_ne_none _, cmdWord_z _ _, cmdWord_unit _ _⟩

theorem wait (u : UnitId) : Statement (.wait u) := ⟨Option.some_ne_none _, cmdWord_z _ _, cmdWord_unit _ _⟩

theorem writeByte (u : UnitId) (d : Byte) : Statement (.writeByte u d) := ⟨Option.some_ne_none _, cmdWord_z _ _, cmdWord_unit _ _⟩

theorem readByte (u : UnitId) (a : Bool) : Statement (.readByte u a) := ⟨Option.some_ne_none _, cmdWord_z _ _, cmdWord_unit _ _⟩

theorem writeData (u : UnitId) (a : Byte) (bs : List Byte) : Statement (.writeData u a bs) := ⟨Option.some_ne_none _, cmdWord_z _ _, cmdWord_unit _ _⟩

theorem readData (u : UnitId) (a : Byte) (c : BitVec 16) : Statement (.readData u a c) := ⟨Option.some_ne_none _, cmdWord_z _ _, cmdWord_unit _ _⟩

theorem writeRegister (u : UnitId) (a : Byte) (r : Byte) (bs : List Byte) : Statement (.writeRegister u a r bs) := ⟨Option.some_ne_none _, cmdWord_z _ _, cmdWord_unit _ _⟩

theorem readRegister (u : UnitId) (a : Byte) (r : Byte) (c : BitVec 16) : Statement (.readRegister u a r c) := ⟨Option.some_ne_none _, cmdWord_z _ _, cmdWord_unit _ _⟩

theorem scanBus (u : UnitId) (m : Byte) : Statement (.scanBus u m) := ⟨Option.some_ne_none _, cmdWord_z _ _, cmdWord_unit _ _⟩

theorem init (u : UnitId) (w : BitVec 64) (h : Option Handle) : Statement (.init u w h) := ⟨Option.some_ne_none _, cmdWord_z _ _, cmdWord_unit _ _⟩

theorem clearErrors (u : UnitId) : Statement (.clearErrors u) := ⟨Option.some_ne_none _, cmdWord_z _ _, cmdWord_unit _ _⟩

theorem isBusy (u : UnitId) : Statement (.isBusy u) := ⟨Option.some_ne_none _, cmdWord_z _ _, cmdWord_unit _ _⟩

theorem getStatus (u : UnitId) : Statement (.getStatus u) := ⟨Option.some_ne_none _, cmdWord_z _ _, cmdWord_unit _ _⟩

theorem getConfig (u : UnitId) : Statement (.getConfig u) := ⟨Option.some_ne_none _, cmdWord_z _ _, cmdWord_unit _ _⟩

theorem registerCallback (u : UnitId) (h : Option Handle) : Statement (.registerCallback u h) := ⟨Option.some_ne_none _, cmdWord_z _ _, cmdWord_unit _ _⟩

theorem calcDivider (u : UnitId) (s : BitVec 32) : Statement (.calcDivider u s) := ⟨Option.some_ne_none _, cmdWord_z _ _, cmdWord_unit _ _⟩

theorem dispatch (u : UnitId) : Statement (.dispatch u) := ⟨Option.some_ne_none _, cmdWord_z _ _, cmdWord_unit _ _⟩

theorem conSen (u : UnitId) (v : Word) : Statement (.conSen u v) := ⟨rfl, regWord_unit _ _ _ _⟩

theorem conRsen (u : UnitId) (v : Word) : Statement (.conRsen u v) := ⟨rfl, regWord_unit _ _ _ _⟩

theorem conPen (u : UnitId) (v : Word) : Statement (.conPen u v) := ⟨rfl, regWord_unit _ _ _ _⟩

theorem conRcen (u : UnitId) (v : Word) : Statement (.conRcen u v) := ⟨rfl, regWord_unit _ _ _ _⟩

theorem conXen (u : UnitId) (v : Word) : Statement (.conXen u v) := ⟨rfl, regWord_unit _ _ _ _⟩

theorem conCfg (u : UnitId) (v : Word) : Statement (.conCfg u v) := ⟨rfl, regWord_unit _ _ _ _⟩

theorem conMulti (u : UnitId) (v : Word) : Statement (.conMulti u v) := ⟨rfl, regWord_unit _ _ _ _⟩

theorem statW (u : UnitId) (v : Word) : Statement (.statW u v) := ⟨rfl, regWord_unit _ _ _ _⟩

theorem addW (u : UnitId) (v : Word) : Statement (.addW u v) := ⟨rfl, regWord_unit _ _ _ _⟩

theorem brgW (u : UnitId) (v : Word) : Statement (.brgW u v) := ⟨rfl, regWord_unit _ _ _ _⟩

theorem trnW (u : UnitId) (v : Word) : Statement (.trnW u v) := ⟨rfl, regWord_unit _ _ _ _⟩

theorem rcvW (u : UnitId) (v : Word) : Statement (.rcvW u v) := ⟨rfl, regWord_unit _ _ _ _⟩

theorem ifsW (u : UnitId) (v : Word) : Statement (.ifsW u v) := ⟨rfl, regWord_unit _ _ _ _⟩

theorem estatW (u : UnitId) (v : Word) : Statement (.estatW u v) := ⟨rfl, regWord_unit _ _ _ _⟩

theorem rsvdW (u : UnitId) (off : BitVec 4) (v : Word) : Statement (.rsvdW u off v) := ⟨rfl, regWord_unit _ _ _ _⟩

theorem rcvR (u : UnitId) : Statement (.rcvR u) := ⟨rfl, regWord_unit _ _ _ _⟩

theorem rsvdR (u : UnitId) (off : BitVec 4) : Statement (.rsvdR u off) := ⟨rfl, regWord_unit _ _ _ _⟩

theorem regR (u : UnitId) (off : BitVec 4) : Statement (.regR u off) := ⟨rfl, regWord_unit _ _ _ _⟩

end Sys2Proof.Laws.Encoding
end

