-- ==== Sys2Proof/Laws/StepInvariants.lean ====
section
/-! SUPPORT. How each operation on the whole state keeps `blockInv` (Safety), the order of a scan's list (44 R237) and the
stored configuration (10_state R49), up to the engine step and the handing over of a command. -/

namespace Sys2Proof.Machine

/-! ## `blockInv` -/

/-- A change of neither the sequencer, the counter nor the interrupt context keeps `blockInv` when it keeps `unitInv`. -/
theorem blockInv_congr {s t : State} (h : blockInv s) (h1 : unitInv t.unit1) (h2 : unitInv t.unit2) (h3 : t.inCallback = s.inCallback) (h4 : t.isrOp = s.isrOp) (h5 : t.polledOp = s.polledOp) (h6 : t.tcnt = s.tcnt) : blockInv t := by
  refine ⟨h1, h2, ?_, ?_, ?_⟩
  · rw [h3, h4]; exact h.2.2.1
  · rw [h5, h6]; exact h.2.2.2.1
  · rw [h5]; exact h.2.2.2.2

/-- A change of one unit that keeps `unitInv` keeps `blockInv`. -/
theorem blockInv_onUnit {s : State} {u : UnitId} {f : BusUnit → BusUnit} (h : blockInv s) (hf : ∀ x, unitInv x → unitInv (f x)) : blockInv (onUnit u f s) := by
  cases u
  · exact blockInv_congr h (hf _ h.1) h.2.1 rfl rfl rfl rfl
  · exact blockInv_congr h h.1 (hf _ h.2.1) rfl rfl rfl rfl

/-- Replacing one unit by one that meets `unitInv` keeps `blockInv`. -/
theorem blockInv_putUnit {s : State} {u : UnitId} {x : BusUnit} (h : blockInv s) (hx : unitInv x) : blockInv (putUnit u x s) := by
  cases u
  · exact blockInv_congr h hx h.2.1 rfl rfl rfl rfl
  · exact blockInv_congr h h.1 hx rfl rfl rfl rfl

/-- Both units meet `unitInv`. -/
theorem getUnit_inv {s : State} (h : blockInv s) (u) : unitInv (getUnit s u) := by cases u; exacts [h.1, h.2.1]

/-- An engine step keeps `blockInv`. -/
theorem blockInv_engineStep {s : State} (h : blockInv s) : blockInv (engineStep s) := by
  unfold engineStep
  split
  · exact h
  · rename_i f hf
    obtain ⟨i, p, k⟩ := f
    simp only
    have hu : ∀ w, unitInv (getUnit (positionStep (unitOf i) p k s) w) := by
      intro w
      by_cases hw : w = unitOf i
      · rw [hw, getUnit_positionStep]; exact unitInv_unitAfter _ _ (getUnit_inv h _)
      · rw [getUnit_positionStep_other hw]; exact getUnit_inv h _
    have fr := positionStep_frame (unitOf i) p k s
    have hp : isPolled (some ⟨i, p, k⟩) = true := by rw [← hf]; exact h.2.2.2.2
    refine ⟨hu .unit1, hu .unit2, by rw [fr.2.1, fr.1]; exact h.2.2.1, ?_, ?_⟩
    · rcases positionStep_polledOp (unitOf i) p k s i p k hf with e | ⟨q, l, e, hq⟩
      · rw [e]; intro h; cases h
      · rw [e]; intro hw
        cases q <;> simp [isWaiting] at hw
        exact hq _ rfl
    · rcases positionStep_polledOp (unitOf i) p k s i p k hf with e | ⟨q, l, e, hq⟩
      · rw [e]; rfl
      · rw [e]; exact hp

/-- Handing over a polled command keeps `blockInv`. -/
theorem blockInv_issue {s : State} {i : Instr} {p : Position} {k : Frame} (h : blockInv s) (hp : ∀ w, p ≠ .waitLoop w)
   (hc : commandClass i = some .B ∨ commandClass i = some .P) : blockInv (issue i p k s) := by
  unfold issue
  split
  · exact blockInv_congr h h.1 h.2.1 rfl rfl rfl rfl
  split
  · exact blockInv_congr h h.1 h.2.1 rfl rfl rfl rfl
  · apply blockInv_engineStep
    refine ⟨h.1, h.2.1, h.2.2.1, ?_, ?_⟩
    · intro hw; cases p <;> simp [isWaiting] at hw; exact absurd rfl (hp _)
    · simpa [isPolled] using hc

/-- Issuing a class N command keeps `blockInv` when its step does. -/
theorem blockInv_issueAtOnce {s : State} {i : Instr} {act : State → State} (h : blockInv s) (ha : blockInv (act s)) :
    blockInv (issueAtOnce i act s) := by
  rcases issueAtOnce_cases i act s with e | e <;> rw [e]
  exacts [blockInv_congr h h.1 h.2.1 rfl rfl rfl rfl, ha]

/-- An output keeps `blockInv`. -/
theorem blockInv_emit {s : State} (o) (h : blockInv s) : blockInv (emit o s) := blockInv_congr h h.1 h.2.1 rfl rfl rfl rfl

/-- Raising a fault keeps `blockInv`. -/
theorem blockInv_raise {s : State} (o) (h : blockInv s) : blockInv (raise o s) := blockInv_congr h h.1 h.2.1 rfl rfl rfl rfl

/-- A register write keeps `blockInv`. -/
theorem blockInv_hwWrite {s : State} (u off v) (h : blockInv s) : blockInv (hwWrite u off v s) := blockInv_onUnit h fun _ hx => unitInv_writeOffset _ _ hx

/-- A register read keeps `blockInv`. -/
theorem blockInv_hostRead {s : State} (u off) (h : blockInv s) : blockInv (hostRead u off s) := blockInv_emit _ (blockInv_onUnit h fun _ hx => unitInv_readEffect _ hx)

/-- The return from the interrupt keeps `blockInv`. -/
theorem blockInv_endDispatch {s : State} (e) (h : blockInv s) : blockInv (endDispatch e s) := ⟨h.1, h.2.1, rfl, h.2.2.2⟩

/-- An environment event keeps `blockInv`. -/
theorem blockInv_busEvent {s : State} (u e) (h : blockInv s) : blockInv (busEvent u e s) := by
  unfold busEvent
  split
  · split
    · split
      · exact blockInv_raise _ h
      · exact blockInv_onUnit h fun _ hx => unitInv_unitEvent _ hx
    · exact h
  · exact blockInv_onUnit h fun _ hx => unitInv_unitEvent _ hx

/-! ## The list of a scan -/

/-- The frame's part of `scanOrdered`. -/
def frameOrd : Frame → Prop
  | .scanStart a m _ list => scanListOrdered a m list
  | .scanAddr a m _ list => scanListOrdered a m list
  | .scanStop a m _ list _ => scanListOrdered a m list
  | _ => True

/-- `scanOrdered` by the frame of the command in flight. -/
theorem scanOrdered_iff (s : State) : scanOrdered s ↔ ∀ i p k, s.polledOp = some ⟨i,p,k⟩ → frameOrd k := by
  unfold scanOrdered
  constructor
  · intro h i p k e
    rw [e] at h
    cases k <;> exact h
  · intro h
    split
    · exact h _ _ _ (by assumption)
    · exact h _ _ _ (by assumption)
    · exact h _ _ _ (by assumption)
    · trivial

/-- Going on with an ordered frame keeps `scanOrdered`. -/
theorem scanOrdered_goto {s : State} (p) {k} (h : frameOrd k) : scanOrdered (goto p k s) := by
  rw [scanOrdered_iff]; intro i q l
  unfold goto; split
  · intro e; simp_all
  · intro e; injection e with e; injection e with _ _ e; subst e; exact h

/-- A finished command leaves no scan in flight. -/
theorem scanOrdered_finish (r f) (s : State) : scanOrdered (finish r f s) := by
  rw [scanOrdered_iff]; intro i q l e; cases e

/-- The next probe of a scan keeps its list ordered. -/
theorem scanOrdered_scanNext {s : State} (a : BitVec 7) (m : Byte) (found list) (h1 : 1 ≤ a.toNat) (h2 : a.toNat ≤ 126) (h3 : list.length ≤ m.toNat) (h4 : list.Pairwise (fun p q : BitVec 7 => p.toNat < q.toNat))
   (h5 : ∀ p ∈ list, 1 ≤ p.toNat ∧ p.toNat ≤ a.toNat) : scanOrdered (scanNext a m found list s) := by
  unfold scanNext
  split
  · apply scanOrdered_goto
    have e : (a + 1).toNat = a.toNat + 1 := by rw [BitVec.toNat_add]; simp; omega
    refine ⟨by omega, by omega, h3, h4, fun p hp => ?_⟩
    have := h5 p hp; omega
  · exact scanOrdered_finish _ _ _

/-- Resuming an ordered frame keeps `scanOrdered`. -/
theorem scanOrdered_resume {s : State} {k} (ok b) (h : frameOrd k) : scanOrdered (resume k ok b s) := by
  cases k with
  | scanStart a m f l =>
    obtain ⟨h1, h2, h3, h4, h5⟩ := h
    cases ok
    · exact scanOrdered_scanNext a m f l h1 h2 h3 h4 (fun p hp => by have := h5 p hp; omega)
    · exact scanOrdered_goto _ ⟨h1, h2, h3, h4, h5⟩
  | scanAddr a m f l =>
    cases ok
    · exact scanOrdered_goto _ h
    · exact scanOrdered_goto _ h
  | scanStop a m f l ack =>
    obtain ⟨h1, h2, h3, h4, h5⟩ := h
    cases ack
    · exact scanOrdered_scanNext a m f l h1 h2 h3 h4 (fun p hp => by have := h5 p hp; omega)
    · simp only [resume, if_true]
      split
      · refine scanOrdered_scanNext a m true _ h1 h2 (by simp; omega) ?_ ?_
        · rw [List.pairwise_append]
          refine ⟨h4, by simp, ?_⟩
          intro p hp q hq
          simp at hq; subst hq; exact (h5 p hp).2
        · intro p hp
          rw [List.mem_append] at hp
          rcases hp with hp | hp
          · have := h5 p hp; omega
          · simp at hp; subst hp; omega
      · exact scanOrdered_scanNext a m true l h1 h2 h3 h4 (fun p hp => by have := h5 p hp; omega)
  | _ =>
    cases ok <;> simp only [resume, sendNext, readNextByte] <;> repeat' split
    all_goals first
      | exact scanOrdered_goto _ trivial
      | exact scanOrdered_finish _ _ _

/-- A wait's return keeps `scanOrdered`. -/
theorem scanOrdered_waitReturn {s : State} {k} (w ok) (h : frameOrd k) : scanOrdered (waitReturn w k ok s) := by
  cases w <;> cases ok <;> simp only [waitReturn]
  all_goals first
    | exact scanOrdered_goto _ h
    | exact scanOrdered_resume _ _ h

/-- One engine step keeps `scanOrdered`. -/
theorem scanOrdered_positionStep {s : State} {k} (u p) (h : frameOrd k) : scanOrdered (positionStep u p k s) := by
  cases p <;> simp only [positionStep, loadCounter, waitIteration] <;> repeat' split
  all_goals first
    | exact scanOrdered_goto _ h
    | exact scanOrdered_resume _ _ h
    | exact scanOrdered_waitReturn _ _ h
    | exact scanOrdered_finish _ _ _

/-- `scanOrdered` is about the sequencer alone. -/
theorem scanOrdered_congr {s t : State} (h : scanOrdered s) (e : t.polledOp = s.polledOp) : scanOrdered t := by
  rw [scanOrdered_iff] at *; rw [e]; exact h

/-- An engine step keeps `scanOrdered`. -/
theorem scanOrdered_engineStep {s : State} (h : scanOrdered s) : scanOrdered (engineStep s) := by
  unfold engineStep
  split
  · exact h
  · rename_i f hf
    exact scanOrdered_positionStep _ _ ((scanOrdered_iff s).1 h _ _ _ hf)

/-- Handing over a command with an ordered frame keeps `scanOrdered`. -/
theorem scanOrdered_issue {s : State} (i p) {k} (h : scanOrdered s) (hk : frameOrd k) : scanOrdered (issue i p k s) := by
  unfold issue
  split
  · exact scanOrdered_congr h rfl
  split
  · exact scanOrdered_congr h rfl
  · apply scanOrdered_engineStep
    rw [scanOrdered_iff]; intro i q l e; injection e with e; injection e with _ _ e; subst e; exact hk

/-- A register write leaves the sequencer. -/
theorem hwWrite_keeps_polledOp (u o v) (s : State) : (hwWrite u o v s).polledOp = s.polledOp := by cases u <;> rfl

/-- A register read leaves the sequencer. -/
theorem hostRead_keeps_polledOp (u o) (s : State) : (hostRead u o s).polledOp = s.polledOp := by cases u <;> rfl

/-- A response after a change of a unit leaves the sequencer. -/
theorem respondOnUnit_keeps_polledOp (r u f) (s : State) : (respond r (onUnit u f s)).polledOp = s.polledOp := by cases u <;> rfl

/-- An environment event leaves the sequencer. -/
theorem busEvent_polledOp (u e) (s : State) : (busEvent u e s).polledOp = s.polledOp := by
  unfold busEvent; repeat' split
  all_goals simp

/-- DISPATCH's selection leaves the sequencer. -/
theorem dispatchSelect_polledOp (u) (s : State) : (dispatchSelect u s).polledOp = s.polledOp := by
  unfold dispatchSelect; repeat' split
  all_goals simp [endDispatch]

/-- A callback's return leaves the sequencer. -/
theorem callbackReturn_polledOp (s : State) : (callbackReturn s).polledOp = s.polledOp := by
  unfold callbackReturn; repeat' split
  all_goals simp [endDispatch]

/-- Taking an interrupt leaves the sequencer. -/
theorem takeInterrupt_polledOp (u) (s : State) : (takeInterrupt u s).polledOp = s.polledOp := by
  unfold takeInterrupt; repeat' split
  all_goals simp

/-! ## The stored configuration -/

/-- An engine step that changes a stored configuration is INIT's store. -/
theorem cfg_engineStep {s : State} {u} (hne : (getUnit (engineStep s) u).cfg ≠ (getUnit s u).cfg) : ∃ f c h, s.polledOp = some f ∧ unitOf f.cmd = u ∧ f.pos = .initStore c h ∧
      (getUnit (engineStep s) u).cfg = c ∧ (getUnit (engineStep s) u).cb = h := by
  unfold engineStep at *
  split at hne
  · exact absurd rfl hne
  · rename_i f hf
    rw [hf] at *
    simp only at *
    by_cases hw : u = unitOf f.cmd
    · subst hw
      rw [getUnit_positionStep] at *
      rcases cfg_unitAfter f.pos s.tcnt (getUnit s (unitOf f.cmd)) with e | ⟨g, h, e, e1, e2⟩
      · exact absurd e hne
      · exact ⟨f, g, h, rfl, rfl, e, e1, e2⟩
    · rw [getUnit_positionStep_other hw] at hne; exact absurd rfl hne

/-- Handing over a command stores no configuration, unless its first step is INIT's store. -/
theorem cfg_issue {s : State} {i p k u} (hp : ∀ c h, p ≠ .initStore c h) : (getUnit (issue i p k s) u).cfg = (getUnit s u).cfg := by
  unfold issue
  split; · simp
  split; · simp
  · by_contra hne
    obtain ⟨f, c, h, hf, _, hpos, _⟩ := cfg_engineStep (s := { s with polledOp := some ⟨i,p,k⟩ }) (by simpa using hne)
    simp only [Option.some.injEq] at hf
    subst hf
    exact hp _ _ hpos

/-- A change of a unit that keeps its configuration keeps both. -/
theorem cfg_onUnit {s : State} {u v f} (hf : ∀ x : BusUnit, (f x).cfg = x.cfg) : (getUnit (onUnit u f s) v).cfg = (getUnit s v).cfg := by
  by_cases h : v = u
  · subst h; simp [hf]
  · rw [getUnit_onUnit_other h]

end Sys2Proof.Machine
end

