-- ==== Sys2Proof/Laws/Termination.lean ====
section
/-! SUPPORT. Every polled command ends (60 R327): the engine's step does not look at the agenda, a primitive ends when what
comes back from it ends, and so by induction over the lists, counts and addresses of the composites. -/

namespace Sys2Proof.Machine

/-! ## The agenda does not matter to the engine -/

/-- `s` with the agenda `l`. -/
def withAgenda (l : List Move) (s : State) : State := { s with agenda := l }

section agenda
variable (l : List Move)

theorem getUnit_withAgenda (s) (u) : getUnit (withAgenda l s) u = getUnit s u := by cases u <;> rfl

theorem onUnit_withAgenda (u f s) : onUnit u f (withAgenda l s) = withAgenda l (onUnit u f s) := by cases u <;> rfl

theorem hwWrite_withAgenda (u o v s) : hwWrite u o v (withAgenda l s) = withAgenda l (hwWrite u o v s) := by cases u <;> rfl

theorem goto_withAgenda (p k s) : goto p k (withAgenda l s) = withAgenda l (goto p k s) := by
  obtain ⟨i, h⟩ | h : (∃ i, s.polledOp = some i) ∨ s.polledOp = none := by cases s.polledOp <;> simp
  · unfold goto withAgenda; simp only [h]
  · unfold goto withAgenda; simp only [h]

theorem finish_withAgenda (r f s) : finish r f (withAgenda l s) = withAgenda l (finish r f s) := rfl

theorem resume_withAgenda (k ok b s) : resume k ok b (withAgenda l s) = withAgenda l (resume k ok b s) := by
  cases k <;> cases ok <;> simp only [resume, sendNext, readNextByte, scanNext, goto_withAgenda, finish_withAgenda] <;> repeat' split
  all_goals rfl

theorem waitReturn_withAgenda (w k ok s) : waitReturn w k ok (withAgenda l s) = withAgenda l (waitReturn w k ok s) := by
  cases w <;> cases ok <;> simp only [waitReturn, goto_withAgenda, resume_withAgenda] <;> rfl

theorem withAgenda_tcnt (s) : (withAgenda l s).tcnt = s.tcnt := rfl

theorem positionStep_withAgenda (u p k s) : positionStep u p k (withAgenda l s) = withAgenda l (positionStep u p k s) := by
  have e : ∀ (c : BitVec 32) (s : State), ({ withAgenda l s with tcnt := c } : State) = withAgenda l { s with tcnt := c } := fun _ _ => rfl
  cases p <;> simp only [positionStep, setCommandBit, loadCounter, waitIteration, getUnit_withAgenda, onUnit_withAgenda, hwWrite_withAgenda, goto_withAgenda, finish_withAgenda, resume_withAgenda, waitReturn_withAgenda, withAgenda_tcnt, e] <;> repeat' split
  all_goals rfl

theorem engineStep_withAgenda (s) : engineStep (withAgenda l s) = withAgenda l (engineStep s) := by
  rcases h : s.polledOp with _ | f
  · simp only [engineStep, h, withAgenda]
  · have h' : (withAgenda l s).polledOp = some f := h
    simp only [engineStep, h, h']
    exact positionStep_withAgenda _ _ _ _ _

end agenda

/-! ## Commands that end -/

/-- The command in flight at `s` returns its response after finitely many engine steps. -/
def Ends (s : State) : Prop := faultFree s → ∃ n t, core.run n (withAgenda (List.replicate n .engine) s) = .next t ∧ t.polledOp = none ∧ t.faultMark = none

theorem ends_none {s} (h : s.polledOp = none) : Ends s := fun hf => ⟨0, _, rfl, h, hf⟩

theorem ends_step {s} (h : Ends (engineStep s)) : Ends s := by
  intro hf
  have hf' : faultFree (engineStep s) := by
    unfold engineStep
    split
    · exact hf
    · exact (positionStep_frame _ _ _ _).2.2.1.trans hf
  obtain ⟨n, t, h1, h2⟩ := h hf'
  refine ⟨n+1, t, ?_, h2⟩
  have hs : step (withAgenda (List.replicate (n+1) .engine) s) = .next (engineStep (withAgenda (List.replicate n .engine) s)) := by
    rw [step_agenda (rest := List.replicate n .engine) (by exact hf) rfl]; rfl
  rw [core_run_next hs, engineStep_withAgenda]
  exact h1

/-- A command of unit `u` at position `p` with frame `k` ends. -/
def EndsAt (u : UnitId) (p : Position) (k : Frame) : Prop := ∀ s i p0 k0, unitOf i = u → s.polledOp = some ⟨i, p0, k0⟩ → Ends (goto p k s)

/-- A command of unit `u` whose part returns to frame `k` ends. -/
def EndsBack (u : UnitId) (k : Frame) : Prop := ∀ s i p0 k0 ok b, unitOf i = u → s.polledOp = some ⟨i, p0, k0⟩ → Ends (resume k ok b s)

theorem endsAt_of {u p k} (h : ∀ s i, unitOf i = u → s.polledOp = some ⟨i, p, k⟩ → Ends (positionStep u p k s)) : EndsAt u p k := by
  intro s i p0 k0 hi hs
  apply ends_step
  rw [goto_of_some hs]
  unfold engineStep
  simp only [hi]
  exact h _ i hi rfl


section positions
variable {u : UnitId} {k : Frame}

theorem at_settle (h : EndsBack u k) : EndsAt u .settle k := endsAt_of fun s i hi hs => h _ i .settle k _ _ hi (by simp [hs])

theorem at_release (h : EndsBack u k) : EndsAt u .release k := endsAt_of fun s i hi hs => h _ i .release k _ _ hi (by simp [hs])

theorem at_checkAck (h : EndsBack u k) : EndsAt u .checkAck k := endsAt_of fun s i hi hs => by
  simp only [positionStep]; split
  · exact h _ i .checkAck k _ _ hi (by simp [hs])
  · exact h _ i _ _ _ _ hi hs

theorem at_takeByte (h : EndsBack u k) (ok) : EndsAt u (.takeByte ok) k := endsAt_of fun s i hi hs => h _ i (.takeByte ok) k _ _ hi (by simp [hs])

theorem waitReturn_ends (h : EndsBack u k) (w) (ok) (s : State) (i p0 k0) (hi : unitOf i = u) (hs : s.polledOp = some ⟨i, p0, k0⟩) : Ends (waitReturn w k ok s) := by
  cases w <;> cases ok <;> simp only [waitReturn]
  all_goals first
    | exact h _ i p0 k0 _ _ hi hs
    | exact at_settle h _ i p0 k0 hi hs
    | exact at_release h _ i p0 k0 hi hs
    | exact at_checkAck h _ i p0 k0 hi hs
    | exact at_takeByte h _ _ i p0 k0 hi hs

theorem at_waitLoop (h : EndsBack u k) (w) : EndsAt u (.waitLoop w) k := by
  have : ∀ n : Nat, ∀ s i p0 k0, (s.tcnt - 1).toNat = n → unitOf i = u → s.polledOp = some ⟨i, p0, k0⟩ → Ends (goto (.waitLoop w) k s) := by
    intro n
    induction n using Nat.strong_induction_on with
    | _ n ih =>
      intro s i p0 k0 hn hi hs
      apply ends_step
      rw [goto_of_some hs]
      unfold engineStep
      simp only [hi, positionStep, waitIteration]
      split
      · exact waitReturn_ends h _ _ _ i (.waitLoop w) k hi (by simp)
      split
      · exact waitReturn_ends h _ _ _ i (.waitLoop w) k hi (by simp)
      split
      · exact waitReturn_ends h _ _ _ i (.waitLoop w) k hi (by simp)
      split
      · exact waitReturn_ends h _ _ _ i (.waitLoop w) k hi (by simp)
      · rename_i h0
        refine ih ((s.tcnt - 1 - 1).toNat) ?_ _ i (.waitLoop w) k ?_ hi (by simp)
        · simp only [onUnit_tcnt] at h0
          rw [← hn]
          generalize s.tcnt - 1 = c at *
          have : c.toNat ≠ 0 := fun hc => h0 (BitVec.eq_of_toNat_eq (by simpa using hc))
          rw [BitVec.toNat_sub]; simp; have := c.isLt; omega
        · simp only [onUnit_tcnt]
  intro s i p0 k0 hi hs
  exact this _ s i p0 k0 rfl hi hs

theorem at_waitLoad (h : EndsBack u k) (w) : EndsAt u (.waitLoad w) k := endsAt_of fun s i hi hs => by
  simp only [positionStep, loadCounter]
  split
  · exact waitReturn_ends h _ _ _ i (.waitLoad w) k hi (by simp [hs])
  · exact at_waitLoop h _ _ i (.waitLoad w) k hi hs

theorem at_setSen (h : EndsBack u k) : EndsAt u .setSen k := endsAt_of fun s i hi hs => at_waitLoad h _ _ i .setSen k hi (by simp [setCommandBit, hs])

theorem at_setRsen (h : EndsBack u k) : EndsAt u .setRsen k := endsAt_of fun s i hi hs => at_waitLoad h _ _ i .setRsen k hi (by simp [setCommandBit, hs])

theorem at_setPen (h : EndsBack u k) : EndsAt u .setPen k := endsAt_of fun s i hi hs => at_waitLoad h _ _ i .setPen k hi (by simp [setCommandBit, hs])

theorem at_setXen (h : EndsBack u k) : EndsAt u .setXen k := endsAt_of fun s i hi hs => at_waitLoad h _ _ i .setXen k hi (by simp [setCommandBit, hs])

theorem at_setRcen (h : EndsBack u k) : EndsAt u .setRcen k := endsAt_of fun s i hi hs => at_waitLoad h _ _ i .setRcen k hi (by simp [setCommandBit, hs])

theorem at_loadTrn (h : EndsBack u k) (d) : EndsAt u (.loadTrn d) k := endsAt_of fun s i hi hs => at_setXen h _ i (.loadTrn d) k hi (by simp [hs])

theorem at_setAckdt (h : EndsBack u k) (d) : EndsAt u (.setAckdt d) k := endsAt_of fun s i hi hs => at_setRcen h _ i (.setAckdt d) k hi (by simp [hs])

theorem at_claim (h : EndsBack u k) : EndsAt u .claim k := endsAt_of fun s i hi hs => by
  simp only [positionStep]; split
  · exact h _ i .claim k _ _ hi (by simp [hs])
  · exact at_setSen h _ i .claim k hi (by simp [hs])

theorem at_addrNack (h : EndsBack u k) : EndsAt u .addrNack k := endsAt_of fun s i hi hs => at_setPen h _ i .addrNack k hi (by simp [hs])

theorem back_alone : EndsBack u .alone := fun _ _ _ _ _ _ _ _ => ends_none rfl

theorem back_aloneRead : EndsBack u .aloneRead := fun _ _ _ _ _ _ _ _ => ends_none rfl

theorem back_failStop (f) : EndsBack u (.failStop f) := fun _ _ _ _ _ _ _ _ => ends_none rfl

theorem back_lastStop (f) : EndsBack u (.lastStop f) := fun _ _ _ _ _ _ _ _ => ends_none rfl

theorem back_writeNext (bs) : EndsBack u (.writeNext bs) := by
  induction bs with
  | nil =>
    intro s i p0 k0 ok b hi hs
    cases ok
    · exact at_setPen (back_failStop _) _ i p0 k0 hi hs
    · exact at_setPen (back_lastStop _) _ i p0 k0 hi hs
  | cons d bs ih =>
    intro s i p0 k0 ok b hi hs
    cases ok
    · exact at_setPen (back_failStop _) _ i p0 k0 hi hs
    · exact at_loadTrn ih _ _ i p0 k0 hi hs

theorem back_writeAddr (bs) : EndsBack u (.writeAddr bs) := by
  intro s i p0 k0 ok b hi hs
  cases ok
  · exact at_addrNack (back_failStop _) _ i p0 k0 hi hs
  · exact back_writeNext bs _ i p0 k0 true b hi hs

theorem back_writeStart (a bs) : EndsBack u (.writeStart a bs) := by
  intro s i p0 k0 ok b hi hs
  cases ok
  · exact ends_none rfl
  · exact at_loadTrn (back_writeAddr bs) _ _ i p0 k0 hi hs

theorem back_readNext (n) : ∀ out, EndsBack u (.readNext n out) := by
  induction n with
  | zero =>
    intro out s i p0 k0 ok b hi hs
    cases ok
    · exact at_setPen (back_failStop _) _ i p0 k0 hi hs
    · exact at_setPen (back_lastStop _) _ i p0 k0 hi hs
  | succ n ih =>
    intro out s i p0 k0 ok b hi hs
    cases ok
    · exact at_setPen (back_failStop _) _ i p0 k0 hi hs
    · exact at_setAckdt (ih _) _ _ i p0 k0 hi hs

theorem back_readAddr (c) : EndsBack u (.readAddr c) := by
  intro s i p0 k0 ok b hi hs
  cases ok
  · exact at_addrNack (back_failStop _) _ i p0 k0 hi hs
  · cases c
    · exact at_setPen (back_lastStop _) _ i p0 k0 hi hs
    · exact at_setAckdt (back_readNext _ _) _ _ i p0 k0 hi hs

theorem back_readStart (a c) : EndsBack u (.readStart a c) := by
  intro s i p0 k0 ok b hi hs
  cases ok
  · exact ends_none rfl
  · exact at_loadTrn (back_readAddr c) _ _ i p0 k0 hi hs

theorem back_regRestart (a c) : EndsBack u (.regRestart a c) := by
  intro s i p0 k0 ok b hi hs
  cases ok
  · exact at_setPen (back_failStop _) _ i p0 k0 hi hs
  · exact at_loadTrn (back_readAddr c) _ _ i p0 k0 hi hs

theorem back_regIndex (a c) : EndsBack u (.regIndex a c) := by
  intro s i p0 k0 ok b hi hs
  cases ok
  · exact at_setPen (back_failStop _) _ i p0 k0 hi hs
  · exact at_setRsen (back_regRestart a c) _ i p0 k0 hi hs

theorem back_regAddr (a r c) : EndsBack u (.regAddr a r c) := by
  intro s i p0 k0 ok b hi hs
  cases ok
  · exact at_addrNack (back_failStop _) _ i p0 k0 hi hs
  · exact at_loadTrn (back_regIndex a c) _ _ i p0 k0 hi hs

theorem back_regStart (a r c) : EndsBack u (.regStart a r c) := by
  intro s i p0 k0 ok b hi hs
  cases ok
  · exact ends_none rfl
  · exact at_loadTrn (back_regAddr a r c) _ _ i p0 k0 hi hs

theorem back_scan (n : Nat) : ∀ a : BitVec 7, 128 - a.toNat = n → (∀ m f l, EndsBack u (.scanStart a m f l)) ∧ (∀ m f l, EndsBack u (.scanAddr a m f l)) ∧ (∀ m f l c, EndsBack u (.scanStop a m f l c)) := by
  induction n using Nat.strong_induction_on with
  | _ n ih =>
    intro a ha
    have next : ∀ m f l s i p0 k0, unitOf i = u → s.polledOp = some ⟨i, p0, k0⟩ → Ends (scanNext a m f l s) := by
      intro m f l s i p0 k0 hi hs
      unfold scanNext
      split
      · have e : (a + 1).toNat = a.toNat + 1 := by rw [BitVec.toNat_add]; simp; omega
        exact at_claim ((ih _ (by omega) (a+1) rfl).1 m f l) _ i p0 k0 hi hs
      · exact ends_none rfl
    have h3 : ∀ m f l c, EndsBack u (.scanStop a m f l c) := by
      intro m f l c s i p0 k0 ok b hi hs
      cases c
      · exact next _ _ _ _ i p0 k0 hi hs
      · exact next _ _ _ _ i p0 k0 hi hs
    have h2 : ∀ m f l, EndsBack u (.scanAddr a m f l) := by
      intro m f l s i p0 k0 ok b hi hs
      cases ok
      · exact at_addrNack (h3 _ _ _ _) _ i p0 k0 hi hs
      · exact at_setPen (h3 _ _ _ _) _ i p0 k0 hi hs
    refine ⟨?_, h2, h3⟩
    intro m f l s i p0 k0 ok b hi hs
    cases ok
    · exact next _ _ _ _ i p0 k0 hi hs
    · exact at_loadTrn (h2 _ _ _) _ _ i p0 k0 hi hs

theorem back_all (k) : EndsBack u k := by
  cases k with
  | alone => exact back_alone
  | aloneRead => exact back_aloneRead
  | writeStart a bs => exact back_writeStart a bs
  | writeAddr bs => exact back_writeAddr bs
  | writeNext bs => exact back_writeNext bs
  | readStart a c => exact back_readStart a c
  | readAddr c => exact back_readAddr c
  | readNext n out => exact back_readNext n out
  | regStart a r c => exact back_regStart a r c
  | regAddr a r c => exact back_regAddr a r c
  | regIndex a c => exact back_regIndex a c
  | regRestart a c => exact back_regRestart a c
  | failStop f => exact back_failStop f
  | lastStop f => exact back_lastStop f
  | scanStart a m f l => exact (back_scan _ a rfl).1 m f l
  | scanAddr a m f l => exact (back_scan _ a rfl).2.1 m f l
  | scanStop a m f l c => exact (back_scan _ a rfl).2.2 m f l c

end positions

end Sys2Proof.Machine
end

