-- ==== Sys2Proof/Machine/Assembly.lean ====
section
/-! DEFINITION. The textual syntax of 30_encoding R115: the text of an instruction. Register words and configuration words
are written in hexadecimal, counts and speeds in decimal, and a callback by the letters `cb` and its number (log 12). -/

namespace Sys2Proof.Machine

/-- One hexadecimal digit. -/
def hexDigit (n : Nat) : String :=
  match n with
  | 0 => "0" | 1 => "1" | 2 => "2" | 3 => "3" | 4 => "4" | 5 => "5" | 6 => "6" | 7 => "7"
  | 8 => "8" | 9 => "9" | 10 => "A" | 11 => "B" | 12 => "C" | 13 => "D" | 14 => "E" | _ => "F"

/-- The low `k` hexadecimal digits of `n`. -/
def hexDigits : Nat → Nat → String
  | 0, _ => ""
  | k + 1, n => hexDigits k (n / 16) ++ hexDigit (n % 16)

/-- `0x` and the low `k` hexadecimal digits of `n`. -/
def hexText (k n : Nat) : String := "0x" ++ hexDigits k n

/-- `u1` or `u2` (30_encoding R115: n = u + 1). -/
def unitText : UnitId → String
  | .unit1 => "u1"
  | .unit2 => "u2"

/-- The register name of an offset, `R8` to `R15` for the reserved ones (30_encoding R115, 20_memory R72). -/
def registerText (off : BitVec 4) : String :=
  match off.toNat with
  | 0 => "CON" | 1 => "STAT" | 2 => "ADD" | 3 => "BRG" | 4 => "TRN" | 5 => "RCV" | 6 => "IFS" | 7 => "ESTAT"
  | 8 => "R8" | 9 => "R9" | 10 => "R10" | 11 => "R11" | 12 => "R12" | 13 => "R13" | 14 => "R14" | _ => "R15"

/-- `RD u<n>.<REG>` (30_encoding R115). -/
def readText (u : UnitId) (off : BitVec 4) : String := "RD " ++ unitText u ++ "." ++ registerText off

/-- `WR u<n>.<REG>, <imm16>` (30_encoding R115). -/
def writeText (u : UnitId) (off : BitVec 4) (v : Word) : String :=
  "WR " ++ unitText u ++ "." ++ registerText off ++ ", " ++ hexText 4 v.toNat

/-- A byte operand. -/
def byteText (b : Byte) : String := hexText 2 b.toNat

/-- The elements of a byte list, comma-separated. -/
def bytesText : List Byte → String
  | [] => ""
  | [b] => byteText b
  | b :: bs => byteText b ++ ", " ++ bytesText bs

/-- A callback operand, `<cb|none>`. -/
def callbackText : Option Handle → String
  | none => "none"
  | some h => "cb" ++ toString h

/-- `<MNEMONIC> u<n>` and the operands, comma-separated (30_encoding R115). -/
def commandText (m : String) (u : UnitId) (operands : List String) : String :=
  operands.foldl (fun t o => t ++ ", " ++ o) (m ++ " " ++ unitText u)

/-- The text of an instruction (30_encoding R115). -/
def textOf : Instr → String
  | .start u => commandText "START" u []
  | .restart u => commandText "RESTART" u []
  | .stop u => commandText "STOP" u []
  | .wait u => commandText "WAIT" u []
  | .writeByte u d => commandText "WRITE_BYTE" u [byteText d]
  | .readByte u a => commandText "READ_BYTE" u [if a then "ack" else "nack"]
  | .writeData u a bs => commandText "WRITE_DATA" u [byteText a, "[" ++ bytesText bs ++ "]"]
  | .readData u a c => commandText "READ_DATA" u [byteText a, toString c.toNat]
  | .writeRegister u a r bs => commandText "WRITE_REGISTER" u [byteText a, byteText r, "[" ++ bytesText bs ++ "]"]
  | .readRegister u a r c => commandText "READ_REGISTER" u [byteText a, byteText r, toString c.toNat]
  | .scanBus u m => commandText "SCAN_BUS" u [toString m.toNat]
  | .init u w h => commandText "INIT" u [hexText 16 w.toNat, callbackText h]
  | .clearErrors u => commandText "CLEAR_ERRORS" u []
  | .isBusy u => commandText "IS_BUSY" u []
  | .getStatus u => commandText "GET_STATUS" u []
  | .getConfig u => commandText "GET_CONFIG" u []
  | .registerCallback u h => commandText "REGISTER_CALLBACK" u [callbackText h]
  | .calcDivider u s => commandText "CALC_DIVIDER" u [toString s.toNat]
  | .dispatch u => commandText "DISPATCH" u []
  | .conSen u v => writeText u 0x0 v
  | .conRsen u v => writeText u 0x0 v
  | .conPen u v => writeText u 0x0 v
  | .conRcen u v => writeText u 0x0 v
  | .conXen u v => writeText u 0x0 v
  | .conCfg u v => writeText u 0x0 v
  | .conMulti u v => writeText u 0x0 v
  | .statW u v => writeText u 0x1 v
  | .addW u v => writeText u 0x2 v
  | .brgW u v => writeText u 0x3 v
  | .trnW u v => writeText u 0x4 v
  | .rcvW u v => writeText u 0x5 v
  | .ifsW u v => writeText u 0x6 v
  | .estatW u v => writeText u 0x7 v
  | .rsvdW u off v => writeText u off v
  | .rcvR u => readText u 0x5
  | .rsvdR u off => readText u off
  | .regR u off => readText u off

end Sys2Proof.Machine
end

