-- ==== Sys2Proof/Tests/Slice0.lean ====
section
/-! SUPPORT. Tests of single steps, their expected values from spec/95_test_vectors.md (the vector's name stands before each
group), one word per constructor of Instr written out from 30_encoding R102 and R104, ill-formed terms, and a witness for
the hypotheses of each statement. -/

namespace Sys2Proof.Tests

open Sys2Proof Sys2Proof.Machine

/-! ## Helpers -/

/-- The start state M3 of 95_test_vectors section 0: unit 1 a master at 100 kHz with a timeout of 3 ms. -/
def m3 : State := { State.reset with
  unit1 := { BusUnit.reset with
    con := { Con.reset with en := true }, brg := 198,
    cfg := { Configuration.reset with speedHz := 100000, timeoutMs := 3 } } }

/-- The start state of 95_test_vectors section 2.8: unit 1 a 7-bit slave at 0x40, general call on, callback 7. -/
def sl : State := { State.reset with
  unit1 := { BusUnit.reset with
    con := { Con.reset with en := true, sie := true, mode := .slave7, gcen := true }, add := 0x40, brg := 198,
    cfg := ⟨.slave7, 100000, 0x40, true, false, false, 1000, true⟩, cb := some 7 } }

/-- `s` with unit 1 changed by `f`. -/
def with1 (f : BusUnit → BusUnit) (s : State) : State := { s with unit1 := f s.unit1 }

/-- `s` with the moves `l` to come. -/
def upNext (l : List Move) (s : State) : State := { s with agenda := l }

/-- `s` with command `i` in flight at `p`, `k`, and the ENGINE next. -/
def midway (i : Instr) (p : Position) (k : Frame) (s : State) : State :=
  { s with polledOp := some ⟨i, p, k⟩, agenda := [.engine] }

/-- The next step answers a next state of which `p` holds. -/
def leadsTo (s : State) (p : State → Bool) : Bool :=
  match step s with
  | .next t => p t
  | .fault _ => false
  | .refused _ => false

/-- A host access of the register word `w` leads to a state of which `p` holds. -/
def accessed (w : BitVec 22) (s : State) (p : State → Bool) : Bool := leadsTo (upNext [.host (.reg w)] s) p

/-- A command leads in one step to a state of which `p` holds. -/
def commanded (w : BitVec 16) (o : OperandRecord) (s : State) (p : State → Bool) : Bool :=
  leadsTo (upNext [.host (.cmd w o)] s) p

/-- An event of bus 1 leads to a state of which `p` holds. -/
def evented (e : BusEvent) (s : State) (p : State → Bool) : Bool := leadsTo (upNext [.bus .unit1 e] s) p

/-- CON and STAT of unit 1. -/
def con1 (t : State) : Word := conWord t.unit1.con
/-- STAT of unit 1. -/
def stat1 (t : State) : Word := statWord t.unit1.stat

/-- The only output is the response `ok`, `illegal` with fields `f`, to the polled context. -/
def answered (ok illegal : Bool) (f : OutputFields) (t : State) : Bool :=
  decide (t.out = [.response .polled ⟨ok, illegal, f⟩])

/-- A unit with command bits `c` pending. -/
def pend (c : BitVec 5) (x : BusUnit) : BusUnit := { x with con := { x.con with cmd := c } }

/-- STAT with BCL set. -/
def bclStat : Stat := { Stat.zero with bcl := true }

/-! ## Ill-formed terms (30_encoding R102, R112) -/

theorem test_wf_conSen : (Instr.conSen .unit1 0x8003).wellFormed = false := by decide
theorem test_wf_conRsen : (Instr.conRsen .unit1 0x8001).wellFormed = false := by decide
theorem test_wf_conPen : (Instr.conPen .unit1 0x8000).wellFormed = false := by decide
theorem test_wf_conRcen : (Instr.conRcen .unit1 0x8004).wellFormed = false := by decide
theorem test_wf_conXen : (Instr.conXen .unit1 0x8018).wellFormed = false := by decide
theorem test_wf_conCfg : (Instr.conCfg .unit1 0x8010).wellFormed = false := by decide
theorem test_wf_conMulti : (Instr.conMulti .unit1 0x8010).wellFormed = false := by decide
theorem test_wf_rsvdW : (Instr.rsvdW .unit1 0x7 0).wellFormed = false := by decide
theorem test_wf_rsvdR : (Instr.rsvdR .unit1 0x5).wellFormed = false := by decide
theorem test_wf_regR_rcv : (Instr.regR .unit1 0x5).wellFormed = false := by decide
theorem test_wf_regR_reserved : (Instr.regR .unit1 0x8).wellFormed = false := by decide
theorem test_wf_init_role3 : (Instr.init .unit1 0x000186A003E80003 none).wellFormed = false := by decide
/-- With MAX_LEN 1, two bytes are too many and one is not, in each of the four transactions. -/
theorem test_wf_lengths (h : Config.maxLen = some 1) :
    (Instr.writeData .unit1 0x50 [1, 2]).wellFormed = false ∧ (Instr.writeData .unit1 0x50 [1]).wellFormed = true ∧
    (Instr.readData .unit1 0x50 2).wellFormed = false ∧ (Instr.readData .unit1 0x50 1).wellFormed = true ∧
    (Instr.writeRegister .unit1 0x50 0 [1, 2]).wellFormed = false ∧
    (Instr.writeRegister .unit1 0x50 0 [1]).wellFormed = true ∧
    (Instr.readRegister .unit1 0x50 0 2).wellFormed = false ∧ (Instr.readRegister .unit1 0x50 0 1).wellFormed = true := by
  simp [Instr.wellFormed, lengthAllowed, h]

/-! ## Decoding: CMD16 = Z(7) U(1) OP(8) (30_encoding R103, R104) with the operands of R105 -/

theorem test_dec_start : (decode (.cmd 0b0000000_0_00000001 noOperands)).toOption = some (.start .unit1) := by decide
theorem test_dec_restart : (decode (.cmd 0b0000000_1_00000010 noOperands)).toOption = some (.restart .unit2) := by decide
theorem test_dec_stop : (decode (.cmd 0b0000000_0_00000011 noOperands)).toOption = some (.stop .unit1) := by decide
theorem test_dec_wait : (decode (.cmd 0b0000000_0_00000100 noOperands)).toOption = some (.wait .unit1) := by decide
theorem test_dec_writeByte : (decode (.cmd 0b0000000_0_00010000 { noOperands with data8 := 0xA0 })).toOption =
    some (.writeByte .unit1 0xA0) := by decide
theorem test_dec_readByte : (decode (.cmd 0b0000000_0_00010001 { noOperands with sendAck := true })).toOption =
    some (.readByte .unit1 true) := by decide
theorem test_dec_writeData :
    (decode (.cmd 0b0000000_0_00100000 { noOperands with addr8 := 0x50, bytes := [0x10, 0xAB] })).toOption =
    some (.writeData .unit1 0x50 [0x10, 0xAB]) := by decide
theorem test_dec_readData :
    (decode (.cmd 0b0000000_0_00100001 { noOperands with addr8 := 0x50, count16 := 2 })).toOption =
    some (.readData .unit1 0x50 2) := by decide
theorem test_dec_writeRegister :
    (decode (.cmd 0b0000000_1_00100010 { noOperands with addr8 := 0x50, reg8 := 0x10, bytes := [0xAB] })).toOption =
    some (.writeRegister .unit2 0x50 0x10 [0xAB]) := by decide
theorem test_dec_readRegister :
    (decode (.cmd 0b0000000_0_00100011 { noOperands with addr8 := 0x50, reg8 := 0x10, count16 := 1 })).toOption =
    some (.readRegister .unit1 0x50 0x10 1) := by decide
theorem test_dec_scanBus : (decode (.cmd 0b0000000_0_00100100 { noOperands with maxOut8 := 8 })).toOption =
    some (.scanBus .unit1 8) := by decide
theorem test_dec_init :
    (decode (.cmd 0b0000000_1_00110000 { noOperands with cfgw64 := 0x000186A003E81025, cbh := some 7 })).toOption =
    some (.init .unit2 0x000186A003E81025 (some 7)) := by decide
theorem test_dec_clearErrors : (decode (.cmd 0b0000000_0_00110001 noOperands)).toOption = some (.clearErrors .unit1) := by
  decide
theorem test_dec_isBusy : (decode (.cmd 0b0000000_0_00110010 noOperands)).toOption = some (.isBusy .unit1) := by decide
theorem test_dec_getStatus : (decode (.cmd 0b0000000_1_00110011 noOperands)).toOption = some (.getStatus .unit2) := by
  decide
theorem test_dec_getConfig : (decode (.cmd 0b0000000_0_00110100 noOperands)).toOption = some (.getConfig .unit1) := by
  decide
theorem test_dec_registerCallback : (decode (.cmd 0b0000000_1_00110101 { noOperands with cbh := some 9 })).toOption =
    some (.registerCallback .unit2 (some 9)) := by decide
theorem test_dec_calcDivider : (decode (.cmd 0b0000000_0_00110110 { noOperands with speed32 := 100000 })).toOption =
    some (.calcDivider .unit1 100000) := by decide
theorem test_dec_dispatch : (decode (.cmd 0b0000000_1_01000000 noOperands)).toOption = some (.dispatch .unit2) := by decide
/-- X1, X2, X3. -/
theorem test_dec_illegal : (decode (.cmd 0x0005 noOperands)).toOption = none ∧
    (decode (.cmd 0x0201 noOperands)).toOption = none ∧ (decode (.cmd 0x00FF noOperands)).toOption = none := by decide

/-! ## Decoding: REGACC22 = W(1) U(1) OFF(4) DATA(16) (30_encoding R101, R102) -/

theorem test_dec_conSen : decodeReg 0b1_0_0000_1000000000000001 = .conSen .unit1 0x8001 := by decide
theorem test_dec_conRsen : decodeReg 0b1_0_0000_1000000000000010 = .conRsen .unit1 0x8002 := by decide
theorem test_dec_conPen : decodeReg 0b1_1_0000_1000000000000100 = .conPen .unit2 0x8004 := by decide
theorem test_dec_conRcen : decodeReg 0b1_0_0000_1000000000101000 = .conRcen .unit1 0x8028 := by decide
theorem test_dec_conXen : decodeReg 0b1_0_0000_1000000000010000 = .conXen .unit1 0x8010 := by decide
theorem test_dec_conCfg : decodeReg 0b1_0_0000_1001100000000000 = .conCfg .unit1 0x9800 := by decide
theorem test_dec_conMulti : decodeReg 0b1_0_0000_1000000000000011 = .conMulti .unit1 0x8003 := by decide
theorem test_dec_statW : decodeReg 0b1_0_0001_1111111111111101 = .statW .unit1 0xFFFD := by decide
theorem test_dec_addW : decodeReg 0b1_0_0010_1111110001000000 = .addW .unit1 0xFC40 := by decide
theorem test_dec_brgW : decodeReg 0b1_0_0011_0000000011000110 = .brgW .unit1 0x00C6 := by decide
theorem test_dec_trnW : decodeReg 0b1_1_0100_0000000001000010 = .trnW .unit2 0x0042 := by decide
theorem test_dec_rcvW : decodeReg 0b1_0_0101_0000000000010010 = .rcvW .unit1 0x0012 := by decide
theorem test_dec_ifsW : decodeReg 0b1_0_0110_0000000000000001 = .ifsW .unit1 0x0001 := by decide
theorem test_dec_estatW : decodeReg 0b1_0_0111_1111111111111111 = .estatW .unit1 0xFFFF := by decide
theorem test_dec_rsvdW : decodeReg 0b1_1_1111_0001001000110100 = .rsvdW .unit2 15 0x1234 := by decide
theorem test_dec_rcvR : decodeReg 0b0_0_0101_0000000000000000 = .rcvR .unit1 := by decide
theorem test_dec_rsvdR : decodeReg 0b0_0_1000_0000000000000000 = .rsvdR .unit1 8 := by decide
theorem test_dec_regR : decodeReg 0b0_1_0001_0000000000000000 = .regR .unit2 1 := by decide
/-- L20 and Program 5's REGACC22 words, encoded. -/
theorem test_enc_reg : encode (.rsvdW .unit2 15 0x1234) = .reg 0x3F1234 ∧ encode (.trnW .unit2 0x0042) = .reg 0x340042 ∧
    encode (.regR .unit1 7) = .reg 0x070000 := by decide
/-- Presets and pseudo-instructions (30_encoding R107, R116; C2's recovery). -/
theorem test_pseudo : pseudoClearStat .unit1 .bcl = .statW .unit1 0xFFFD ∧
    pseudoClearStat .unit1 .treq = .statW .unit1 0xFF7F ∧ pseudoClearSif .unit2 = .ifsW .unit2 0x0000 ∧
    pseudoInitSlave .unit1 (some 7) = .init .unit1 0x000186A003E81025 (some 7) ∧
    pseudoReadReg8 .unit1 0x50 0x10 = .readRegister .unit1 0x50 0x10 1 := by decide
/-- The texts of 30_encoding R115. -/
theorem test_text : textOf (.writeData .unit1 0x50 [0x10, 0xAB]) = "WRITE_DATA u1, 0x50, [0x10, 0xAB]" ∧
    textOf (.readByte .unit1 false) = "READ_BYTE u1, nack" ∧ textOf (.calcDivider .unit1 100000) = "CALC_DIVIDER u1, 100000" ∧
    textOf (.init .unit1 0x000186A003E80000 none) = "INIT u1, 0x000186A003E80000, none" ∧
    textOf (.statW .unit1 0xFFFD) = "WR u1.STAT, 0xFFFD" ∧ textOf (.rsvdR .unit2 8) = "RD u2.R8" := by decide

/-! ## Timing Calculator (section 2.1, FCY 40 MHz) -/

theorem test_divider_exact : divider 40000000 100000 = 198 ∧ divider 40000000 400000 = 48 ∧ divider 40000000 306 = 65357 ∧
    divider 40000000 3400000 = 3 ∧ divider 40000000 5000000 = 2 := by decide
theorem test_divider_clamped : divider 40000000 0 = 65535 ∧ divider 40000000 1 = 65535 ∧ divider 40000000 305 = 65535 ∧
    divider 40000000 5000001 = 2 ∧ divider 40000000 10000000 = 2 ∧ divider 40000000 4294967295 = 2 := by decide

/-! ## Register interface (section 2.7) -/

/-- L1, L2. -/
theorem test_conSen : accessed 0x208001 m3 (fun t => con1 t = 0x8001 && stat1 t = 0) = true := by decide
theorem test_conMulti : accessed 0x208003 m3 (fun t => con1 t = 0x8000 && stat1 t = 0x0008) = true := by decide
/-- L3, L4. -/
theorem test_conRsen_refused :
    accessed 0x208002 (with1 (pend cmdSen) m3) (fun t => con1 t = 0x8001 && stat1 t = 0x0008) = true := by decide
theorem test_conSen_again :
    accessed 0x208001 (with1 (pend cmdSen) m3) (fun t => con1 t = 0x8001 && stat1 t = 0) = true := by decide
/-- L5. -/
theorem test_conCfg_mode3 : accessed 0x209800 (with1 (fun x => { x with con := { x.con with mode := .slave7 } }) m3)
    (fun t => con1 t = 0x8800) = true := by decide
/-- L6. -/
theorem test_conCfg_disable : accessed 0x200000
    (with1 (fun x => { pend cmdXen x with
      stat := { Stat.zero with rbf := true, ov := true, bcl := true, ackstat := true }, sif := true }) m3)
    (fun t => con1 t = 0 && stat1 t = 0 && !t.unit1.sif) = true := by decide
/-- L7, L8. -/
theorem test_statW_one : accessed 0x21FFFD (with1 (fun x => { x with stat := { Stat.zero with ov := true, bcl := true } }) m3)
    (fun t => stat1 t = 0x0004) = true := by decide
theorem test_statW_all : accessed 0x210000
    (with1 (fun x => { x with stat := ⟨false, false, true, true, true, true, true, true, true, true⟩ }) m3)
    (fun t => stat1 t = 0x0041) = true := by decide
/-- L9, L10. -/
theorem test_addW : accessed 0x22FC40 m3 (fun t => memRead 0x02 t = 0x0040) = true := by decide
theorem test_brgW : accessed 0x2300C6 m3 (fun t => memRead 0x03 t = 198) = true := by decide
/-- L11, L12. -/
theorem test_trnW_refused :
    accessed 0x240055 (with1 (pend cmdXen) m3) (fun t => stat1 t = 0x0008 && t.unit1.trn = 0) = true := by decide
theorem test_trnW_sen : accessed 0x241255 (with1 (pend cmdSen) m3) (fun t => memRead 0x04 t = 0x0055) = true := by decide
/-- L13, L14. -/
theorem test_rcvR : accessed 0x050000 (with1 (fun x => { x with rcv := 0x3C, stat := { Stat.zero with rbf := true } }) m3)
    (fun t => t.out = [.readValue 0x003C] && stat1 t = 0) = true := by decide
theorem test_rcvR_empty : accessed 0x050000 (with1 (fun x => { x with rcv := 0x3C }) m3)
    (fun t => t.out = [.readValue 0x003C] && stat1 t = 0) = true := by decide
/-- L15, L18, L20. -/
theorem test_rcvW : accessed 0x250012 m3 (fun t => memRead 0x05 t = 0) = true := by decide
theorem test_estatW : accessed 0x27FFFF m3 (fun t => memRead 0x07 t = 0) = true := by decide
theorem test_rsvdW : accessed 0x3F1234 m3 (fun t => memRead 0x1F t = 0) = true := by decide
/-- L16. -/
theorem test_ifsW : accessed 0x260001 sl (fun t => t.unit1.sif && irq t.unit1) = true := by decide
/-- L17, L19. -/
theorem test_regR_estat : accessed 0x070000 (with1 (fun x => { x with code := .timeout, busy := true }) m3)
    (fun t => t.out = [.readValue 0x0012]) = true := by decide
theorem test_rsvdR : accessed 0x080000 m3 (fun t => t.out = [.readValue 0x0000]) = true := by decide
/-- L21. -/
theorem test_conCfg_unit2 : accessed 0x308000 m3 (fun t => memRead 0x10 t = 0x8000 && con1 t = 0x8000) = true := by decide
/-- L23, L24. -/
theorem test_conXen : accessed 0x208010 (with1 (fun x => { x with trn := 0xA0 }) m3)
    (fun t => con1 t = 0x8010 && t.unit1.txsr = 0xA0) = true := by decide
theorem test_conRcen : accessed 0x208028 m3 (fun t => con1 t = 0x8028) = true := by decide

/-! ## Environment events (EV1 to EV5) -/

theorem test_doneSen : evented .doneSen (with1 (pend cmdSen) m3)
    (fun t => con1 t = 0x8000 && t.unit1.trace = [.start]) = true := by decide
theorem test_doneXen : evented (.doneXen true) (with1 (fun x => { pend cmdXen x with txsr := 0xA0 }) m3)
    (fun t => con1 t = 0x8000 && stat1 t = 0x0001 && t.unit1.trace = [.tx 0xA0 true]) = true := by decide
theorem test_doneRcen : evented (.doneRcen 0x99) (with1 (pend cmdRcen) m3)
    (fun t => t.unit1.rcv = 0x99 && stat1 t = 0x0040 && t.unit1.trace = [.rx 0x99 false]) = true := by decide
theorem test_collide : evented .collide (with1 (pend cmdPen) m3)
    (fun t => con1 t = 0x8000 && stat1 t = 0x0002 && t.unit1.trace = [.col]) = true := by decide
theorem test_disabled_event : evented .doneSen (with1 (pend cmdSen) State.reset)
    (fun t => con1 t = 0x0001 && t.unit1.trace = []) = true := by decide

/-! ## Slave receiver (section 2.8) -/

/-- V1. -/
theorem test_sStart : evented (.sStart false) sl
    (fun t => t.unit1.slv = .awaitAddr && stat1 t = 0x0010 && irq t.unit1 && t.unit1.trace = [.sStart]) = true := by decide
/-- V2, V3, V4. -/
theorem test_own_write : evented (.sRxByte 0x80) (with1 (fun x => { x with slv := .awaitAddr }) sl)
    (fun t => t.unit1.slv = .write && stat1 t = 0 && t.unit1.trace = [.sRx 0x80 false]) = true := by decide
theorem test_own_read : evented (.sRxByte 0x81) (with1 (fun x => { x with slv := .awaitAddr }) sl)
    (fun t => t.unit1.slv = .read && stat1 t = 0x0280 && t.unit1.sif) = true := by decide
theorem test_other_address : evented (.sRxByte 0xA0) (with1 (fun x => { x with slv := .awaitAddr }) sl)
    (fun t => t.unit1.slv = .idle && t.unit1.trace = [.sRx 0xA0 true]) = true := by decide
/-- V5, V7, V8. -/
theorem test_general_call : evented (.sRxByte 0x00) (with1 (fun x => { x with slv := .awaitAddr }) sl)
    (fun t => t.unit1.slv = .write && stat1 t = 0x0100) = true := by decide
theorem test_own_zero : evented (.sRxByte 0x00) (with1 (fun x => { x with slv := .awaitAddr, add := 0 }) sl)
    (fun t => t.unit1.slv = .write && stat1 t = 0) = true := by decide
theorem test_not_general_call : evented (.sRxByte 0x01) (with1 (fun x => { x with slv := .awaitAddr }) sl)
    (fun t => t.unit1.slv = .idle) = true := by decide
/-- V9, V10. -/
theorem test_slave_byte : evented (.sRxByte 0x5A) (with1 (fun x => { x with slv := .write }) sl)
    (fun t => t.unit1.rcv = 0x5A && stat1 t = 0x0040 && t.unit1.sif) = true := by decide
theorem test_slave_overrun : evented (.sRxByte 0x5B)
    (with1 (fun x => { x with slv := .write, rcv := 0x5A, stat := { Stat.zero with rbf := true } }) sl)
    (fun t => t.unit1.rcv = 0x5A && stat1 t = 0x0044 && t.unit1.trace = [.sRx 0x5B true]) = true := by decide
/-- V11, V12. -/
theorem test_sTx_ack : evented (.sTx false) (with1 (fun x => { x with slv := .read, trn := 0x77 }) sl)
    (fun t => t.unit1.trace = [.sTx 0x77 false] && stat1 t = 0x0080 && t.unit1.sif) = true := by decide
theorem test_sTx_nack : evented (.sTx true) (with1 (fun x => { x with slv := .read, trn := 0x77 }) sl)
    (fun t => t.unit1.slv = .idle && stat1 t = 0) = true := by decide
/-- V13. -/
theorem test_sStop : evented .sStop (with1 (fun x => { x with slv := .write }) sl)
    (fun t => t.unit1.slv = .idle && stat1 t = 0x0020 && t.unit1.sif) = true := by decide
/-- A 10-bit slave at 0x234 (V19 to V21). -/
def sl10 (p : SlavePhase) (m : Bool) : State :=
  with1 (fun x => { x with con := { x.con with mode := .slave10, gcen := false }, add := 0x234, slv := p, m10 := m }) sl
theorem test_ten_bit_high : evented (.sRxByte 0xF4) (sl10 .awaitAddr false) (fun t => t.unit1.slv = .hi10) = true := by decide
theorem test_ten_bit_low : evented (.sRxByte 0x34) (sl10 .hi10 false) (fun t => t.unit1.slv = .write && t.unit1.m10) = true := by
  decide
theorem test_ten_bit_read : evented (.sRxByte 0xF5) (sl10 .awaitAddr true)
    (fun t => t.unit1.slv = .read && stat1 t = 0x0280) = true := by decide
theorem test_ten_bit_read_cleared : evented (.sRxByte 0xF5) (sl10 .awaitAddr false)
    (fun t => t.unit1.slv = .idle && t.unit1.trace = [.sRx 0xF5 true]) = true := by decide
theorem test_ten_bit_low_other : evented (.sRxByte 0x35) (sl10 .hi10 false)
    (fun t => t.unit1.slv = .idle && !t.unit1.m10 && t.unit1.trace = [.sRx 0x35 true]) = true := by decide
/-- V26. -/
theorem test_master_no_slave_event : evented (.sStart false) m3 (fun t => t.unit1.trace = []) = true := by decide

/-! ## Interrupts and faults (V14 to V18, V22 to V25, X4) -/

/-- A DISPATCH of unit 1 at position `p`, the ISR next. -/
def serving (p : IsrPosition) (s : State) : State := upNext [.isr] { s with isrOp := some ⟨.unit1, p⟩ }

theorem test_takeIrq : leadsTo (upNext [.takeIrq .unit1] (with1 (fun x => { x with sif := true }) sl))
    (fun t => t.isrOp = some ⟨.unit1, .entry⟩ && t.unit1.sif) = true := by decide
theorem test_dispatch_entry : leadsTo (serving .entry (with1 (fun x => { x with sif := true }) sl))
    (fun t => t.isrOp = some ⟨.unit1, .select⟩ && !t.unit1.sif) = true := by decide
theorem test_dispatch_start_first : leadsTo (serving .select
      (with1 (fun x => { x with rcv := 0x5A, stat := { Stat.zero with sdet := true, rbf := true } }) sl))
    (fun t => stat1 t = 0x0040 && t.isrOp = some ⟨.unit1, .invoke 7 ⟨.start, 0⟩⟩) = true := by decide
theorem test_dispatch_byte : leadsTo (serving .select
      (with1 (fun x => { x with rcv := 0x5A, stat := { Stat.zero with rbf := true } }) sl))
    (fun t => stat1 t = 0 && t.isrOp = some ⟨.unit1, .invoke 7 ⟨.byteReceived, 0x5A⟩⟩) = true := by decide
theorem test_dispatch_invoke : leadsTo (serving (.invoke 7 ⟨.stop, 0⟩) sl)
    (fun t => t.inCallback && t.out = [.invoked .unit1 7 ⟨.stop, 0⟩]) = true := by decide
theorem test_dispatch_no_callback : leadsTo (serving .select
      (with1 (fun x => { x with cb := none, stat := { Stat.zero with rbf := true } }) sl))
    (fun t => stat1 t = 0x0040 && t.isrOp = none && t.out = [.response .interrupt ⟨true, false, .event none⟩]) = true := by
  decide
theorem test_dispatch_nothing : leadsTo (serving .select sl)
    (fun t => t.isrOp = none && t.out = [.response .interrupt ⟨true, false, .event none⟩]) = true := by decide
theorem test_callback_returns : leadsTo
    (upNext [.callbackReturn] { sl with isrOp := some ⟨.unit1, .calling ⟨.start, 0⟩⟩, inCallback := true })
    (fun t => !t.inCallback && t.isrOp = none &&
      t.out = [.response .interrupt ⟨true, false, .event (some ⟨.start, 0⟩)⟩]) = true := by decide
theorem test_fault_slave_during_master :
    evented (.sStart false) { sl with polledOp := some ⟨.start .unit1, .setSen, .alone⟩ }
      (fun t => t.faultMark = some .slaveDuringMaster && t.unit1 = sl.unit1) = true := by decide
theorem test_fault_dispatch_during_master :
    leadsTo (upNext [.takeIrq .unit1] { with1 (fun x => { x with sif := true }) sl with
        polledOp := some ⟨.writeData .unit1 0x50 [], .setSen, .writeStart 0x50 []⟩ })
      (fun t => t.faultMark = some .dispatchDuringMaster && t.isrOp = none) = true := by decide
theorem test_fault_blocking_in_callback :
    leadsTo (upNext [.callback (.cmd 0x0001 noOperands)] { m3 with
        inCallback := true, isrOp := some ⟨.unit2, .calling ⟨.start, 0⟩⟩ })
      (fun t => t.faultMark = some .blockingInCallback && t.unit1 = m3.unit1) = true := by decide
theorem test_clearErrors_in_callback :
    leadsTo (upNext [.callback (.cmd 0x0031 noOperands)] { with1 (fun x => { x with busy := true, code := .timeout }) m3 with
        inCallback := true, isrOp := some ⟨.unit2, .calling ⟨.start, 0⟩⟩ })
      (fun t => !t.unit1.busy && t.unit1.code = .idle && t.faultMark = none) = true := by decide
theorem test_fault_dispatch_context :
    commanded 0x0040 noOperands sl (fun t => t.faultMark = some .dispatchContext && t.unit1 = sl.unit1) = true := by decide
theorem test_no_step_after_fault : step { m3 with faultMark := some .dispatchContext } = .fault .dispatchContext := rfl

/-! ## The engine, one step each (sections 2.2 to 2.6) -/

/-- W4 to W6: BCL first, then OV. -/
theorem test_wait_bcl_first : leadsTo (midway (.wait .unit1) (.waitLoop .alone) .alone
      { with1 (fun x => { x with stat := { Stat.zero with ov := true, bcl := true } }) m3 with tcnt := 3 })
    (fun t => t.unit1.code = .busCollision && stat1 t = 0x0006 && answered false false .none t && t.unit1.witer = 1) = true := by
  decide
theorem test_wait_ov : leadsTo (midway (.wait .unit1) (.waitLoop .alone) .alone
      { with1 (fun x => { x with stat := { Stat.zero with ov := true } }) m3 with tcnt := 3 })
    (fun t => t.unit1.code = .rxOverrun && answered false false .none t) = true := by decide
/-- W3: the last iteration; the command is not cancelled. -/
theorem test_wait_timeout : leadsTo (midway (.wait .unit1) (.waitLoop .alone) .alone
      { with1 (pend cmdSen) m3 with tcnt := 1 })
    (fun t => t.unit1.code = .timeout && con1 t = 0x8001 && answered false false .none t) = true := by decide
theorem test_wait_goes_on : leadsTo (midway (.wait .unit1) (.waitLoop .alone) .alone
      { with1 (pend cmdSen) m3 with tcnt := 2 })
    (fun t => t.tcnt = 1 && t.out = [] && t.unit1.witer = 1) = true := by decide
/-- S1's claim, S2, S4's refused SEN. -/
theorem test_start_claims : commanded 0x0001 noOperands m3 (fun t => t.unit1.busy && con1 t = 0x8000) = true := by decide
theorem test_start_busy : commanded 0x0001 noOperands (with1 (fun x => { x with busy := true }) m3)
    (fun t => t.unit1.code = .busy && answered false false .none t && t.unit1.witer = 0 && con1 t = 0x8000) = true := by decide
theorem test_start_sen_refused : leadsTo (midway (.start .unit1) .setSen .alone
      (with1 (fun x => { x with busy := true, stat := bclStat }) m3))
    (fun t => stat1 t = 0x000A && con1 t = 0x8000) = true := by decide
/-- S3's end: busy is released. -/
theorem test_start_releases : leadsTo (midway (.start .unit1) .release .alone
      (with1 (fun x => { pend cmdSen x with busy := true, code := .timeout }) m3))
    (fun t => !t.unit1.busy && t.unit1.code = .timeout && con1 t = 0x8001 && answered false false .none t) = true := by decide
theorem test_restart : commanded 0x0002 noOperands m3 (fun t => con1 t = 0x8002 && !t.unit1.busy) = true := by decide
theorem test_stop : commanded 0x0003 noOperands m3 (fun t => con1 t = 0x8004) = true := by decide
/-- P4's last step. -/
theorem test_stop_settles : leadsTo (midway (.stop .unit1) .settle .alone
      (with1 (fun x => { x with busy := true, code := .timeout }) m3))
    (fun t => !t.unit1.busy && t.unit1.code = .idle && answered true false .none t) = true := by decide
/-- B1's load, B5's refusal, B2's check. -/
theorem test_writeByte : commanded 0x0010 { noOperands with data8 := 0xA0 } m3 (fun t => memRead 0x04 t = 0x00A0) = true := by
  decide
theorem test_writeByte_nack : leadsTo (midway (.writeByte .unit1 0xA0) .checkAck .alone
      (with1 (fun x => { x with stat := { Stat.zero with ackstat := true } }) m3))
    (fun t => t.unit1.code = .dataNack && answered false false .none t) = true := by decide
/-- B7's ACKDT, B9's read of RCV. -/
theorem test_readByte_nack : commanded 0x0011 noOperands m3 (fun t => con1 t = 0x8020) = true := by decide
theorem test_readByte_overrun : leadsTo (midway (.readByte .unit1 true) (.takeByte false) .aloneRead
      (with1 (fun x => { x with rcv := 0x11, code := .rxOverrun, stat := { Stat.zero with rbf := true, ov := true } }) m3))
    (fun t => stat1 t = 0x0004 && answered false false (.byte8 0x11) t) = true := by decide
/-- T19: bit 7 of the address is dropped; the read address of 0x50. -/
theorem test_address_byte : addrByte 0xD0 false = 0xA0 ∧ addrByte 0x50 true = 0xA1 := by decide
/-- T13's second probe follows the first. -/
theorem test_scan_next : leadsTo (midway (.scanBus .unit1 8) .settle (.scanStop 1 8 false [] false) m3)
    (fun t => t.polledOp = some ⟨.scanBus .unit1 8, .claim, .scanStart 2 8 false []⟩) = true := by decide
/-- T14: a full list takes no more, and the scan goes on. -/
theorem test_scan_full : leadsTo (midway (.scanBus .unit1 1) .settle (.scanStop 0x50 1 true [0x40] true) m3)
    (fun t => t.polledOp = some ⟨.scanBus .unit1 1, .claim, .scanStart 0x51 1 true [0x40]⟩) = true := by decide
/-- T16: a probe whose START fails sends no STOP. -/
theorem test_scan_busy : leadsTo (midway (.scanBus .unit1 8) .claim (.scanStart 2 8 false [])
      (with1 (fun x => { x with busy := true }) m3))
    (fun t => t.unit1.code = .busy && t.polledOp = some ⟨.scanBus .unit1 8, .claim, .scanStart 3 8 false []⟩) = true := by
  decide
/-- T10: the byte of a failed READ_BYTE is in OUT. -/
theorem test_readData_failed : leadsTo (midway (.readData .unit1 0x50 2) (.takeByte false) (.readNext 0 [0x11])
      (with1 (fun x => { x with rcv := 0x11 }) m3))
    (fun t => t.polledOp = some ⟨.readData .unit1 0x50 2, .setPen, .failStop (.out [0x11, 0x11])⟩) = true := by decide
/-- AddrNack recodes DATA_NACK (44 R232). -/
theorem test_addrNack : leadsTo (midway (.writeData .unit1 0x50 []) .addrNack (.failStop .none)
      (with1 (fun x => { x with code := .dataNack }) m3))
    (fun t => t.unit1.code = .addrNack) = true := by decide
/-- I4, I5's first step, I2's CON. -/
theorem test_init_role3 : commanded 0x0030 { noOperands with cfgw64 := 0x000186A003E80003 } m3
    (fun t => answered false true .none t && t.unit1 = m3.unit1) = true := by decide
theorem test_init_pending_kept : commanded 0x0030 { noOperands with cfgw64 := 0x000186A003E80000 }
    (with1 (pend cmdSen) State.reset) (fun t => con1 t = 0x0001) = true := by decide
theorem test_init_con : initConWord (configOfWord 0x000186A003E81025) = 0xA880 ∧
    initConWord (configOfWord 0x00061A8000328D2A) = 0xB200 := by decide
theorem test_init_config : configOfWord 0x00061A8000328D2A = ⟨.slave10, 400000, 0x234, false, true, false, 50, true⟩ := by
  decide
/-- C1. -/
theorem test_clearErrors : commanded 0x0031 noOperands
    (with1 (fun x => { x with busy := true, code := .timeout, stat := bclStat }) m3)
    (fun t => !t.unit1.busy && t.unit1.code = .idle && stat1 t = 0x0002) = true := by decide
/-- Q1, Q2, Q4, Q6. -/
theorem test_isBusy : commanded 0x0032 noOperands (with1 (fun x => { x with busy := true }) m3)
    (answered true false (.busy true)) = true := by decide
theorem test_getStatus : commanded 0x0033 noOperands (with1 (fun x => { x with code := .timeout }) m3)
    (answered true false (.code4 2)) = true := by decide
theorem test_getConfig : commanded 0x0034 noOperands (with1 (fun x => { x with add := 0x50 }) sl)
    (answered true false (.config 0x000186A003E81025 (some 7))) = true := by decide
theorem test_registerCallback : commanded 0x0135 { noOperands with cbh := some 9 } m3
    (fun t => t.unit2.cb = some 9 && answered true false .none t) = true := by decide
/-- While a command is in flight the polled context is held before GET_STATUS (00_scope R8), and not before IS_BUSY
(46 R293). -/
theorem test_getStatus_waits : leadsTo (upNext [.host (.cmd 0x0033 noOperands)]
      (midway (.start .unit1) .setSen .alone (with1 (fun x => { x with busy := true }) m3)))
    (fun t => t.out = [] && t.agenda.take 2 = [.engine, .host (.cmd 0x0033 noOperands)]) = true := by decide
theorem test_isBusy_midway : leadsTo (upNext [.host (.cmd 0x0032 noOperands)]
      (midway (.start .unit1) .setSen .alone (with1 (fun x => { x with busy := true }) m3)))
    (fun t => t.out = [.response .polled ⟨true, false, .busy true⟩] && t.polledOp.isSome) = true := by decide
/-- X1, X2. -/
theorem test_illegal : commanded 0x0005 noOperands m3 (fun t => answered false true .none t && t.unit1 = m3.unit1) = true ∧
    commanded 0x0201 noOperands m3 (answered false true .none) = true := by decide

/-! ## Witnesses: each shows a state and operands that meet the hypotheses of the statement it is named after, one
conjunct or theorem per clause. -/

theorem witness_StepRunsDecodedInstruction :
    faultFree m3 ∧ decode (.cmd 0x0001 noOperands) = .ok (.start .unit1) ∧
    (upNext [.host (.cmd 0x0001 noOperands)] m3).agenda = .host (.cmd 0x0001 noOperands) :: [] ∧
    (upNext [.callback (.cmd 0x0001 noOperands)] { m3 with inCallback := true }).agenda =
      .callback (.cmd 0x0001 noOperands) :: [] ∧
    m3.agenda = [] ∧ (serving .entry sl).agenda = .isr :: [] ∧ (serving .entry sl).isrOp = some ⟨.unit1, .entry⟩ :=
  ⟨rfl, rfl, rfl, rfl, rfl, rfl, rfl⟩

theorem witness_DecodeOfEncodeIsIdentity : (Instr.conMulti .unit2 0x801F).wellFormed = true ∧
    (Instr.readData .unit1 0xFF 0).wellFormed = true ∧ (Instr.regR .unit1 7).wellFormed = true ∧
    (Instr.rsvdW .unit1 8 0xFFFF).wellFormed = true ∧ (Instr.init .unit1 2 none).wellFormed = true := by decide

theorem witness_CommandDecoderAcceptsExactlyTheMap : decodeCmd 0x0140 noOperands = .ok (.dispatch .unit2) := rfl

theorem witness_IllegalCommandsChangeNothing : faultFree m3 ∧
    (upNext [.host (.cmd 0x0201 noOperands)] m3).agenda = .host (.cmd 0x0201 noOperands) :: [] ∧
    (0x0201#16).extractLsb' 9 7 ≠ 0#7 ∧ ((0x0041#16).extractLsb' 0 8).toNat ∉ [0x01, 0x02, 0x03, 0x04, 0x10, 0x11, 0x20,
      0x21, 0x22, 0x23, 0x24, 0x30, 0x31, 0x32, 0x33, 0x34, 0x35, 0x36, 0x40] ∧
    (0x000186A003E80003#64).extractLsb' 0 2 = 3#2 := by decide

/-- A bounded device turns one byte too many away. -/
theorem witness_IllegalCommandsChangeNothing_lengths (h : Config.maxLen = some 1) : ∃ m, Config.maxLen = some m ∧
    m < ([0x12, 0x34] : List Byte).length ∧ m < (2#16).toNat := ⟨1, h, by decide, by decide⟩

/-- INIT and START in any context, GET_STATUS in the polled one. -/
theorem witness_PolledCommandWaitsForTheEngine : (Instr.init .unit1 0 none).wellFormed = true ∧
    commandClass (.init .unit1 0 none) = some .P ∧ commandClass (.start .unit2) = some .B ∧
    (midway (.wait .unit1) (.waitLoop .alone) .alone m3).inCallback = false ∧
    (midway (.wait .unit1) (.waitLoop .alone) .alone m3).polledOp ≠ none ∧
    (Instr.getStatus .unit1).wellFormed = true ∧ commandClass (.getStatus .unit1) = some .N ∧
    (midway (.wait .unit1) (.waitLoop .alone) .alone m3).issuer = .polled ∧
    ∀ u, Instr.getStatus .unit1 ≠ .isBusy u := by
  refine ⟨?_, ?_, ?_, ?_, ?_, ?_, ?_, ?_, fun u h => by cases h⟩ <;> decide

theorem witness_StepKeepsBlockInvariant :
    blockInv (midway (.wait .unit1) (.waitLoop .alone) .alone { with1 (pend cmdSen) m3 with tcnt := 2 }) ∧
    ∃ t, step (midway (.wait .unit1) (.waitLoop .alone) .alone { with1 (pend cmdSen) m3 with tcnt := 2 }) = .next t :=
  ⟨by decide, _, rfl⟩

theorem witness_StepKeepsScanOrder :
    scanOrdered (midway (.scanBus .unit1 8) .settle (.scanStop 0x51 8 true [0x40, 0x50] true) m3) ∧
    scanListOrdered 1 0 [] ∧ scanListOrdered 126 8 [0x40] ∧
    ∃ t, step (midway (.scanBus .unit1 8) .settle (.scanStop 0x51 8 true [0x40, 0x50] true) m3) = .next t :=
  ⟨(by decide : scanListOrdered 0x51 8 [0x40, 0x50]), by decide, by decide, _, rfl⟩

theorem witness_OtherUnitIsUntouched : (∃ t, exec (.start .unit1) m3 = .next t) ∧ UnitId.unit2 ≠ unitOf (.start .unit1) ∧
    (midway (.wait .unit1) (.waitLoop .alone) .alone m3).polledOp = some ⟨.wait .unit1, .waitLoop .alone, .alone⟩ ∧
    (serving .select sl).isrOp = some ⟨.unit1, .select⟩ ∧ ∃ t, isrStep (serving .select sl) = .next t :=
  ⟨⟨_, rfl⟩, by decide, rfl, rfl, _, rfl⟩

theorem witness_OnlyInitStoresTheConfiguration : ∃ t,
    step (midway (.init .unit1 0 none) (.initStore Configuration.reset none) .alone m3) = .next t ∧
    (getUnit t .unit1).cfg ≠
      (getUnit (midway (.init .unit1 0 none) (.initStore Configuration.reset none) .alone m3) .unit1).cfg :=
  ⟨_, rfl, by decide⟩

theorem witness_ConWriteStoresConfiguration : Instr.conCfg .unit1 0x9800 ∈ conForms .unit1 0x9800 ∧
    (0x9800#16).extractLsb' 11 2 = 0b11#2 ∧ (0x8800#16).extractLsb' 11 2 ≠ 0b11#2 := by decide

/-- Nothing new; refused for each of the three reasons; accepted. -/
theorem witness_ConWriteCommandAcceptance : Instr.conMulti .unit1 0x8003 ∈ conForms .unit1 0x8003 ∧
    (0x8001#16).extractLsb' 0 5 &&& ~~~cmdSen = 0#5 ∧
    2 ≤ popcount5 ((0x8003#16).extractLsb' 0 5 &&& ~~~(0#5)) ∧ (with1 (pend cmdSen) m3).unit1.con.cmd ≠ 0#5 ∧
    bclStat.bcl = true ∧ (0x8010#16).extractLsb' 0 5 &&& ~~~(0#5) ≠ 0#5 ∧
    popcount5 ((0x8010#16).extractLsb' 0 5 &&& ~~~(0#5)) ≤ 1 ∧ m3.unit1.con.cmd = 0#5 ∧ m3.unit1.stat.bcl = false := by decide

theorem witness_DisableClearsTheUnit : Instr.conCfg .unit1 0x0000 ∈ conForms .unit1 0x0000 ∧
    (getUnit m3 .unit1).con.en = true ∧ (0x0000#16).getLsbD 15 = false ∧ (getUnit State.reset .unit1).con.en = false ∧
    (0x8000#16).getLsbD 15 = true := by decide

theorem witness_CommandFormsStartTheOperation : (getUnit m3 .unit1).con.cmd = 0#5 ∧ (getUnit m3 .unit1).stat.bcl = false ∧
    (0x8001#16).getLsbD 15 = true ∧ (Instr.conSen .unit1 0x8001).wellFormed = true ∧
    (Instr.conRsen .unit1 0x8002).wellFormed = true ∧ (Instr.conPen .unit1 0x8004).wellFormed = true ∧
    (Instr.conRcen .unit1 0x8028).wellFormed = true ∧ (Instr.conXen .unit1 0x8010).wellFormed = true := by decide

theorem witness_TransmitRegisterWrite : (with1 (pend cmdXen) m3).unit1.con.cmd.getLsbD 4 = true ∧ bclStat.bcl = true ∧
    (getUnit m3 .unit1).con.cmd.getLsbD 4 = false ∧ (getUnit m3 .unit1).stat.bcl = false := by decide

theorem witness_IgnoredWritesAndReservedReads : 0x8#4 ≤ 0x8#4 ∧ 0x8#4 ≤ 0xF#4 := by decide

theorem witness_RegisterReadReturnsTheFields : (Instr.regR .unit1 0).wellFormed = true ∧
    (Instr.regR .unit1 1).wellFormed = true ∧ (Instr.regR .unit2 2).wellFormed = true ∧
    (Instr.regR .unit1 3).wellFormed = true ∧ (Instr.regR .unit1 4).wellFormed = true ∧
    (Instr.regR .unit1 6).wellFormed = true ∧ (Instr.regR .unit2 7).wellFormed = true := by decide

theorem witness_RegisterWriteFrame : (Instr.rsvdW .unit1 0xF 1, 0xF#4) ∈ writeForms .unit1 1 0xF ∧
    (Instr.conSen .unit1 1, 0x0#4) ∈ writeForms .unit1 1 0xF ∧
    ¬ (unitOfBit ((0x11#5).getLsbD 4) = .unit1 ∧ ((0x11#5).extractLsb' 0 4 = 0x0#4 ∨
      (0x11#5).extractLsb' 0 4 = 0x1#4 ∧ ((0x0#4 : BitVec 4) = 0x0#4 ∨ (0x0#4 : BitVec 4) = 0x4#4) ∨
      (0x11#5).extractLsb' 0 4 = 0x6#4 ∧ (0x0#4 : BitVec 4) = 0x0#4)) := by decide

theorem witness_MasterEventsCompleteTheCommand : faultFree m3 ∧ (getUnit m3 .unit1).con.en = true ∧
    (getUnit (with1 (pend cmdSen) m3) .unit1).con.cmd &&& cmdSen ≠ 0#5 ∧
    (getUnit (with1 (pend cmdRsen) m3) .unit1).con.cmd &&& cmdRsen ≠ 0#5 ∧
    (getUnit (with1 (pend cmdPen) m3) .unit1).con.cmd &&& cmdPen ≠ 0#5 ∧
    (getUnit (with1 (pend cmdXen) m3) .unit1).con.cmd &&& cmdXen ≠ 0#5 ∧
    (getUnit (with1 (pend cmdRcen) m3) .unit1).con.cmd &&& cmdRcen ≠ 0#5 ∧
    (upNext [.bus .unit1 .doneSen] m3).agenda = .bus .unit1 .doneSen :: [] := by decide

theorem witness_CollisionAbortsTheCommand : faultFree m3 ∧ (getUnit (with1 (pend cmdPen) m3) .unit1).con.en = true ∧
    (getUnit (with1 (pend cmdPen) m3) .unit1).con.cmd ≠ 0#5 ∧
    (upNext [.bus .unit1 .collide] m3).agenda = .bus .unit1 .collide :: [] ∧ bclStat.bcl = true ∧
    (0x8001#16).getLsbD 15 = true := by decide

/-- A disabled unit; each master event without its bit; COLLIDE with none; a slave event in the master role; an active
slave with SLV IDLE and READ. -/
theorem witness_EventsNeedTheirCondition : faultFree State.reset ∧ (getUnit State.reset .unit1).con.en = false ∧
    (getUnit m3 .unit1).con.cmd = 0#5 ∧ (getUnit m3 .unit1).con.cmd.getLsbD 0 = false ∧
    (getUnit m3 .unit1).con.cmd.getLsbD 1 = false ∧ (getUnit m3 .unit1).con.cmd.getLsbD 2 = false ∧
    (getUnit m3 .unit1).con.cmd.getLsbD 3 = false ∧ (getUnit m3 .unit1).con.cmd.getLsbD 4 = false ∧
    isSlaveEvent (.sTx true) = true ∧ (getUnit m3 .unit1).con.mode = .master ∧
    (getUnit sl .unit1).con.en = true ∧ (getUnit sl .unit1).con.mode ≠ .master ∧ (getUnit sl .unit1).slv = .idle ∧
    (getUnit (with1 (fun x => { x with slv := .read }) sl) .unit1).slv = .read ∧
    (upNext [.bus .unit1 .collide] m3).agenda = .bus .unit1 .collide :: [] := by decide

theorem witness_SlaveStartAndStop : slaveReady .unit1 sl ∧
    (upNext [.bus .unit1 (.sStart true)] sl).agenda = .bus .unit1 (.sStart true) :: [] ∧
    (upNext [.bus .unit1 .sStop] sl).agenda = .bus .unit1 .sStop :: [] := by decide

/-- Own address with either direction, the general call, and an address that is neither. -/
theorem witness_SevenBitAddressByte : slaveReady .unit1 (with1 (fun x => { x with slv := .awaitAddr }) sl) ∧
    (getUnit sl .unit1).con.mode = .slave7 ∧
    (0x80#8).toNat / 2 = (getUnit sl .unit1).add.toNat % 128 ∧ (0x80#8).toNat % 2 = 0 ∧
    (0x81#8).toNat / 2 = (getUnit sl .unit1).add.toNat % 128 ∧ (0x81#8).toNat % 2 = 1 ∧
    ¬ (0x00#8).toNat / 2 = (getUnit sl .unit1).add.toNat % 128 ∧ (getUnit sl .unit1).con.gcen = true ∧
    ¬ (0xA0#8).toNat / 2 = (getUnit sl .unit1).add.toNat % 128 ∧ (0xA0#8) ≠ 0x00#8 := by decide

/-- The first byte for a write, for a read after a match, the general call, no match; the second byte that matches and one
that does not. -/
theorem witness_TenBitAddressBytes : slaveReady .unit1 (sl10 .awaitAddr true) ∧ slaveReady .unit1 (sl10 .hi10 false) ∧
    (getUnit (sl10 .awaitAddr true) .unit1).con.mode = .slave10 ∧ (getUnit (sl10 .awaitAddr true) .unit1).m10 = true ∧
    (0xF4#8).toNat / 2 = 0b1111000 + (getUnit (sl10 .awaitAddr true) .unit1).add.toNat / 256 ∧ (0xF4#8).toNat % 2 = 0 ∧
    (0xF5#8).toNat / 2 = 0b1111000 + (getUnit (sl10 .awaitAddr true) .unit1).add.toNat / 256 ∧ (0xF5#8).toNat % 2 = 1 ∧
    (getUnit (with1 (fun x => { x with con := { x.con with gcen := true } }) (sl10 .awaitAddr true)) .unit1).con.gcen = true ∧
    (getUnit (sl10 .awaitAddr false) .unit1).m10 = false ∧ (0xF5#8) ≠ 0x00#8 ∧
    (0x34#8).toNat = (getUnit (sl10 .hi10 false) .unit1).add.toNat % 256 ∧
    (0x35#8).toNat ≠ (getUnit (sl10 .hi10 false) .unit1).add.toNat % 256 := by decide

theorem witness_SlaveDataByte : slaveReady .unit1 (with1 (fun x => { x with slv := .write }) sl) ∧
    (getUnit sl .unit1).stat.rbf = false ∧
    slaveReady .unit1 (with1 (fun x => { x with slv := .write, stat := { Stat.zero with rbf := true } }) sl) := by decide

theorem witness_SlaveTransmitByte : slaveReady .unit1 (with1 (fun x => { x with slv := .read }) sl) := by decide

/-- A command pending, and a class B command in flight. -/
theorem witness_SlaveEventDuringMasterFaults : faultFree sl ∧ slaveEnabled (.sStart false) sl.unit1 = true ∧
    slaveEnabled (.sStart false) (pend cmdSen sl.unit1) = true ∧ pending (pend cmdSen sl.unit1) = true ∧
    masterBusy .unit1 { sl with polledOp := some ⟨.start .unit1, .setSen, .alone⟩ } = true := by decide

theorem witness_FaultStopsEveryAgent : ({ m3 with faultMark := some .dispatchContext } : State).faultMark =
    some .dispatchContext := rfl

/-- Taken; a class B command on the unit; not enabled. -/
theorem witness_InterruptEntry : faultFree sl ∧ (with1 (fun x => { x with sif := true }) sl).unit1.sif = true ∧
    sl.unit1.con.sie = true ∧ sl.isrOp = none ∧ masterBusy .unit1 sl = false ∧
    masterBusy .unit1 { sl with polledOp := some ⟨.start .unit1, .setSen, .alone⟩ } = true ∧ sl.unit1.sif = false ∧
    (upNext [.takeIrq .unit1] sl).agenda = .takeIrq .unit1 :: [] := by decide

/-- A unit-1 DISPATCH at its entry with the flags of `st`, the callback returning at once. -/
def dispatching (st : Stat) : State :=
  upNext [.isr, .isr, .callbackReturn] { with1 (fun x => { x with stat := st }) sl with
    isrOp := some ⟨.unit1, .entry⟩, issuer := .interrupt }

theorem witness_DispatchReportsOneEventByPriority : faultFree (dispatching Stat.zero) ∧
    (dispatching Stat.zero).issuer = .interrupt ∧ (dispatching Stat.zero).isrOp = some ⟨.unit1, .entry⟩ ∧
    (getUnit (dispatching Stat.zero) .unit1).cb = some 7 ∧
    (dispatching Stat.zero).agenda = .isr :: .isr :: .callbackReturn :: [] ∧
    (getUnit (dispatching { Stat.zero with sdet := true, treq := true }) .unit1).stat.sdet = true ∧
    (getUnit (dispatching { Stat.zero with pdet := true }) .unit1).stat.pdet = true ∧
    (getUnit (dispatching { Stat.zero with rbf := true }) .unit1).stat.rbf = true ∧
    (getUnit (dispatching { Stat.zero with treq := true }) .unit1).stat.treq = true := by decide

/-- No callback with a flag set, and a callback with none. -/
theorem witness_DispatchWithNothingToReport :
    (getUnit (with1 (fun x => { x with cb := none }) (dispatching { Stat.zero with rbf := true })) .unit1).cb = none ∧
    (getUnit (dispatching Stat.zero) .unit1).stat = Stat.zero ∧
    (upNext [.isr] (dispatching Stat.zero)).agenda = .isr :: [] := by decide

theorem witness_DispatchOutsideTheInterruptFaults : m3.faultMark = none ∧ m3.issuer ≠ .interrupt ∧
    ({ m3 with issuer := .callback } : State).issuer ≠ .interrupt := by decide

theorem witness_BlockingCommandInCallbackFaults : m3.faultMark = none ∧ ({ m3 with inCallback := true } : State).inCallback = true ∧
    (Instr.start .unit1).wellFormed = true ∧ commandClass (.start .unit1) = some .B ∧
    commandClass (.init .unit1 0 none) = some .P ∧ commandClass (.clearErrors .unit1) = some .N := by decide

/-- A device at 40 MHz meets each clause of the divider: exact at both ends, clamped low, clamped high. -/
theorem witness_DividerIsExactOrClamped (h : (Config.fcyHz : Nat) = 40000000) : mayIssue m3 ∧
    (Config.fcyHz : Nat) / (2 * (306#32).toNat) ≤ 65537 ∧ 4 ≤ (Config.fcyHz : Nat) / (2 * (5000000#32).toNat) ∧
    (Config.fcyHz : Nat) / (2 * (5000001#32).toNat) < 4 ∧ 65537 < (Config.fcyHz : Nat) / (2 * (305#32).toNat) := by
  rw [h]
  exact ⟨fun _ => rfl, by decide, by decide, by decide, by decide⟩

/-- With no command in flight, and from a callback while one is. -/
theorem witness_ClearErrorsTouchesBookkeepingOnly : mayIssue m3 ∧
    mayIssue { midway (.start .unit1) .setSen .alone m3 with issuer := .callback, inCallback := true } :=
  ⟨fun _ => rfl, fun h => by cases h⟩

theorem witness_AccessorsReadAndWriteNothing : mayIssue State.reset ∧
    mayIssue { midway (.start .unit1) .setSen .alone m3 with issuer := .callback } :=
  ⟨fun _ => rfl, fun h => by cases h⟩

theorem witness_RegisterCallbackReplaces : mayIssue sl ∧ mayIssue { midway (.stop .unit2) .setPen .alone sl with issuer := .callback } :=
  ⟨fun _ => rfl, fun h => by cases h⟩

/-- An enabled unit, a disabled one with nothing pending, and one that accepted SEN while disabled; roles 0 and 2. -/
theorem witness_InitConfiguresTheUnit : faultFree m3 ∧ engineFree m3 ∧ (0x000186A003E80000#64).extractLsb' 0 2 ≠ 3#2 ∧
    (2#64).extractLsb' 0 2 ≠ 3#2 ∧ (getUnit m3 .unit1).con.en = true ∧ (getUnit State.reset .unit1).con.en = false ∧
    (getUnit (with1 (pend cmdSen) State.reset) .unit1).con.cmd = cmdSen ∧
    (upNext (List.replicate 5 .engine) m3).agenda = List.replicate 5 .engine ++ [] := by decide

theorem witness_StartOnBusyUnitFails : engineFree (with1 (fun x => { x with busy := true }) m3) ∧
    (getUnit (with1 (fun x => { x with busy := true }) m3) .unit1).busy = true ∧
    (Instr.start .unit1).wellFormed = true ∧ (Instr.writeData .unit1 0x50 []).wellFormed = true ∧
    (Instr.writeRegister .unit1 0x50 0x10 []).wellFormed = true ∧ (Instr.readData .unit1 0x50 0).wellFormed = true ∧
    (Instr.readRegister .unit1 0x50 0x10 0).wellFormed = true := by decide

/-- Every agenda a statement names can be met over any state: `upNext` changes nothing else. With `l` the moves of a clause
and `rest` what follows, this is the agenda of the clauses whose moves depend on `waitBudget`. -/
theorem witness_agendas (l rest : List Move) (s : State) : (upNext (l ++ rest) s).agenda = l ++ rest ∧
    (∀ u, getUnit (upNext (l ++ rest) s) u = getUnit s u) ∧ (faultFree s → faultFree (upNext (l ++ rest) s)) ∧
    (engineFree s → engineFree (upNext (l ++ rest) s)) :=
  ⟨rfl, fun u => by cases u <;> rfl, id, id⟩

/-- M3 with BCL set. -/
def collided : State := with1 (fun x => { x with stat := bclStat }) m3

/-- The premises all clauses on an engine write that is refused or not new share. -/
abbrev issuable (s : State) : Prop := faultFree s ∧ engineFree s ∧ (getUnit s .unit1).busy = false ∧
  (getUnit s .unit1).cfg.timeoutMs ≠ 0#16

/-- BCL set and command bit `j` not pending. -/
abbrev refusedByBcl (j : Nat) (s : State) : Prop := issuable s ∧ (getUnit s .unit1).con.cmd.getLsbD j = false ∧
  (getUnit s .unit1).stat.bcl = true

/-- Another command than bit `j` pending, no error flag. -/
abbrev refusedByPending (j : Nat) (s : State) : Prop := issuable s ∧ (getUnit s .unit1).con.cmd.getLsbD j = false ∧
  (getUnit s .unit1).con.cmd ≠ 0#5 ∧ (getUnit s .unit1).stat.bcl = false ∧ (getUnit s .unit1).stat.ov = false

/-- The unit enabled with exactly command `b` pending, no error flag. -/
abbrev notNew (b : BitVec 5) (s : State) : Prop := issuable s ∧ (getUnit s .unit1).con.en = true ∧
  (getUnit s .unit1).con.cmd = b ∧ (getUnit s .unit1).stat.bcl = false ∧ (getUnit s .unit1).stat.ov = false

theorem witness_StartClaimsAndSucceeds : masterReady .unit1 m3 ∧ (getUnit m3 .unit1).busy = false ∧
    (upNext (promptCommand .unit1 .doneSen) m3).agenda = promptCommand .unit1 .doneSen ++ [] ∧
    refusedByBcl 0 collided ∧ refusedByPending 0 (with1 (pend cmdPen) m3) ∧ notNew cmdSen (with1 (pend cmdSen) m3) := by
  decide

theorem witness_RestartAndWaitSucceed : masterReady .unit1 m3 ∧
    (upNext [.bus .unit1 .doneRsen, .engine, .engine] m3).agenda = [.bus .unit1 .doneRsen, .engine, .engine] ++ [] ∧
    (upNext [.engine] m3).agenda = .engine :: [] ∧ refusedByBcl 1 collided ∧
    refusedByPending 1 (with1 (pend cmdSen) m3) := by decide

theorem witness_StopReleasesTheUnit : masterReady .unit1 m3 ∧
    (upNext [.bus .unit1 .donePen, .engine, .engine, .engine] m3).agenda =
      [.bus .unit1 .donePen, .engine, .engine, .engine] ++ [] ∧ refusedByBcl 2 collided ∧
    refusedByPending 2 (with1 (pend cmdSen) m3) ∧ notNew cmdSen (with1 (pend cmdSen) m3) ∧
    refusedByPending 2 (with1 (pend cmdRsen) m3) ∧ notNew cmdRsen (with1 (pend cmdRsen) m3) ∧
    (BusEvent.doneRsen, cmdRsen, Sym.restart) ∈
      [(BusEvent.doneSen, cmdSen, Sym.start), (.doneRsen, cmdRsen, .restart)] := by decide

/-- Unit 1 in the wait loop of the form `f`, over a unit changed by `g`, with count `c` and `n` engine moves to come. -/
def waitingIn (f : Instr × Waiter × Frame) (g : BusUnit → BusUnit) (c : BitVec 32) (n : Nat) : State :=
  upNext (List.replicate n .engine) (midway f.1 (.waitLoop f.2.1) f.2.2 { with1 g m3 with tcnt := c })

/-- A unit-1 WAIT in its loop over a unit changed by `f`, with count `c`. -/
def waiting (f : BusUnit → BusUnit) (c : BitVec 32) : State :=
  midway (.wait .unit1) (.waitLoop .alone) .alone { with1 f m3 with tcnt := c }

/-- Every form with BCL, with OV alone, and with neither and nothing pending. -/
theorem witness_WaitIterationChecksErrorsFirst : ∀ f ∈ waitForms .unit1 0x55 true,
    faultFree (waitingIn f id 3 1) ∧ (waitingIn f id 3 1).polledOp = some ⟨f.1, .waitLoop f.2.1, f.2.2⟩ ∧
    (waitingIn f id 3 (1 + stepsAfterWait f.2.1 false)).agenda =
      List.replicate (1 + stepsAfterWait f.2.1 false) .engine ++ [] ∧
    (waitingIn f id 3 (1 + stepsAfterWait f.2.1 true)).agenda =
      List.replicate (1 + stepsAfterWait f.2.1 true) .engine ++ [] ∧
    (getUnit (waitingIn f (fun x => { x with stat := bclStat }) 3 1) .unit1).stat.bcl = true ∧
    (getUnit (waitingIn f (fun x => { x with stat := { Stat.zero with ov := true } }) 3 1) .unit1).stat.ov = true ∧
    (getUnit (waitingIn f id 3 1) .unit1).con.cmd = 0#5 ∧ (getUnit (waitingIn f id 3 1) .unit1).stat = Stat.zero := by
  decide

/-- Every form with one iteration left, and with three. -/
theorem witness_WaitTimesOutAfterItsCount : ∀ f ∈ waitForms .unit1 0x55 true, ∀ n ∈ [1, 3],
    (waitingIn f (pend cmdSen) (BitVec.ofNat 32 n) (n + stepsAfterWait f.2.1 false)).polledOp =
      some ⟨f.1, .waitLoop f.2.1, f.2.2⟩ ∧
    (getUnit (waitingIn f (pend cmdSen) 3 0) .unit1).con.cmd ≠ 0#5 ∧
    (getUnit (waitingIn f (pend cmdSen) 3 0) .unit1).stat = Stat.zero ∧
    (waitingIn f (pend cmdSen) (BitVec.ofNat 32 n) 0).tcnt.toNat = n ∧
    (waitingIn f (pend cmdSen) (BitVec.ofNat 32 n) (n + stepsAfterWait f.2.1 false)).agenda =
      List.replicate (n + stepsAfterWait f.2.1 false) .engine ++ [] := by decide

theorem witness_CounterLoadSaturatesAndZeroTimesOut : engineFree m3 ∧ (getUnit m3 .unit1).cfg.timeoutMs ≠ 0#16 ∧
    engineFree State.reset ∧ (getUnit State.reset .unit1).cfg.timeoutMs = 0#16 := by decide

theorem witness_WriteByteSendsAndChecksTheAcknowledge : masterReady .unit1 m3 ∧
    (upNext (promptCommand .unit1 (.doneXen true) ++ [.engine]) m3).agenda =
      promptCommand .unit1 (.doneXen true) ++ [.engine] ++ [] ∧ refusedByBcl 4 collided ∧
    refusedByPending 4 (with1 (pend cmdSen) m3) ∧ notNew cmdXen (with1 (pend cmdXen) m3) := by decide

theorem witness_ReadByteReceivesAndAcknowledges : masterReady .unit1 m3 ∧ (getUnit m3 .unit1).stat.rbf = false ∧
    masterReady .unit1 (with1 (fun x => { x with stat := { Stat.zero with rbf := true } }) m3) ∧
    (upNext (promptCommand .unit1 (.doneRcen 0x3C) ++ [.engine]) m3).agenda =
      promptCommand .unit1 (.doneRcen 0x3C) ++ [.engine] ++ [] ∧ refusedByBcl 3 collided ∧
    refusedByPending 3 (with1 (pend cmdSen) m3) := by decide

theorem witness_WriteTransactionsSendEveryByte : masterReady .unit1 m3 ∧ (getUnit m3 .unit1).busy = false ∧
    (Instr.writeData .unit1 0x50 []).wellFormed = true ∧ (Instr.writeRegister .unit1 0x50 0x10 []).wellFormed = true ∧
    (upNext (promptWriteData .unit1 1).tail m3).agenda = (promptWriteData .unit1 ([0x10] : List Byte).length).tail ++ [] := by
  decide

/-- With MAX_LEN unbounded, lists and counts of any length are well formed. -/
theorem witness_transactions_unbounded (h : Config.maxLen = none) (bs : List Byte) (c : BitVec 16) :
    (Instr.writeData .unit1 0x50 bs).wellFormed = true ∧ (Instr.writeRegister .unit1 0x50 0x10 bs).wellFormed = true ∧
    (Instr.readData .unit1 0x50 c).wellFormed = true ∧ (Instr.readRegister .unit1 0x50 0x10 c).wellFormed = true := by
  have hl : ∀ n, lengthAllowed n = true := by intro n; cases n <;> simp [lengthAllowed, h]
  simp [Instr.wellFormed, hl]

theorem witness_ReadDataAcknowledgesAllButTheLast : masterReady .unit1 m3 ∧ (getUnit m3 .unit1).busy = false ∧
    (getUnit m3 .unit1).stat.rbf = false ∧ ([] : List Byte).length < 65536 ∧
    (Instr.readData .unit1 0x50 (BitVec.ofNat 16 ([] : List Byte).length)).wellFormed = true ∧
    (upNext (promptReadData .unit1 []).tail m3).agenda = (promptReadData .unit1 []).tail ++ [] := by decide

theorem witness_ReadRegisterCombinesWriteAndRead : masterReady .unit1 m3 ∧ (getUnit m3 .unit1).busy = false ∧
    (getUnit m3 .unit1).stat.rbf = false ∧
    (Instr.readRegister .unit1 0x50 0x10 (BitVec.ofNat 16 ([] : List Byte).length)).wellFormed = true ∧
    (upNext (promptReadRegister .unit1 []).tail m3).agenda = (promptReadRegister .unit1 []).tail ++ [] := by decide

theorem witness_WriteThenReadReturnsTheBytes : masterReady .unit1 m3 ∧ (getUnit m3 .unit1).busy = false ∧
    (getUnit m3 .unit1).stat.rbf = false ∧ (Instr.writeData .unit1 0x50 []).wellFormed = true ∧
    (Instr.readData .unit1 0x50 (BitVec.ofNat 16 ([] : List Byte).length)).wellFormed = true ∧
    (upNext (.host (encode (.writeData .unit1 0x50 [])) :: (promptWriteData .unit1 0).tail ++
      .host (encode (.readData .unit1 0x50 0)) :: (promptReadData .unit1 []).tail) m3).agenda =
      .host (encode (.writeData .unit1 0x50 [])) :: (promptWriteData .unit1 ([] : List Byte).length).tail ++
      .host (encode (.readData .unit1 0x50 (BitVec.ofNat 16 ([] : List Byte).length))) :: (promptReadData .unit1 []).tail ++
      [] := by decide

/-- A free unit; a busy one; the first and the last probe as the one whose STOP fails. -/
theorem witness_ScanListsTheAnsweringAddresses : masterReady .unit1 m3 ∧ (getUnit m3 .unit1).busy = false ∧
    (upNext (promptScan .unit1 (fun a => a == 0x40)).tail m3).agenda =
      (promptScan .unit1 (fun a => a == 0x40)).tail ++ [] ∧
    faultFree (with1 (fun x => { x with busy := true }) m3) ∧ engineFree (with1 (fun x => { x with busy := true }) m3) ∧
    (getUnit (with1 (fun x => { x with busy := true }) m3) .unit1).busy = true ∧ 0 < 126 ∧ 125 < 126 := by
  refine ⟨by decide, by decide, ?_, by decide⟩
  rw [List.append_nil]
  rfl

/-- The address refused, whatever comes after it: a prompt STOP, or the engine's steps on a silent bus. -/
theorem witness_RefusedAddress_agendas : ∀ more, more = promptStop .unit1 ++ [] ∨
    more = List.replicate (2 + waitBudget m3.unit1) .engine ++ [] →
    (upNext ((promptStart .unit1).tail ++ promptWriteByte .unit1 true ++ [.engine] ++ more) m3).agenda =
      (promptStart .unit1).tail ++ promptWriteByte .unit1 true ++ [.engine] ++ more := fun _ _ => rfl

/-- Every form of no bytes; the index refused in a WRITE_REGISTER of no bytes; both refusals of a READ_REGISTER. -/
theorem witness_RefusedByteEndsTheWriteWithOneStop : masterReady .unit1 m3 ∧ (getUnit m3 .unit1).busy = false ∧
    (Instr.writeData .unit1 0x50 []).wellFormed = true ∧ (Instr.writeRegister .unit1 0x50 0x10 []).wellFormed = true ∧
    (Instr.readData .unit1 0x50 0).wellFormed = true ∧ (Instr.readRegister .unit1 0x50 0x10 0).wellFormed = true ∧
    ([0x10] : List Byte) = [] ++ 0x10 :: [] ∧
    (upNext ((promptStart .unit1).tail ++ promptWriteByte .unit1 false ++ promptWriteByte .unit1 true ++
      promptStop .unit1) m3).agenda = (promptStart .unit1).tail ++ promptWriteByte .unit1 false ++
      (List.replicate ([] : List Byte).length (promptWriteByte .unit1 false)).flatten ++ promptWriteByte .unit1 true ++
      promptStop .unit1 ∧
    (upNext ((promptStart .unit1).tail ++ promptWriteByte .unit1 false ++ promptWriteByte .unit1 false ++
      promptRestart .unit1 ++ promptWriteByte .unit1 true ++ [.engine] ++ promptStop .unit1) m3).agenda =
      (promptStart .unit1).tail ++ promptWriteByte .unit1 false ++ promptWriteByte .unit1 false ++
      promptRestart .unit1 ++ promptWriteByte .unit1 true ++ [.engine] ++ promptStop .unit1 := by decide

/-- The four composites; `witness_agendas` is for the rest of their premises. -/
theorem witness_isComposite : isComposite .unit1 0x50 (.writeData .unit1 0x50 []) false .none ∧
    isComposite .unit1 0x50 (.writeRegister .unit1 0x50 0x10 []) false .none ∧
    isComposite .unit1 0x50 (.readData .unit1 0x50 0) true (.out []) ∧
    isComposite .unit1 0x50 (.readRegister .unit1 0x50 0x10 0) false (.out []) :=
  ⟨.inl ⟨⟨_, rfl⟩, rfl, rfl⟩, .inr (.inl ⟨⟨_, _, rfl⟩, rfl, rfl⟩), .inr (.inr (.inl ⟨⟨_, rfl⟩, rfl, rfl⟩)),
    .inr (.inr (.inr ⟨⟨_, _, rfl⟩, rfl, rfl⟩))⟩

/-- One part of each kind; the reads, of a first byte over an unread one in RCV and of a last byte over an empty RCV, need a
bound of MAX_LEN above their count (`witness_transactions_unbounded`). -/
theorem witness_CompositePart : (∃ b t, CompositePart .unit1 m3.unit1 (.readData .unit1 0x50 0) b t cmdXen [.engine] (.out [])) ∧
    (∃ b t, CompositePart .unit1 m3.unit1 (.writeRegister .unit1 0x50 0x10 []) b t cmdXen [] .none) ∧
    (∃ b t, CompositePart .unit1 m3.unit1 (.readRegister .unit1 0x50 0x10 0) b t cmdXen [] (.out [])) ∧
    (∃ b t, CompositePart .unit1 m3.unit1 (.readRegister .unit1 0x50 0x10 0) b t cmdRsen [] (.out [])) ∧
    (∃ b t, CompositePart .unit1 m3.unit1 (.readRegister .unit1 0x50 0x10 0) b t cmdXen [.engine] (.out [])) ∧
    (∃ b t, CompositePart .unit1 { m3.unit1 with rcv := 0x3C, stat := { Stat.zero with rbf := true } }
      (.readData .unit1 0x50 1) b t cmdRcen [.engine] (.out [0x3C])) ∧
    (∃ b t, CompositePart .unit1 m3.unit1 (.readRegister .unit1 0x50 0x10 2) b t cmdRcen [.engine] (.out [0x11, 0x11])) :=
  ⟨⟨_, _, .address (.inr (.inr (.inl ⟨⟨_, rfl⟩, rfl, rfl⟩)))⟩,
    ⟨_, _, .data (acked := []) (later := []) (.inr ⟨_, _, rfl, rfl⟩)⟩, ⟨_, _, .index⟩, ⟨_, _, .restart⟩,
    ⟨_, _, .secondAddress⟩, ⟨_, _, .readByte (ds := []) (by decide) (.inl rfl)⟩,
    ⟨_, _, .readRegisterByte (ds := [0x11]) (by decide) (.inr rfl)⟩⟩

theorem witness_EngineAlwaysFinishes : faultFree (waiting (pend cmdSen) 3) ∧ (waiting (pend cmdSen) 3).polledOp ≠ none := by
  decide

end Sys2Proof.Tests
end

section
/-! PROOF. What handing over a command does: one lemma for the commands the ENGINE runs (class B and P), one for class N,
and what either does while another command is in flight (00_scope R8, 10_state R55, 46 R298, 70 R357). -/

namespace Sys2Proof.Machine

/-- Outside a callback the host waits while a command is in flight (10_state R55). -/
theorem issue_held {s : State} (hcb : s.inCallback = false) (hp : s.polledOp ≠ none) (i : Instr) (p : Position)
    (k : Frame) : issue i p k s = hold i s := by
  have hsome : s.polledOp.isSome = true := Option.isSome_iff_ne_none.mpr hp
  simp [issue, hcb, hsome]

/-- A well-formed INIT does not ask for the reserved role (30_encoding R112). -/
theorem roleReserved_of_wellFormed {u : UnitId} {w : BitVec 64} {h : Option Handle}
    (hw : (Instr.init u w h).wellFormed = true) : roleReserved w = false := by
  simpa [Instr.wellFormed, roleReserved] using hw

/-- A well-formed command of class B or P is handed to the ENGINE, whatever the state: no length or role is refused. -/
theorem exec_eq_issue {i : Instr} (hw : i.wellFormed = true) (hc : commandClass i = some .B ∨ commandClass i = some .P) :
    ∃ p k, ∀ s, exec i s = .next (issue i p k s) := by
  cases i with
  | start | restart | stop | wait | writeByte | readByte | scanBus => exact ⟨_, _, fun _ => rfl⟩
  | writeData | readData | writeRegister | readRegister => exact ⟨_, _, fun _ => if_pos hw⟩
  | init => exact ⟨_, _, fun _ => if_neg (Bool.eq_false_iff.mp (roleReserved_of_wellFormed hw))⟩
  | _ => simp [commandClass] at hc

/-- A class N command but IS_BUSY is issued as one atomic step, for which the polled context may have to wait. -/
theorem exec_eq_issueAtOnce {i : Instr} (hc : commandClass i = some .N) (hb : ∀ u, i ≠ .isBusy u) :
    ∃ act, ∀ s, exec i s = .next (issueAtOnce i act s) := by
  cases i with
  | clearErrors | getStatus | getConfig | registerCallback | calcDivider => exact ⟨_, fun _ => rfl⟩
  | isBusy u => exact absurd rfl (hb u)
  | _ => simp [commandClass] at hc

/-- Settles O7: a class B or P command is held by `issue`, a class N command by `issueAtOnce`, and `hold` is the agenda the
statement writes out. -/
theorem polledCommandWaitsForTheEngine : Obligations.PolledCommandWaitsForTheEngine := by
  rintro s i hw hp (⟨hc, hcb⟩ | ⟨hc, hi, hb⟩)
  · obtain ⟨p, k, hexec⟩ := exec_eq_issue hw hc
    rw [hexec, issue_held hcb hp, hold]
  · obtain ⟨act, hexec⟩ := exec_eq_issueAtOnce hc hb
    rw [hexec, issueAtOnce_held hi hp, hold]

end Sys2Proof.Machine
end

section
/-! PROOF. What one step can do, said once: what an instruction of each kind makes of the state, and what a move of each
agent makes of it (00_scope R9, 20_memory R83). The invariant of the block and the only change of a stored configuration are
read off from that. -/

namespace Sys2Proof.Machine

/-! ## What an instruction can do -/

/-- The states `exec` of `i` can answer from `s`, by the kind of `i`. -/
inductive ExecResult (i : Instr) (s : State) : State → Prop where
  /-- a response alone: an illegal command (46 R299) or an accessor (46 R293 to R295, 41 R180) -/
  | answered (r : Response) : ExecResult i s (respond r s)
  /-- a class N command of the polled context waits (10_state R55) -/
  | held : ExecResult i s (hold i s)
  /-- CLEAR_ERRORS (46 R292) -/
  | cleared (r : Response) :
      ExecResult i s (respond r (onUnit (unitOf i) (fun x => { x with code := .idle, busy := false }) s))
  /-- REGISTER_CALLBACK (46 R296) -/
  | registered (r : Response) (h : Option Handle) :
      ExecResult i s (respond r (onUnit (unitOf i) (fun x => { x with cb := h }) s))
  /-- a class B or P command goes to the ENGINE (10_state R55): at a position that is neither in a wait nor INIT's store, a
  scan with an ordered list -/
  | issued {p : Position} {k : Frame} (hc : commandClass i = some .B ∨ commandClass i = some .P)
      (hw : ∀ w, p ≠ .waitLoop w) (hi : ∀ c h, p ≠ .initStore c h) (hk : frameOrd k) : ExecResult i s (issue i p k s)
  /-- a register write (40 R130) -/
  | wrote (off : BitVec 4) (v : Word) : ExecResult i s (hwWrite (unitOf i) off v s)
  /-- a register read (40 R147, R148) -/
  | read (off : BitVec 4) : ExecResult i s (hostRead (unitOf i) off s)
  /-- DISPATCH from the interrupt entry of its unit (45 R271 step 1) -/
  | dispatched (he : s.isrOp = some ⟨unitOf i, .entry⟩) :
      ExecResult i s { onUnit (unitOf i) (fun x => { x with sif := false }) s with isrOp := some ⟨unitOf i, .select⟩ }
  /-- DISPATCH from anywhere else (60 R326) -/
  | raised : ExecResult i s (raise .dispatchContext s)

/-- A class N command is held, or does what its one step does. -/
theorem ExecResult.of_issueAtOnce {i : Instr} {s : State} {act : State → State} (h : ExecResult i s (act s)) :
    ExecResult i s (issueAtOnce i act s) := by
  rcases issueAtOnce_cases i act s with e | e <;> rw [e]
  exacts [.held, h]

/-- The list a scan starts with is ordered: empty, at address 1 (44 R237). -/
theorem frameOrd_scanStart (m : Byte) : frameOrd (.scanStart 1 m false []) :=
  ⟨by decide, by decide, Nat.zero_le _, .nil, fun _ hp => absurd hp List.not_mem_nil⟩

/-- `exec` always answers a next state, the one its kind of instruction makes. -/
theorem exec_result (i : Instr) (s : State) : ∃ t, exec i s = .next t ∧ ExecResult i s t := by
  cases i with
  | start | restart | stop | wait | writeByte | readByte =>
    exact ⟨_, rfl, .issued (.inl rfl) nofun nofun trivial⟩
  | scanBus u m => exact ⟨_, rfl, .issued (.inl rfl) nofun nofun (frameOrd_scanStart m)⟩
  | writeData u a bs | writeRegister u a r bs =>
    by_cases h : withinMaxLen bs.length = true
    · exact ⟨_, if_pos h, .issued (.inl rfl) nofun nofun trivial⟩
    · exact ⟨_, if_neg h, .answered _⟩
  | readData u a c | readRegister u a r c =>
    by_cases h : withinMaxLen c.toNat = true
    · exact ⟨_, if_pos h, .issued (.inl rfl) nofun nofun trivial⟩
    · exact ⟨_, if_neg h, .answered _⟩
  | init u w cb =>
    by_cases h : roleReserved w = true
    · exact ⟨_, if_pos h, .answered _⟩
    · exact ⟨_, if_neg h, .issued (.inr rfl) nofun nofun trivial⟩
  | clearErrors => exact ⟨_, rfl, .of_issueAtOnce (.cleared _)⟩
  | registerCallback => exact ⟨_, rfl, .of_issueAtOnce (.registered _ _)⟩
  | getStatus | getConfig | calcDivider => exact ⟨_, rfl, .of_issueAtOnce (.answered _)⟩
  | isBusy => exact ⟨_, rfl, .answered _⟩
  | dispatch u =>
    by_cases h : s.issuer = .interrupt ∧ s.isrOp = some ⟨u, .entry⟩
    · exact ⟨_, if_pos h, .dispatched h.2⟩
    · exact ⟨_, if_neg h, .raised⟩
  | conSen | conRsen | conPen | conRcen | conXen | conCfg | conMulti => exact ⟨_, rfl, .wrote _ _⟩
  | statW | addW | brgW | trnW | rcvW | ifsW | estatW | rsvdW => exact ⟨_, rfl, .wrote _ _⟩
  | rcvR | rsvdR | regR => exact ⟨_, rfl, .read _⟩

/-! ## What a move can do -/

/-- The states a move can make of `s`, by the agent that takes it (00_scope R9). -/
inductive MoveResult (s : State) : State → Prop where
  /-- a move whose conditions do not hold -/
  | unchanged : MoveResult s s
  /-- a request is handed over from context `c` and decodes (46 R298) -/
  | executed {c : Issuer} {i : Instr} {t : State} (ht : ExecResult i { s with issuer := c } t) : MoveResult s t
  /-- a request that does not decode is refused (46 R299) -/
  | rejected (c : Issuer) : MoveResult s (respondIllegal { s with issuer := c })
  /-- ENGINE (10_state R53) -/
  | engine : MoveResult s (engineStep s)
  /-- ISR takes an interrupt (45 R270) -/
  | interrupted (u : UnitId) : MoveResult s (takeInterrupt u s)
  /-- DISPATCH step 2 (45 R271) -/
  | selected {u : UnitId} (hp : s.isrOp = some ⟨u, .select⟩) : MoveResult s (dispatchSelect u s)
  /-- DISPATCH step 3 (45 R271) -/
  | invoked {u : UnitId} {h : Handle} {e : Event} (hp : s.isrOp = some ⟨u, .invoke h e⟩) :
      MoveResult s (dispatchInvoke u h e s)
  /-- the callback returns (45 R271 step 4) -/
  | returned : MoveResult s (callbackReturn s)
  /-- an event of `BUS[u]` (40 R149, 45 R260) -/
  | event (u : UnitId) (e : BusEvent) : MoveResult s (busEvent u e s)

/-- A request handed over runs as the instruction it decodes to, or is refused. -/
theorem serve_result (c : Issuer) (r : Request) (s : State) : ∃ t, serve c r s = .next t ∧ MoveResult s t := by
  unfold serve
  cases decode r with
  | ok i =>
    obtain ⟨t, hexec, ht⟩ := exec_result i { s with issuer := c }
    exact ⟨t, hexec, .executed ht⟩
  | error _ => exact ⟨_, rfl, .rejected c⟩

/-- The ISR's step is the one of its position in DISPATCH (45 R271). -/
theorem isrStep_result (s : State) : ∃ t, isrStep s = .next t ∧ MoveResult s t := by
  unfold isrStep
  cases hs : s.isrOp with
  | none => exact ⟨_, rfl, .unchanged⟩
  | some f =>
    obtain ⟨u, p⟩ := f
    cases p with
    | entry => exact serve_result .interrupt _ s
    | select => exact ⟨_, rfl, .selected hs⟩
    | invoke h e => exact ⟨_, rfl, .invoked hs⟩
    | calling e => exact ⟨_, rfl, .unchanged⟩

/-- A move always answers a next state, the one its agent makes. -/
theorem takeMove_result (m : Move) (s : State) : ∃ t, takeMove m s = .next t ∧ MoveResult s t := by
  cases m with
  | host r => exact serve_result .polled r s
  | callback r =>
    by_cases h : s.inCallback = true
    · obtain ⟨t, hserve, ht⟩ := serve_result .callback r s
      exact ⟨t, (if_pos h).trans hserve, ht⟩
    · exact ⟨_, if_neg h, .unchanged⟩
  | callbackReturn => exact ⟨_, rfl, .returned⟩
  | engine => exact ⟨_, rfl, .engine⟩
  | takeIrq u => exact ⟨_, rfl, .interrupted u⟩
  | isr => exact isrStep_result s
  | bus u e => exact ⟨_, rfl, .event u e⟩

/-- A step takes its move off the agenda, or counts a free move, and then is that move. -/
theorem step_result {s t : State} (h : step s = .next t) :
    ∃ a n, MoveResult { s with agenda := a, tick := n } t := by
  have moved : ∀ m s', takeMove m s' = .next t → MoveResult s' t := by
    intro m s' hm
    obtain ⟨t', ht', hr⟩ := takeMove_result m s'
    obtain rfl := Host.Outcome.next.inj (ht'.symm.trans hm)
    exact hr
  unfold step at h
  split at h
  · cases h
  · split at h
    · exact ⟨_, _, moved _ _ h⟩
    · exact ⟨_, _, moved _ _ h⟩

/-! ## What the ISR's own steps can do -/

/-- Taking an interrupt changes nothing, raises the fault of 60 R324, or enters DISPATCH when none runs (45 R270). -/
theorem takeInterrupt_cases (u : UnitId) (s : State) :
    takeInterrupt u s = s ∨ takeInterrupt u s = raise .dispatchDuringMaster s ∨
      s.isrOp = none ∧ takeInterrupt u s = { s with isrOp := some ⟨u, .entry⟩ } := by
  unfold takeInterrupt
  split
  case isTrue h =>
    rw [Bool.and_eq_true, Option.isNone_iff_eq_none] at h
    split
    · exact .inr (.inl rfl)
    · exact .inr (.inr ⟨h.2, rfl⟩)
  case isFalse => exact .inl rfl

/-- Selecting an event clears its flag in STAT and nothing else (45 R271 step 2). -/
theorem selectEvent_frame {x y : BusUnit} {e : Event} (h : selectEvent x = some (e, y)) :
    ∃ st, y = { x with stat := st } := by
  unfold selectEvent at h
  split at h; · cases h; exact ⟨_, rfl⟩
  split at h; · cases h; exact ⟨_, rfl⟩
  split at h; · cases h; exact ⟨_, rfl⟩
  split at h; · cases h; exact ⟨_, rfl⟩
  cases h

/-- DISPATCH's selection ends it, or leads to the invocation with at most a flag of STAT cleared (45 R271, R273). -/
theorem dispatchSelect_cases (u : UnitId) (s : State) :
    (∃ e, dispatchSelect u s = endDispatch e s) ∨
    ∃ st h e, dispatchSelect u s =
      { onUnit u (fun x => { x with stat := st }) s with isrOp := some ⟨u, .invoke h e⟩ } := by
  unfold dispatchSelect
  split
  · exact .inl ⟨_, rfl⟩
  · split
    · exact .inl ⟨_, rfl⟩
    next c _ _ e x hsel =>
      obtain ⟨st, rfl⟩ := selectEvent_frame hsel
      exact .inr ⟨st, c, e, rfl⟩

/-- A callback that returns ends its DISPATCH; with none running nothing happens (45 R271 step 4). -/
theorem callbackReturn_cases (s : State) : callbackReturn s = s ∨ ∃ e, callbackReturn s = endDispatch e s := by
  unfold callbackReturn
  split
  · exact .inr ⟨_, rfl⟩
  · exact .inl rfl

/-! ## The invariant of the block -/

/-- A change of DISPATCH's position outside its callback, from one outside it, keeps `blockInv`. -/
theorem blockInv_setIsrOp {s : State} {o : Option Servicing} (h : blockInv s) (hs : isCalling s.isrOp = false)
    (ho : isCalling o = false) : blockInv { s with isrOp := o } := by
  obtain ⟨h1, h2, hcall, hwait, hpolled⟩ := h
  exact ⟨h1, h2, hcall.trans (hs.trans ho.symm), hwait, hpolled⟩

/-- Invoking the callback sets `in_callback` with the position it belongs to (10_state R54). -/
theorem blockInv_dispatchInvoke {s : State} (u : UnitId) (c : Handle) (e : Event) (h : blockInv s) :
    blockInv (dispatchInvoke u c e s) := by
  obtain ⟨h1, h2, -, hwait, hpolled⟩ := h
  exact ⟨h1, h2, rfl, hwait, hpolled⟩

/-- Taking an interrupt keeps `blockInv`. -/
theorem blockInv_takeInterrupt {s : State} (u : UnitId) (h : blockInv s) : blockInv (takeInterrupt u s) := by
  rcases takeInterrupt_cases u s with e | e | ⟨hnone, e⟩ <;> rw [e]
  · exact h
  · exact blockInv_raise _ h
  · exact blockInv_setIsrOp h (by rw [hnone]; rfl) rfl

/-- DISPATCH's selection keeps `blockInv`. -/
theorem blockInv_dispatchSelect {s : State} {u : UnitId} (h : blockInv s) (hp : s.isrOp = some ⟨u, .select⟩) :
    blockInv (dispatchSelect u s) := by
  rcases dispatchSelect_cases u s with ⟨_, e⟩ | ⟨_, _, _, e⟩ <;> rw [e]
  · exact blockInv_endDispatch _ h
  · exact blockInv_setIsrOp (blockInv_onUnit h fun _ hx => hx) (by rw [onUnit_isrOp, hp]; rfl) rfl

/-- The return of a callback keeps `blockInv`. -/
theorem blockInv_callbackReturn {s : State} (h : blockInv s) : blockInv (callbackReturn s) := by
  rcases callbackReturn_cases s with e | ⟨_, e⟩ <;> rw [e]
  exacts [h, blockInv_endDispatch _ h]

/-- Every instruction keeps `blockInv`. -/
theorem blockInv_execResult {i : Instr} {s t : State} (h : blockInv s) (ht : ExecResult i s t) : blockInv t := by
  cases ht with
  | answered => exact blockInv_emit _ h
  | held => exact h
  | cleared =>
    exact blockInv_emit _ (blockInv_onUnit h fun _ hx => unitInv_of_code hx rfl .idle rfl (by decide))
  | registered => exact blockInv_emit _ (blockInv_onUnit h fun _ hx => hx)
  | issued hc hw => exact blockInv_issue h hw hc
  | wrote => exact blockInv_hwWrite _ _ _ h
  | read => exact blockInv_hostRead _ _ h
  | dispatched he =>
    exact blockInv_setIsrOp (blockInv_onUnit h fun _ hx => hx) (by rw [onUnit_isrOp, he]; rfl) rfl
  | raised => exact blockInv_raise _ h

/-- Every move keeps `blockInv`. -/
theorem blockInv_moveResult {s t : State} (h : blockInv s) (ht : MoveResult s t) : blockInv t := by
  cases ht with
  | unchanged => exact h
  | @executed c _ _ ht => exact blockInv_execResult (s := { s with issuer := c }) h ht
  | rejected c => exact blockInv_emit (s := { s with issuer := c }) _ h
  | engine => exact blockInv_engineStep h
  | interrupted u => exact blockInv_takeInterrupt u h
  | selected hp => exact blockInv_dispatchSelect h hp
  | invoked => exact blockInv_dispatchInvoke _ _ _ h
  | returned => exact blockInv_callbackReturn h
  | event u e => exact blockInv_busEvent u e h

/-- Settles O10: the step is a move from a state that differs in the agenda and the count of free moves alone, of which
`blockInv` does not speak, and every move keeps `blockInv`. -/
theorem stepKeepsBlockInvariant : Obligations.StepKeepsBlockInvariant := by
  intro s t h hstep
  obtain ⟨a, n, ht⟩ := step_result hstep
  exact blockInv_moveResult (s := { s with agenda := a, tick := n }) h ht

/-! ## The stored configuration -/

/-- No instruction's own step stores a configuration: INIT starts with the step that disables the unit (46 R290). -/
theorem cfg_execResult {i : Instr} {s t : State} (ht : ExecResult i s t) (u : UnitId) :
    (getUnit t u).cfg = (getUnit s u).cfg := by
  cases ht with
  | answered | held | raised => simp
  | cleared | registered => rw [getUnit_respond]; exact cfg_onUnit fun _ => rfl
  | issued _ _ hi => exact cfg_issue hi
  | wrote off v => exact cfg_onUnit fun x => (cfg_writeOffset off v x).1
  | read off => rw [hostRead, getUnit_emit, cfg_onUnit fun x => by unfold readEffect; split <;> rfl]
  | dispatched => rw [getUnit_setBlock]; exact cfg_onUnit fun _ => rfl

/-- An environment event stores no configuration. -/
theorem cfg_busEvent (v : UnitId) (e : BusEvent) (s : State) (u : UnitId) :
    (getUnit (busEvent v e s) u).cfg = (getUnit s u).cfg := by
  unfold busEvent
  split
  · split
    · split
      · rw [getUnit_raise]
      · exact cfg_onUnit (cfg_unitEvent e)
    · rfl
  · exact cfg_onUnit (cfg_unitEvent e)

/-- Of all moves only the ENGINE's can change a stored configuration. -/
theorem cfg_moveResult {s t : State} (ht : MoveResult s t) (u : UnitId) :
    t = engineStep s ∨ (getUnit t u).cfg = (getUnit s u).cfg := by
  cases ht with
  | engine => exact .inl rfl
  | unchanged => exact .inr rfl
  | executed ht => exact .inr ((cfg_execResult ht u).trans (by rw [getUnit_setBlock]))
  | rejected => exact .inr (by simp [respondIllegal])
  | interrupted v => right; rcases takeInterrupt_cases v s with e | e | ⟨_, e⟩ <;> simp [e]
  | @selected v =>
    right
    rcases dispatchSelect_cases v s with ⟨_, e⟩ | ⟨_, _, _, e⟩ <;> rw [e]
    · rw [getUnit_endDispatch]
    · rw [getUnit_setBlock]; exact cfg_onUnit fun _ => rfl
  | invoked => exact .inr (by rw [getUnit_dispatchInvoke])
  | returned => right; rcases callbackReturn_cases s with e | ⟨_, e⟩ <;> simp [e]
  | event v e => exact .inr (cfg_busEvent v e s u)

/-- Settles O13: the step that changes a stored configuration is the ENGINE's, and of the engine's steps it is INIT's
store. -/
theorem onlyInitStoresTheConfiguration : Obligations.OnlyInitStoresTheConfiguration := by
  intro s t u hstep hne
  obtain ⟨a, n, ht⟩ := step_result hstep
  have hsame : getUnit { s with agenda := a, tick := n } u = getUnit s u := getUnit_setBlock ..
  rw [← hsame] at hne
  rcases cfg_moveResult ht u with rfl | hcfg
  · exact cfg_engineStep hne
  · exact absurd hcfg hne

end Sys2Proof.Machine
end

section
/-! PROOF. The frame of a register write, said once for `HwWrite` at any offset: which registers can read differently after
it, and what of the unit no write touches (20_memory R78, 40 R130). Every write form is one `HwWrite` (`exec_writeForms`). -/

namespace Sys2Proof.Machine

/-- A write of one offset leaves what every other offset reads, but for STAT after CON or TRN (IWCOL, Disable) and IFS
after CON (Disable). -/
theorem readOffset_writeOffset_of_unreached {off o : BitVec 4}
    (h : ¬ (o = off ∨ o = 0x1#4 ∧ (off = 0x0#4 ∨ off = 0x4#4) ∨ o = 0x6#4 ∧ off = 0x0#4)) (v : Word) (x : BusUnit) :
    readOffset o (writeOffset off v x) = readOffset o x := by
  obtain ⟨y, hy, hcon, hstat, hadd, hbrg, htrn, -⟩ := writeOffset_frame off v x
  push Not at h
  obtain ⟨hne, hs, hi⟩ := h
  rw [hy]
  apply readOffset_congr
  case h0 => rintro rfl; exact (hcon hne.symm).1
  case h1 => rintro rfl; exact hstat (hs rfl).1 hne.symm (hs rfl).2
  case h2 => rintro rfl; exact hadd hne.symm
  case h3 => rintro rfl; exact hbrg hne.symm
  case h4 => rintro rfl; exact htrn hne.symm
  case h5 => exact fun _ => rfl
  case h6 => rintro rfl; exact (hcon (hi rfl)).2.trans (if_neg hne.symm)
  case h7 => exact fun _ => ⟨rfl, rfl⟩

/-- The same over the word addresses of both units: a write reaches its own unit alone. -/
theorem memRead_hwWrite_of_unreached {u : UnitId} {off : BitVec 4} {a : BitVec 5}
    (h : ¬ (unitOfBit (a.getLsbD 4) = u ∧ (a.extractLsb' 0 4 = off ∨
      a.extractLsb' 0 4 = 0x1#4 ∧ (off = 0x0#4 ∨ off = 0x4#4) ∨ a.extractLsb' 0 4 = 0x6#4 ∧ off = 0x0#4)))
    (v : Word) (s : State) : memRead a (hwWrite u off v s) = memRead a s := by
  rw [memRead_eq, memRead_eq]
  by_cases hu : unitOfBit (a.getLsbD 4) = u
  · rw [hu, getUnit_hwWrite, readOffset_writeOffset_of_unreached fun ho => h ⟨hu, ho⟩]
  · rw [getUnit_hwWrite_other hu]

/-- No register write touches the Per-Unit State, RXSR, the trace or the wait counter. -/
theorem writeOffset_leaves_perUnit (off : BitVec 4) (v : Word) (x : BusUnit) :
    (writeOffset off v x).code = x.code ∧ (writeOffset off v x).busy = x.busy ∧
    (writeOffset off v x).cfg = x.cfg ∧ (writeOffset off v x).cb = x.cb ∧ (writeOffset off v x).rxsr = x.rxsr ∧
    (writeOffset off v x).trace = x.trace ∧ (writeOffset off v x).witer = x.witer := by
  obtain ⟨y, hy, -⟩ := writeOffset_frame off v x
  rw [hy]
  exact ⟨rfl, rfl, rfl, rfl, rfl, rfl, rfl⟩

/-- Settles O24: every write form is one `HwWrite`, which reaches the registers the statement names and no state beside
them. -/
theorem registerWriteFrame : Obligations.RegisterWriteFrame := by
  intro u v o s f hf
  refine ⟨_, exec_writeForms hf s, fun a ha => memRead_hwWrite_of_unreached ha v s, hwWrite_tcnt .., hwWrite_polledOp ..,
    hwWrite_isrOp .., hwWrite_inCallback .., hwWrite_faultMark .., hwWrite_out .., fun w => ?_⟩
  by_cases hw : w = u
  · rw [hw, getUnit_hwWrite]
    exact writeOffset_leaves_perUnit f.2 v _
  · simp [getUnit_hwWrite_other hw]

end Sys2Proof.Machine
end

section
/-! PROOF. The decoder and the encoder against each other (30_encoding R101 to R105), which command words decode,
and what an illegal command does (R112, 46 R299). The decoder's answer to a command word is said once, by its Z and its OP. -/

namespace Sys2Proof.Machine

/-! ## Decoding what was encoded -/

/-- A reserved offset is none of the eight registers (20_memory R72). -/
theorem reservedOffset_ne : ∀ off : BitVec 4, off.getLsbD 3 = true →
    off ≠ 0#4 ∧ off ≠ 1#4 ∧ off ≠ 2#4 ∧ off ≠ 3#4 ∧ off ≠ 4#4 ∧ off ≠ 5#4 ∧ off ≠ 6#4 ∧ off ≠ 7#4 := by decide

/-- The reserved offsets are those from 8 on (20_memory R72). -/
theorem reservedOffset_iff : ∀ off : BitVec 4, 8#4 ≤ off ↔ off.getLsbD 3 = true := by decide

/-- The plain read is of any offset but RCV's and the reserved ones (30_encoding R102). -/
theorem regR_wellFormed_iff {u : UnitId} {off : BitVec 4} :
    (Instr.regR u off).wellFormed = true ↔ ¬ 8#4 ≤ off ∧ off ≠ 5#4 := by
  rw [reservedOffset_iff, Bool.not_eq_true, Instr.wellFormed, Bool.and_eq_true, Bool.not_eq_true', bne_iff_ne]

/-- A well-formed register access form is the one its word selects (30_encoding R102). -/
theorem decode_encode_register {i : Instr} (hw : i.wellFormed = true) (hc : commandClass i = none) :
    decode (encode i) = .ok i := by
  cases i with
  | conSen u v | conRsen u v | conPen u v | conRcen u v | conXen u v | conCfg u v =>
    have hlow := beq_iff_eq.mp hw
    simp [encode, decode, decodeReg_regWord, hlow]
  | conMulti u v =>
    obtain ⟨h1, h2, h4, h8, h16, h0⟩ := multi_low v (of_decide_eq_true hw)
    simp [encode, decode, decodeReg_regWord, h1, h2, h4, h8, h16, h0]
  | statW | addW | brgW | trnW | rcvW | ifsW | estatW | rcvR => simp [encode, decode, decodeReg_regWord]
  | rsvdW u off v =>
    obtain ⟨h0, h1, h2, h3, h4, h5, h6, h7⟩ := reservedOffset_ne off hw
    simp [encode, decode, decodeReg_regWord, h0, h1, h2, h3, h4, h5, h6, h7]
  | rsvdR u off =>
    have h8 := (reservedOffset_iff off).mpr hw
    obtain ⟨-, -, -, -, -, h5, -⟩ := reservedOffset_ne off hw
    simp [encode, decode, decodeReg_regWord, h8, h5]
  | regR u off =>
    obtain ⟨h8, h5⟩ := regR_wellFormed_iff.mp hw
    simp only [encode, decode, decodeReg_regWord, h8, h5]
    rfl
  | _ => cases hc

/-- The word of a command selects it by OP, with the operands that come along (30_encoding R104, R105). -/
theorem decode_encode_command {i : Instr} (hc : commandClass i ≠ none) : decode (encode i) = .ok i := by
  cases i with
  | start | restart | stop | wait | writeByte | readByte | writeData | readData | writeRegister | readRegister | scanBus
  | init | clearErrors | isBusy | getStatus | getConfig | registerCallback | calcDivider | dispatch =>
    simp only [encode, decode, decodeCmd, cmdWord_z, cmdWord_op, cmdWord_unit]
    rfl
  | _ => exact absurd rfl hc

/-- Settles O3: the two interfaces apart, the fields of an encoded word are those it was put together from. -/
theorem decodeOfEncodeIsIdentity : Obligations.DecodeOfEncodeIsIdentity := by
  intro i hw
  by_cases hc : commandClass i = none
  · exact decode_encode_register hw hc
  · exact decode_encode_command hc

/-- Settles O2: the decoder computes on each word, Z, U and OP or W, U, OFF and DATA being literal. -/
theorem tableWordsDecode : Obligations.TableWordsDecode := by
  unfold Obligations.TableWordsDecode
  decide

/-! ## Encoding what was decoded -/

/-- The command bits of a written CON word are its five low bits (40 R133). -/
theorem commandBitsSet_eq (v : Word) : commandBitsSet v = popcount5 (v.extractLsb' 0 5) := by
  simp [commandBitsSet, popcount5]

/-- A write word of CON selects one of the seven forms by its low bits, and that form encodes the word (30_encoding R102). -/
theorem encode_decodeReg_con (u : UnitId) (d : Word) :
    (decodeReg (regWord 1#1 u 0#4 d)).wellFormed = true ∧
      encode (decodeReg (regWord 1#1 u 0#4 d)) = .reg (regWord 1#1 u 0#4 d) := by
  rcases low_cases (d.extractLsb' 0 5) with h | h | h | h | h | h | h
  case inr.inr.inr.inr.inr.inr =>
    rw [← commandBitsSet_eq] at h
    obtain ⟨h1, h2, h4, h8, h16, h0⟩ := multi_low d h
    simp [decodeReg_regWord, Instr.wellFormed, encode, h, h1, h2, h4, h8, h16, h0]
  all_goals simp [decodeReg_regWord, Instr.wellFormed, encode, h]

/-- A write word selects a well-formed form that encodes the word (30_encoding R102). -/
theorem encode_decodeReg_write (u : UnitId) (off : BitVec 4) (d : Word) :
    (decodeReg (regWord 1#1 u off d)).wellFormed = true ∧
      encode (decodeReg (regWord 1#1 u off d)) = .reg (regWord 1#1 u off d) := by
  rcases offset_cases off with rfl | rfl | rfl | rfl | rfl | rfl | rfl | rfl | ⟨-, -, hres⟩
  case inl => exact encode_decodeReg_con u d
  case inr.inr.inr.inr.inr.inr.inr.inr =>
    obtain ⟨h0, h1, h2, h3, h4, h5, h6, h7⟩ := reservedOffset_ne off hres
    simp only [decodeReg_regWord, h0, h1, h2, h3, h4, h5, h6, h7]
    exact ⟨hres, rfl⟩
  all_goals simp [decodeReg_regWord, Instr.wellFormed, encode]

/-- A read word selects a well-formed form that encodes the word without its data (30_encoding R101, R102). -/
theorem encode_decodeReg_read (u : UnitId) (off : BitVec 4) (d : Word) :
    (decodeReg (regWord 0#1 u off d)).wellFormed = true ∧
      encode (decodeReg (regWord 0#1 u off d)) = .reg (regWord 0#1 u off 0#16) := by
  rw [decodeReg_regWord, if_neg (by decide)]
  split
  case isTrue h5 => subst h5; exact ⟨rfl, rfl⟩
  case isFalse h5 =>
    split
    case isTrue h8 => exact ⟨(reservedOffset_iff off).mp h8, rfl⟩
    case isFalse h8 => exact ⟨regR_wellFormed_iff.mpr ⟨h8, h5⟩, rfl⟩

/-- Settles O4: a word is its four fields, and W tells the write forms from the read forms. -/
theorem registerWordsReencode : Obligations.RegisterWordsReencode := by
  intro w
  rw [regWord_fields w]
  generalize w.extractLsb' 21 1 = wr
  have hwr : wr = 0#1 ∨ wr = 1#1 := by revert wr; decide
  rw [regWord_w, regWord_read]
  rcases hwr with rfl | rfl
  · exact encode_decodeReg_read ..
  · exact encode_decodeReg_write ..

/-! ## The words that decode -/

/-- The opcode map of 30_encoding R104, as the statements list it. -/
def opcodes : List Nat :=
  [0x01, 0x02, 0x03, 0x04, 0x10, 0x11, 0x20, 0x21, 0x22, 0x23, 0x24, 0x30, 0x31, 0x32, 0x33, 0x34, 0x35, 0x36, 0x40]

/-- The decoder's answer to a command word: Z is looked at first, then OP (30_encoding R103, R104, R112). -/
theorem decodeCmd_cases (w : BitVec 16) (o : OperandRecord) :
    (w.extractLsb' 9 7 ≠ 0#7 ∧ decodeCmd w o = .error .reservedBitsSet) ∨
    (w.extractLsb' 9 7 = 0#7 ∧ (w.extractLsb' 0 8).toNat ∉ opcodes ∧ decodeCmd w o = .error .unknownOpcode) ∨
    (w.extractLsb' 9 7 = 0#7 ∧ (w.extractLsb' 0 8).toNat ∈ opcodes ∧
      ∃ i, decodeCmd w o = .ok i ∧ unitOf i = unitOfBit (w.getLsbD 8)) := by
  unfold decodeCmd
  by_cases hz : w.extractLsb' 9 7 = 0#7
  · right
    simp only [hz, bne_self_eq_false, Bool.false_eq_true, if_false, true_and]
    generalize (w.extractLsb' 0 8).toNat = op
    split
    case h_20 => exact .inl ⟨by simp_all [opcodes], rfl⟩
    all_goals exact .inr ⟨by decide, _, rfl, rfl⟩
  · exact .inl ⟨hz, if_pos (bne_iff_ne.mpr hz)⟩

/-- Settles O5: of the decoder's three answers only the last is an instruction. -/
theorem commandDecoderAcceptsExactlyTheMap : Obligations.CommandDecoderAcceptsExactlyTheMap := by
  intro w o
  change ((∃ i, decodeCmd w o = .ok i) ↔ w.extractLsb' 9 7 = 0#7 ∧ (w.extractLsb' 0 8).toNat ∈ opcodes) ∧ _
  rcases decodeCmd_cases w o with ⟨hz, e⟩ | ⟨-, hop, e⟩ | ⟨hz, hop, i, e, hu⟩ <;> rw [e]
  · exact ⟨⟨nofun, fun h => absurd h.1 hz⟩, nofun⟩
  · exact ⟨⟨nofun, fun h => absurd h.2 hop⟩, nofun⟩
  · refine ⟨⟨fun _ => ⟨hz, hop⟩, fun _ => ⟨i, rfl⟩⟩, fun j hj => ?_⟩
    cases hj
    exact hu

/-! ## Illegal commands -/

/-- A command word with Z set or an unknown OP does not decode. -/
theorem decodeCmd_illegal {w : BitVec 16} (h : w.extractLsb' 9 7 ≠ 0#7 ∨ (w.extractLsb' 0 8).toNat ∉ opcodes)
    (o : OperandRecord) : ∃ e, decodeCmd w o = .error e := by
  rcases decodeCmd_cases w o with ⟨-, e⟩ | ⟨-, -, e⟩ | ⟨hz, hop, -⟩
  · exact ⟨_, e⟩
  · exact ⟨_, e⟩
  · exact h.elim (absurd hz) (absurd hop)

/-- A list or count above MAX_LEN is not allowed (30_encoding R105). -/
theorem withinMaxLen_of_gt {m n : Nat} (hm : Config.maxLen = some m) (hn : m < n) : withinMaxLen n ≠ true := by
  cases n with
  | zero => exact absurd hn (Nat.not_lt_zero m)
  | succ n => simpa [withinMaxLen, lengthAllowed, hm] using hn

/-- Settles O6: a word that does not decode, the reserved role and a length that is not allowed all end in
`respondIllegal`, which only adds the response (46 R299). -/
theorem illegalCommandsChangeNothing : Obligations.IllegalCommandsChangeNothing := by
  refine ⟨?_, ?_, ?_⟩
  · intro s rest w o hf ha hill
    obtain ⟨e, hdec⟩ := decodeCmd_illegal hill o
    rw [step_agenda hf ha]
    simp only [takeMove, serve, decode, hdec]
    rfl
  · intro s u w h hrole
    exact if_pos (beq_iff_eq.mpr hrole)
  · rintro s m i u a r bs c hm (⟨hlen, rfl | rfl⟩ | ⟨hlen, rfl | rfl⟩)
    all_goals exact if_neg (withinMaxLen_of_gt hm hlen)

end Sys2Proof.Machine
end

section
/-! PROOF. The writing composites on a prompt bus (44 R233, R235): WRITE_DATA and WRITE_REGISTER are one operation of the ENGINE,
which differs in the list it sends. -/

namespace Sys2Proof.Machine

/-- The address byte by number (30_encoding R111). -/
theorem addrByte_toNat (a : Byte) (d : Bool) : (addrByte a d).toNat = 2 * (a.toNat % 128) + if d then 1 else 0 := by
  have hlow : (a &&& 0x7F#8).toNat = a.toNat % 128 := Nat.and_two_pow_sub_one_eq_mod a.toNat 7
  have hshift : ((a &&& 0x7F#8) <<< 1).toNat = 2 * (a.toNat % 128) := by
    rw [BitVec.toNat_shiftLeft, hlow, Nat.shiftLeft_eq]
    omega
  rw [addrByte, BitVec.toNat_or, hshift]
  cases d
  · exact Nat.or_zero _
  · exact (Nat.two_pow_add_eq_or_of_lt (i := 1) (b := 1) (by decide) _).symm

/-- A well-formed write starts its list `sent` at START, WRITE_REGISTER's list being the index and the bytes (44 R235). -/
theorem exec_writeComposite {u : UnitId} {a : Byte} {bs sent : List Byte} {i : Instr} (hw : i.wellFormed = true)
    (hi : i = .writeData u a bs ∧ sent = bs ∨ ∃ r, i = .writeRegister u a r bs ∧ sent = r :: bs) :
    unitOf i = u ∧ ∀ s, exec i s = .next (issue i .claim (.writeStart a sent) s) := by
  rcases hi with ⟨rfl, rfl⟩ | ⟨r, rfl, rfl⟩
  all_goals exact ⟨rfl, fun _ => if_pos hw⟩

/-- A START handed over on a free unit claims it at once (42 R196). -/
theorem busy_issue_claim {u : UnitId} {i : Instr} {s : State} (hi : unitOf i = u) (he : engineFree s)
    (hb : (getUnit s u).busy = false) (k : Frame) : (getUnit (issue i .claim k s) u).busy = true := by
  subst hi
  simp [issue_free he, positionStep, hb]

/-- The unit after its prompt START (42 R196). -/
def started (x : BusUnit) : BusUnit := { x with busy := true, trace := x.trace ++ [.start], witer := x.witer + 1 }

/-- A composite handed over, up to the end of its prompt START (42 R196). -/
theorem run_issuedStart {u : UnitId} {i : Instr} {s : State} {l : List Move} (hi : unitOf i = u) (hr : masterReady u s)
    (hb : (getUnit s u).busy = false) (ha : s.agenda = (promptStart u).tail ++ l) (k : Frame) (n : Nat) :
    core.run (4 + n) (issue i .claim k s) = core.run n (resume k true 0 (flying u (started (getUnit s u)) i
      (.waitLoop .start) k (BitVec.ofNat 32 (waitBudget (getUnit s u))) l s)) := by
  obtain ⟨hf, he, hx⟩ := masterReady_parts hr
  subst hi
  have hl : (.engine :: s.agenda : List Move) = promptStart (unitOf i) ++ l := by rw [ha]; rfl
  rw [run_issue he hf, hl, show 4 + n + 1 = 5 + n by omega, core_run_add (run_promptStart rfl hf hx hb)]
  rfl

/-- One byte sent before others is sent as the first of their list. -/
theorem bytesSent_cons (b : Byte) (bs : List Byte) (x : BusUnit) :
    bytesSent bs (bytesSent [b] x) = bytesSent (b :: bs) x := by
  cases bs with
  | nil => simp [bytesSent]
  | cons c cs =>
    have hwiter : x.witer + 1 + (cs.length + 1) = x.witer + (cs.length + 1 + 1) := by omega
    simp [bytesSent, List.getLast?_cons, hwiter]

/-- A write handed over, up to the acknowledged address byte (44 R233). -/
theorem run_issuedAddress {u : UnitId} {a : Byte} {sent : List Byte} {i : Instr} {s : State} {l : List Move}
    (hi : unitOf i = u) (hr : masterReady u s) (hb : (getUnit s u).busy = false)
    (ha : s.agenda = (promptStart u).tail ++ (promptWriteByte u false ++ l)) (n : Nat) :
    core.run (10 + n) (issue i .claim (.writeStart a sent) s) = core.run n (sendNext sent (flying u
      (bytesSent [addrByte a false] (started (getUnit s u))) i .checkAck (.writeAddr sent)
      (BitVec.ofNat 32 (waitBudget (getUnit s u))) l s)) := by
  obtain ⟨hf, -, hx⟩ := masterReady_parts hr
  rw [show 10 + n = 4 + (6 + n) by omega, run_issuedStart hi hr hb ha]
  simp only [resume, if_true, goto_flying]
  rw [core_run_add (run_promptWriteByte hi hf (x := started (getUnit s u)) hx _ false)]
  rfl

/-- The moves of a prompt write, counted. -/
theorem length_promptWriteData (u : UnitId) (n : Nat) : (promptWriteData u n).length = 11 + (6 * n + 5) := by
  have hbytes : ((List.replicate n (promptWriteByte u false)).flatten).length = 6 * n := by
    rw [List.length_flatten, List.map_replicate, List.sum_replicate_nat, Nat.mul_comm]
    rfl
  simp only [promptWriteData, List.length_append, hbytes]
  simp only [promptStart, promptWriteByte, promptStop, promptCommand, List.length_cons, List.length_append, List.length_nil]
  omega

/-- A unit that was ready stays ready through its START and the bytes it sends. -/
theorem readyUnit_bytesSent_started {x : BusUnit} (h : readyUnit x) (bs : List Byte) : readyUnit (bytesSent bs (started x)) := h

/-- The unit after a whole write of the bytes `sent`, the address byte first (44 R233). -/
def writeDone (sent : List Byte) (x : BusUnit) : BusUnit :=
  { x with
    trn := sent.getLastD 0, txsr := sent.getLastD 0, stat := { x.stat with ackstat := false }, busy := false
    code := .idle, trace := x.trace ++ [.start] ++ sent.map (fun b => .tx b false) ++ [.stop]
    witer := x.witer + sent.length + 2 }

/-- A prompt STOP after the bytes ends the write. -/
theorem writeDone_cons (b : Byte) (bs : List Byte) (x : BusUnit) :
    writeDone (b :: bs) x = { bytesSent (b :: bs) (started x) with
      busy := false, code := .idle, trace := (bytesSent (b :: bs) (started x)).trace ++ [.stop],
      witer := (bytesSent (b :: bs) (started x)).witer + 1 } := by
  have hwiter : x.witer + (b :: bs).length + 2 = x.witer + 1 + (b :: bs).length + 1 := by omega
  rw [writeDone, hwiter]
  rfl

/-- Settles O54: START and the address byte, then the list by `run_writePrefix`, and the STOP either prompt or timed out. -/
theorem writeTransactionsSendEveryByte : Obligations.WriteTransactionsSendEveryByte := by
  refine ⟨addrByte_toNat, fun u a bs sent i s rest hr hb hw hi => ?_⟩
  obtain ⟨hu, hexec⟩ := exec_writeComposite hw hi
  obtain ⟨hf, he, hx⟩ := masterReady_parts hr
  have hready := readyUnit_bytesSent_started hx
  refine ⟨fun ha => ⟨_, hexec s, busy_issue_claim hu he hb _, ?_⟩, fun more ha => ?_⟩
  · have hagenda : s.agenda = (promptStart u).tail ++ (promptWriteByte u false ++
        ((List.replicate sent.length (promptWriteByte u false)).flatten ++ (promptStop u ++ rest))) := by
      rw [ha, promptWriteData]
      simp [promptStart]
    have hrun := run_writeLoop hu hf sent _ .checkAck (.writeAddr sent) _ rest (hready [addrByte a false])
      (show BitVec.ofNat 32 (waitBudget (getUnit s u)) = _ from rfl)
    rw [length_promptWriteData, show 11 + (6 * sent.length + 5) - 1 = 10 + (6 * sent.length + 5) by omega,
      run_issuedAddress hu hr hb hagenda]
    refine hrun.trans (congrArg _ ?_)
    rw [bytesSent_cons, ← writeDone_cons]
    exact landed_eq he.2 (writeDone (addrByte a false :: sent)) _ _ _ _
  · rw [List.append_assoc, List.append_assoc] at ha
    obtain ⟨p, k, hrun⟩ := run_writePrefix hu hf [] more sent _ .checkAck (.writeAddr sent) _ (hready [addrByte a false]) rfl
    rw [List.append_nil, sendNext_nil, goto_flying, bytesSent_cons] at hrun
    refine ⟨_, _, hexec s, (run_issuedAddress hu hr hb ha _).trans hrun, ?_⟩
    rw [getUnit_flying, out_flying]
    exact ⟨rfl, rfl, rfl, rfl, stopTimesOut_flying hu hf (hready _) rfl _ (fun _ => rfl) more⟩

end Sys2Proof.Machine
end

section
/-! PROOF. What a write of CON makes of a unit: its configuration part (40 R131, R132), and its command part, which accepts one
command bit, refuses with IWCOL, or finds nothing new (R133 to R138). Every form of the write is one `conWrite`. -/

namespace Sys2Proof.Machine

/-- Every form of a CON write is `conWrite` of its unit (40 R131 to R138). -/
theorem exec_conForms_conWrite {u : UnitId} {v : Word} {i : Instr} (h : i ∈ conForms u v) (s : State) :
    exec i s = .next (onUnit u (conWrite v) s) := by
  rw [exec_conForms h, hwWrite_con]

/-! ## The configuration part -/

/-- A role other than the reserved one is stored as written, and the reserved one keeps the role (40 R131). -/
theorem roleOfBits_getD (r : Role) : ∀ b : BitVec 2,
    (b ≠ 0b11#2 → roleBits ((roleOfBits b).getD r) = b) ∧ (b = 0b11#2 → (roleOfBits b).getD r = r) := by
  cases r <;> decide

/-- Of CON, a write stores the configuration fields; the command bits are the command part's (40 R131, R133). -/
theorem conWrite_con (v : Word) (x : BusUnit) :
    (conWrite v x).con = { conFields v x.con with cmd := (conWrite v x).con.cmd } := by
  rw [conWrite, conCommandPart_con, conConfigPart_con]

/-- A write that does not clear EN only stores the configuration fields first (40 R131). -/
theorem conConfigPart_of_enabled {v : Word} {x : BusUnit} (h : x.con.en = false ∨ v.getLsbD 15 = true) :
    conConfigPart v x = { x with con := conFields v x.con } := by
  have hoff : ¬ (x.con.en && !v.getLsbD 15) = true := by
    rcases h with h | h <;> simp [h]
  exact if_neg hoff

/-- A write that clears EN disables the unit first (40 R132). -/
theorem conConfigPart_of_disabled {v : Word} {x : BusUnit} (he : x.con.en = true) (hv : v.getLsbD 15 = false) :
    conConfigPart v x = disable { x with con := conFields v x.con } :=
  if_pos (by rw [he, hv]; rfl)

/-- Settles O14: `conWrite_frame` and, field by field, `conWrite_con`. -/
theorem conWriteStoresConfiguration : Obligations.ConWriteStoresConfiguration := by
  intro u v s i hi
  obtain ⟨hstored, hreserved⟩ := roleOfBits_getD (getUnit s u).con.mode (v.extractLsb' 11 2)
  refine ⟨conWrite v (getUnit s u), ?_, ?_⟩
  · rw [exec_conForms_conWrite hi]
    exact congrArg _ (onUnit_congr (conWrite_frame v _))
  · rw [conWrite_con]
    exact ⟨rfl, rfl, rfl, rfl, rfl, rfl, hstored, hreserved⟩

/-- Settles O16: Disable is in the configuration part, and of what it clears the command part can only set IWCOL again. -/
theorem disableClearsTheUnit : Obligations.DisableClearsTheUnit := by
  intro u v s i hi
  refine ⟨_, exec_conForms_conWrite hi s, ?_, ?_⟩
  all_goals rw [getUnit_onUnit, conWrite]
  · intro he hv
    have hmask := conCommandPart_statMask (v.extractLsb' 0 5) (conConfigPart v (getUnit s u))
    rw [conCommandPart_frame, conConfigPart_of_disabled he hv] at hmask ⊢
    exact ⟨rfl, rfl, rfl, hmask.trans (show statWord Stat.zero &&& 0xFFF7#16 = 0#16 by decide), rfl, rfl, rfl, rfl, rfl, rfl⟩
  · intro h
    rw [conCommandPart_frame, conConfigPart_of_enabled h]
    exact ⟨rfl, rfl, rfl⟩

/-! ## The command part -/

/-- With nothing new written the command part does nothing (40 R133). -/
theorem conCommandPart_nothingNew {w : BitVec 5} {x : BusUnit} (h : w &&& ~~~x.con.cmd = 0#5) : conCommandPart w x = x := by
  rcases conCommandPart_cases w x with ⟨_, e⟩ | ⟨hn, _⟩ | ⟨hn, _⟩
  · exact e
  all_goals exact absurd h hn

/-- Two new bits, a command pending or BCL refuse what is new, with IWCOL (40 R133). -/
theorem conCommandPart_refused {w : BitVec 5} {x : BusUnit} (h : w &&& ~~~x.con.cmd ≠ 0#5)
    (hr : 2 ≤ popcount5 (w &&& ~~~x.con.cmd) ∨ x.con.cmd ≠ 0#5 ∨ x.stat.bcl = true) :
    conCommandPart w x = setIwcol x := by
  rcases conCommandPart_cases w x with ⟨h0, _⟩ | ⟨_, _, e⟩ | ⟨_, hone, hcmd, hbcl, _⟩
  · exact absurd h0 h
  · exact e
  · rw [hcmd, hbcl, BitVec.not_zero, BitVec.and_allOnes] at hr
    rcases hr with hr | hr | hr
    · omega
    · exact absurd rfl hr
    · cases hr

/-- Otherwise the one new bit becomes pending, and XEN loads TXSR (40 R133, R138). -/
theorem conCommandPart_accepted {w : BitVec 5} {x : BusUnit} (h : w ≠ 0#5) (hone : popcount5 w ≤ 1)
    (hcmd : x.con.cmd = 0#5) (hbcl : x.stat.bcl = false) :
    conCommandPart w x =
      { x with con := { x.con with cmd := w }, txsr := if w = cmdXen then x.trn else x.txsr } := by
  have hnew : w &&& ~~~x.con.cmd = w := by rw [hcmd, BitVec.not_zero, BitVec.and_allOnes]
  rcases conCommandPart_cases w x with ⟨h0, _⟩ | ⟨_, hr, _⟩ | ⟨_, _, _, _, e⟩
  · exact absurd (hnew.symm.trans h0) h
  · rw [hnew, hbcl, pending, hcmd] at hr
    rcases hr with hr | hr | hr
    · omega
    all_goals cases hr
  · exact e

/-- The configuration part leaves TRN and TXSR. -/
theorem conConfigPart_txsr (v : Word) (x : BusUnit) :
    (conConfigPart v x).txsr = x.txsr ∧ (conConfigPart v x).trn = x.trn := by
  rw [conConfigPart_frame]
  exact ⟨rfl, rfl⟩

/-- Settles O15: the three outcomes of the command part, on the unit the configuration part leaves. -/
theorem conWriteCommandAcceptance : Obligations.ConWriteCommandAcceptance := by
  intro u v s i hi
  refine ⟨_, exec_conForms_conWrite hi s, ?_⟩
  obtain ⟨htxsr, htrn⟩ := conConfigPart_txsr v (getUnit s u)
  have hcmd : (conConfigPart v (getUnit s u)).con.cmd =
      if (getUnit s u).con.en && !v.getLsbD 15 then 0#5 else (getUnit s u).con.cmd := by rw [conConfigPart_con]
  dsimp only
  rw [getUnit_onUnit, conWrite, ← hcmd, ← conConfigPart_stat, ← htxsr, ← htrn]
  generalize conConfigPart v (getUnit s u) = z
  refine ⟨fun hnew => ?_, fun hnew hr => ?_, fun hnew hone hc hbcl => ?_⟩
  · rw [conCommandPart_nothingNew hnew]
    exact ⟨rfl, rfl, rfl⟩
  · rw [conCommandPart_refused hnew hr]
    exact ⟨rfl, rfl, rfl⟩
  · have hw : v.extractLsb' 0 5 &&& ~~~z.con.cmd = v.extractLsb' 0 5 := by
      rw [hc, BitVec.not_zero, BitVec.and_allOnes]
    rw [hw] at hnew hone ⊢
    rw [conCommandPart_accepted hnew hone hc hbcl]
    exact ⟨rfl, rfl, rfl⟩

/-- A write of one command bit that does not clear EN, with nothing pending and BCL clear (40 R134 to R138). -/
theorem conWrite_accepted {v : Word} {x : BusUnit} (b : BitVec 5) (hv : v.extractLsb' 0 5 = b) (h0 : b ≠ 0#5)
    (hone : popcount5 b ≤ 1) (hcmd : x.con.cmd = 0#5) (hbcl : x.stat.bcl = false)
    (hen : x.con.en = true → v.getLsbD 15 = true) :
    conWrite v x = { x with con := { conFields v x.con with cmd := b }, txsr := if b = cmdXen then x.trn else x.txsr } := by
  have hon : x.con.en = false ∨ v.getLsbD 15 = true := by
    cases h : x.con.en
    · exact .inl rfl
    · exact .inr (hen h)
  rw [conWrite, hv, conConfigPart_of_enabled hon]
  exact conCommandPart_accepted h0 hone hcmd hbcl

/-- Settles O17: the five command forms write one bit each, which `conWrite_accepted` makes pending. -/
theorem commandFormsStartTheOperation : Obligations.CommandFormsStartTheOperation := by
  intro u v s hcmd hbcl hen
  refine ⟨fun i b hi hw => ?_, fun hw => ?_⟩
  · have hform : i ∈ conForms u v ∧ v.extractLsb' 0 5 = b ∧ b ∈ [cmdSen, cmdRsen, cmdPen, cmdRcen] := by
      simp only [List.mem_cons, Prod.mk.injEq, List.not_mem_nil, or_false] at hi
      rcases hi with ⟨rfl, rfl⟩ | ⟨rfl, rfl⟩ | ⟨rfl, rfl⟩ | ⟨rfl, rfl⟩
      all_goals exact ⟨by simp [conForms], beq_iff_eq.mp hw, by decide⟩
    obtain ⟨hmem, hv, hb⟩ := hform
    have hbit : ∀ b ∈ [cmdSen, cmdRsen, cmdPen, cmdRcen], b ≠ 0#5 ∧ popcount5 b ≤ 1 ∧ b ≠ cmdXen := by decide
    obtain ⟨h0, hone, hxen⟩ := hbit b hb
    refine ⟨_, exec_conForms_conWrite hmem s, ?_⟩
    rw [getUnit_onUnit, conWrite_accepted b hv h0 hone hcmd hbcl hen, if_neg hxen]
    exact ⟨rfl, bne_iff_ne.mpr h0, rfl, rfl, rfl⟩
  · refine ⟨_, exec_conForms_conWrite (u := u) (v := v) (by simp [conForms]) s, ?_⟩
    rw [getUnit_onUnit, conWrite_accepted cmdXen (beq_iff_eq.mp hw) (by decide) (by decide) hcmd hbcl hen, if_pos rfl]
    exact ⟨rfl, rfl, rfl, rfl⟩

end Sys2Proof.Machine
end

section
/-! PROOF. The writes of the other registers (40 R139 to R146) and the reads (R147, R148): which bits of the written word
reach the register, and at which bit a read shows each field. -/

namespace Sys2Proof.Machine

/-! ## STAT -/

/-- The bits of STAT, from ACKSTAT on; bits 15 to 10 read 0 (10_state R29). -/
theorem statWord_getLsbD (t : Stat) (j : Nat) : (statWord t).getLsbD j =
    [t.ackstat, t.bcl, t.ov, t.iwcol, t.sdet, t.pdet, t.rbf, t.treq, t.gcstat, t.rw].getD j false := by
  by_cases hj : j < 16
  · simp only [statWord, BitVec.getLsbD_append]
    interval_cases j <;> simp
  · rw [BitVec.getLsbD_of_ge _ _ (by omega), List.getD_eq_default _ _ (by simp; omega)]

/-- A STAT write masks the R/C flags with the written word and leaves the other bits (40 R139). -/
theorem statWord_statWrite (v : Word) (x : BusUnit) :
    statWord (statWrite v x).stat = statWord x.stat &&& (v ||| 0x0341#16) := by
  apply BitVec.eq_of_getLsbD_eq
  intro j hj
  rw [BitVec.getLsbD_and, BitVec.getLsbD_or, statWord_getLsbD, statWord_getLsbD]
  interval_cases j <;> simp [statWrite]

/-- Settles O18: `statWord_statWrite`. -/
theorem statWriteOnlyClears : Obligations.StatWriteOnlyClears := fun u v s =>
  ⟨(statWrite v (getUnit s u)).stat, congrArg Host.Outcome.next (onUnit_congr rfl), statWord_statWrite v _⟩

/-! ## The other registers -/

/-- The low bits of a word, read as a word, are the word under a mask of ones. -/
theorem setWidth_extractLsb'_zero (v : Word) (n : Nat) :
    (v.extractLsb' 0 n).setWidth 16 = v &&& BitVec.ofNat 16 (2 ^ n - 1) := by
  apply BitVec.eq_of_getLsbD_eq
  intro j hj
  simp only [BitVec.getLsbD_setWidth, BitVec.getLsbD_extractLsb', BitVec.getLsbD_and, BitVec.getLsbD_ofNat,
    Nat.testBit_two_pow_sub_one, hj, decide_true, Bool.true_and, Nat.zero_add]
  exact Bool.and_comm ..

/-- Settles O19: each write stores the bits of `v` its register has. -/
theorem plainRegisterWrites : Obligations.PlainRegisterWrites := fun _ v _ =>
  ⟨⟨v.extractLsb' 0 10, rfl, setWidth_extractLsb'_zero v 10⟩, rfl, v.getLsbD 0, rfl, BitVec.and_one_eq_setWidth_ofBool_getLsbD.symm⟩

/-- XEN is bit 4 of the command bits (10_state R22). -/
theorem isPending_xen (x : BusUnit) : isPending cmdXen x = x.con.cmd.getLsbD 4 := by
  have h : ∀ c : BitVec 5, ((c &&& cmdXen) != 0#5) = c.getLsbD 4 := by decide
  exact h x.con.cmd

/-- XEN pending or BCL refuse a TRN write, with IWCOL (40 R142). -/
theorem trnWrite_refused {x : BusUnit} (h : x.con.cmd.getLsbD 4 = true ∨ x.stat.bcl = true) (v : Word) :
    trnWrite v x = setIwcol x :=
  if_pos (by rw [isPending_xen, Bool.or_eq_true]; exact h)

/-- Any other TRN write stores the low byte (40 R142). -/
theorem trnWrite_stores {x : BusUnit} (hx : x.con.cmd.getLsbD 4 = false) (hb : x.stat.bcl = false) (v : Word) :
    trnWrite v x = { x with trn := v.extractLsb' 0 8 } :=
  if_neg (by rw [isPending_xen, hx, hb]; decide)

/-- Settles O20: the two cases of a TRN write. -/
theorem transmitRegisterWrite : Obligations.TransmitRegisterWrite := fun _ v _ =>
  ⟨fun h => congrArg Host.Outcome.next (onUnit_congr (trnWrite_refused h v)),
    fun hx hb => ⟨v.extractLsb' 0 8, congrArg Host.Outcome.next (onUnit_congr (trnWrite_stores hx hb v)),
      setWidth_extractLsb'_zero v 8⟩⟩

/-- A write of RCV, ESTAT or a reserved offset leaves the state (40 R143, R145, R146). -/
theorem hwWrite_ignored {off : BitVec 4} (h : 0x8#4 ≤ off ∨ off = 0x5#4 ∨ off = 0x7#4) (u : UnitId) (v : Word) (s : State) :
    hwWrite u off v s = s :=
  onUnit_eq_self (writeOffset_ignored h v _)

/-- Settles O21: `hwWrite_ignored`, and a reserved offset reads 0. -/
theorem ignoredWritesAndReservedReads : Obligations.IgnoredWritesAndReservedReads := by
  intro u v off s
  refine ⟨congrArg _ (hwWrite_ignored (.inr (.inl rfl)) u v s), congrArg _ (hwWrite_ignored (.inr (.inr rfl)) u v s),
    fun h => ⟨congrArg _ (hwWrite_ignored (.inl h) u v s), ?_⟩⟩
  have hne : ∀ o : BitVec 4, 0x8#4 ≤ o → o ≠ 0x5#4 := by decide
  change Host.Outcome.next (hostRead u off s) = _
  rw [hostRead_of_ne (hne off h), readOffset_reserved h]
  rfl

/-! ## Reads -/

/-- A role stands by its number in the table of 10_state R22. -/
theorem roleBits_mem (r : Role) : (r, roleBits r) ∈ roleTable := by
  cases r <;> decide

/-- A status code stands by its number in the table of 10_state R47. -/
theorem codeBits_mem (c : Code) : (c, codeBits c) ∈ codeTable := by
  cases c <;> decide

/-- Bits 14, 10 and 6 of CON read 0 (10_state R22). -/
theorem conWord_reserved (c : Con) : conWord c &&& 0x4440#16 = 0#16 := by
  apply BitVec.eq_of_getLsbD_eq
  intro j hj
  simp only [BitVec.getLsbD_and, conWord, BitVec.getLsbD_append]
  interval_cases j <;> simp

/-- Bits 15 to 10 of STAT read 0 (10_state R29). -/
theorem statWord_reserved (t : Stat) : statWord t &&& 0xFC00#16 = 0#16 := by
  apply BitVec.eq_of_getLsbD_eq
  intro j hj
  rw [BitVec.getLsbD_and, statWord_getLsbD]
  interval_cases j <;> simp

/-- ESTAT by number: the busy flag above the four bits of the code (10_state R43). -/
theorem estatWord_toNat (x : BusUnit) :
    (estatWord x).toNat = (if x.busy then 16 else 0) + (codeBits x.code).toNat := by
  rw [estatWord]
  cases x.busy <;> cases x.code <;> decide

/-- Settles O22: the register's word field by field; no register a REG_R can name has a read effect. -/
theorem registerReadReturnsTheFields : Obligations.RegisterReadReturnsTheFields := by
  intro u off s hw
  obtain ⟨-, h5⟩ := regR_wellFormed_iff.mp hw
  refine ⟨readOffset off (getUnit s u), congrArg _ (hostRead_of_ne h5 u s), ?_⟩
  dsimp only
  generalize getUnit s u = x
  refine ⟨?con, ?stat, ?add, ?brg, ?trn, ?ifs, ?estat⟩ <;> rintro rfl
  case con =>
    change _ ∧ _ ∧ (x.con.mode, (conWord x.con).extractLsb' 11 2) ∈ roleTable ∧ _
    rw [conWord_mode]
    exact ⟨conWord_en _, conWord_sie _, roleBits_mem _, conWord_slw _, conWord_smen _, conWord_gcen _, conWord_ackdt _,
      conWord_cmd _, conWord_reserved _⟩
  case stat =>
    have hbit := statWord_getLsbD x.stat
    exact ⟨hbit 9, hbit 8, hbit 7, hbit 6, hbit 5, hbit 4, hbit 3, hbit 2, hbit 1, hbit 0, statWord_reserved _⟩
  case add => exact BitVec.toNat_setWidth_of_le (show 10 ≤ 16 by decide)
  case brg => rfl
  case trn => exact BitVec.toNat_setWidth_of_le (show 8 ≤ 16 by decide)
  case ifs =>
    change (BitVec.ofBool x.sif).setWidth 16 = _
    cases x.sif <;> rfl
  case estat => exact ⟨codeBits x.code, estatWord_toNat x, codeBits_mem _⟩

/-- Settles O23: the one read with an effect clears RBF. -/
theorem receiveReadClearsFull : Obligations.ReceiveReadClearsFull := fun u s =>
  ⟨(getUnit s u).rcv.setWidth 16, BitVec.toNat_setWidth_of_le (show 8 ≤ 16 by decide), by cases u <;> rfl⟩

end Sys2Proof.Machine
end

section
/-! PROOF. The environment events of the master side (40 R149 to R155): which the state enables, what each then does to its
unit, and that one it does not enable is a step without effect (log 2). -/

namespace Sys2Proof.Machine

/-- The state of its unit enables the event (40 R149, R155, 45 R260 to R269). -/
def eventRuns (e : BusEvent) (x : BusUnit) : Bool :=
  match e with
  | .doneSen => commandRuns cmdSen x
  | .doneRsen => commandRuns cmdRsen x
  | .donePen => commandRuns cmdPen x
  | .doneXen _ => commandRuns cmdXen x
  | .doneRcen _ => commandRuns cmdRcen x
  | .collide => x.con.en && pending x
  | .sStart _ | .sStop | .sRxByte _ | .sTx _ => slaveEnabled e x

/-- An event the state does not enable changes nothing (40 R149, 45 R260, log 2). -/
theorem busEvent_of_not_runs {u : UnitId} {e : BusEvent} {s : State} (h : eventRuns e (getUnit s u) = false) :
    busEvent u e s = s := by
  cases e with
  | sStart | sStop | sRxByte | sTx => exact if_neg (Bool.eq_false_iff.mp h)
  | doneSen | doneRsen | donePen | doneXen | doneRcen | collide =>
    exact onUnit_eq_self (if_neg (Bool.eq_false_iff.mp h))

/-- No event runs on a disabled unit (40 R149, 45 R260). -/
theorem eventRuns_of_disabled {x : BusUnit} (h : x.con.en = false) (e : BusEvent) : eventRuns e x = false := by
  cases e <;> simp [eventRuns, commandRuns, slaveEnabled, slaveActive, h]

/-- The completion of command bit `j` does not run while that bit is 0 (40 R149). -/
theorem commandRuns_of_clear {x : BusUnit} (j : Fin 5) (h : x.con.cmd.getLsbD j = false) :
    commandRuns (1#5 <<< j.val) x = false := by
  have hbit : ∀ (c : BitVec 5) (j : Fin 5), c.getLsbD j = false → (c &&& 1#5 <<< j.val) = 0#5 := by decide
  rw [commandRuns, isPending, hbit _ j h, Bool.and_eq_false_iff]
  exact .inr rfl

/-- No slave event runs in the master role (45 R260). -/
theorem eventRuns_of_master {x : BusUnit} {e : BusEvent} (he : isSlaveEvent e = true) (h : x.con.mode = .master) :
    eventRuns e x = false := by
  cases e with
  | sStart | sStop | sRxByte | sTx => simp [eventRuns, slaveEnabled, slaveActive, h]
  | _ => cases he

/-- Settles O27: each condition says that the state does not enable the event. -/
theorem eventsNeedTheirCondition : Obligations.EventsNeedTheirCondition := by
  intro u e s rest hf ha hidle
  suffices h : eventRuns e (getUnit s u) = false by
    rw [step_agenda hf ha]
    exact congrArg Host.Outcome.next (busEvent_of_not_runs (s := { s with agenda := rest }) (by simpa using h))
  rcases hidle with h | ⟨rfl, h⟩ | ⟨rfl, h⟩ | ⟨rfl, h⟩ | ⟨⟨b, rfl⟩, h⟩ | ⟨⟨a, rfl⟩, h⟩ | ⟨rfl, h⟩ | ⟨he, h⟩ |
    ⟨⟨b, rfl⟩, h⟩ | ⟨⟨a, rfl⟩, h⟩
  · exact eventRuns_of_disabled h e
  · exact commandRuns_of_clear 0 h
  · exact commandRuns_of_clear 1 h
  · exact commandRuns_of_clear 2 h
  · exact commandRuns_of_clear 3 h
  · exact commandRuns_of_clear 4 h
  · simp [eventRuns, pending, h]
  · exact eventRuns_of_master he h
  · rcases h with h | h <;> simp [eventRuns, slaveEnabled, h]
  · simp [eventRuns, slaveEnabled, h]

/-- The move of an event of the master side changes the event's unit alone. -/
theorem step_masterEvent {u : UnitId} {e : BusEvent} {s : State} {rest : List Move} (hf : faultFree s)
    (ha : s.agenda = .bus u e :: rest) (he : isSlaveEvent e = false) {f : BusUnit → BusUnit}
    (hx : unitEvent e (getUnit s u) = f (getUnit s u)) : step s = .next (onUnit u f { s with agenda := rest }) := by
  rw [step_agenda hf ha]
  show Host.Outcome.next (busEvent u e { s with agenda := rest }) = _
  rw [busEvent_master he, onUnit_congr (by simpa using hx)]

/-- A received byte is stored over an empty RCV, and overruns a full one (40 R154). -/
theorem receiveByte_eq (b : Byte) (x : BusUnit) : receiveByte b x = { x with
    rxsr := b, rcv := if x.stat.rbf then x.rcv else b,
    stat := { x.stat with rbf := true, ov := x.stat.ov || x.stat.rbf } } := by
  cases h : x.stat.rbf <;> simp [receiveByte, h]

/-- Settles O25: the event's command runs, so the event completes it. -/
theorem masterEventsCompleteTheCommand : Obligations.MasterEventsCompleteTheCommand := by
  intro u s rest hf hen
  refine ⟨fun e b y he hb ha => ?_, fun a hb ha => ?_, fun b hb ha => ?_⟩
  · simp only [List.mem_cons, Prod.mk.injEq, List.not_mem_nil, or_false] at he
    rcases he with ⟨rfl, rfl, rfl⟩ | ⟨rfl, rfl, rfl⟩ | ⟨rfl, rfl, rfl⟩
    all_goals exact step_masterEvent hf ha rfl (if_pos (commandRuns_of hen hb))
  · exact step_masterEvent hf ha rfl (if_pos (commandRuns_of hen hb))
  · refine step_masterEvent hf ha rfl ((if_pos (commandRuns_of hen hb)).trans ?_)
    rw [receiveByte_eq]
    rfl

/-- While BCL is set the command part accepts no bit and keeps BCL (40 R133). -/
theorem conCommandPart_collided {x : BusUnit} (hb : x.stat.bcl = true) (w : BitVec 5) :
    (conCommandPart w x).con.cmd = x.con.cmd ∧ (conCommandPart w x).stat.bcl = true := by
  by_cases hnew : w &&& ~~~x.con.cmd = 0#5
  · rw [conCommandPart_nothingNew hnew]
    exact ⟨rfl, hb⟩
  · rw [conCommandPart_refused hnew (.inr (.inr hb))]
    exact ⟨rfl, hb⟩

/-- Settles O26: COLLIDE runs on a pending command, and BCL refuses both writes. -/
theorem collisionAbortsTheCommand : Obligations.CollisionAbortsTheCommand := by
  refine fun u s rest hf => ⟨fun hen hc ha => ?_, fun hb v hv => ⟨fun i hi => ?_, ?_⟩⟩
  · have hruns : ((getUnit s u).con.en && pending (getUnit s u)) = true := by simp [hen, pending, hc]
    exact step_masterEvent hf ha rfl (if_pos hruns)
  · refine ⟨_, exec_conForms_conWrite hi s, ?_⟩
    rw [getUnit_onUnit, conWrite, conConfigPart_of_enabled (.inr hv)]
    exact conCommandPart_collided (x := { getUnit s u with con := conFields v (getUnit s u).con }) hb _
  · refine ⟨onUnit u (trnWrite v) s, rfl, ?_⟩
    rw [getUnit_onUnit, trnWrite_refused (.inr hb)]
    exact ⟨rfl, hb⟩

end Sys2Proof.Machine
end

section
/-! PROOF. The composites that fail (44 R231 to R239). `Reaches` says that a command handed over comes, by a list of moves, to a
position of the ENGINE; the prompt parts extend the list one after another, up to the part that is refused or whose wait
fails. -/

namespace Sys2Proof.Machine

/-! ## What a composite reaches -/

/-- A unit in the middle of a composite that found it as `x`: ready, claimed, with the same count to wait. -/
abbrev midComposite (x y : BusUnit) : Prop := readyUnit y ∧ y.busy = true ∧ waitBudget y = waitBudget x

/-- Handed over in `s` with `moves` first on the agenda, the command `i` of unit `u` comes by them to position `p` with frame
`k`, the unit `y` in the middle of a composite and the counter as the last prompt wait left it. -/
structure Reaches (u : UnitId) (i : Instr) (s : State) (moves : List Move) (y : BusUnit) (p : Position) (k : Frame) :
    Prop where
  unit : unitOf i = u
  noFault : faultFree s
  mid : midComposite (getUnit s u) y
  run : ∀ l, s.agenda = moves ++ l → ∃ t, exec i s = .next t ∧
    core.run moves.length t = .next (flying u y i p k (BitVec.ofNat 32 (waitBudget (getUnit s u))) l s)

section reaches
variable {u : UnitId} {i : Instr} {s : State} {moves : List Move} {y : BusUnit} {p : Position} {k : Frame}

/-- The unit reached can run a master command. -/
theorem Reaches.ready (h : Reaches u i s moves y p k) : readyUnit y := h.mid.1

/-- The unit reached is claimed. -/
theorem Reaches.claimed (h : Reaches u i s moves y p k) : y.busy = true := h.mid.2.1

/-- The unit reached waits as long as the unit the composite found. -/
theorem Reaches.budget (h : Reaches u i s moves y p k) : waitBudget y = waitBudget (getUnit s u) := h.mid.2.2

/-- What a run of the flying command comes to, the command comes to when it is handed over. -/
theorem Reaches.run_append (h : Reaches u i s moves y p k) {next l : List Move} (ha : s.agenda = moves ++ next ++ l)
    {m : State} (hrun : core.run next.length
      (flying u y i p k (BitVec.ofNat 32 (waitBudget (getUnit s u))) (next ++ l) s) = .next m) :
    ∃ t, exec i s = .next t ∧ core.run (moves ++ next).length t = .next m := by
  rw [List.append_assoc] at ha
  obtain ⟨t, hexec, ht⟩ := h.run _ ha
  exact ⟨t, hexec, by rw [List.length_append, core_run_add ht, hrun]⟩

/-- Moves that lead the flying command on extend what is reached. -/
theorem Reaches.append (h : Reaches u i s moves y p k) (next : List Move) {z : BusUnit} {q : Position} {k' : Frame}
    (hz : midComposite (getUnit s u) z)
    (hrun : ∀ l, core.run next.length
        (flying u y i p k (BitVec.ofNat 32 (waitBudget (getUnit s u))) (next ++ l) s) =
      .next (flying u z i q k' (BitVec.ofNat 32 (waitBudget (getUnit s u))) l s)) :
    Reaches u i s (moves ++ next) z q k' :=
  ⟨h.unit, h.noFault, hz, fun l ha => h.run_append ha (hrun l)⟩

/-- One step of the ENGINE that only changes the unit and the position. -/
theorem Reaches.step (h : Reaches u i s moves y p k) {z : BusUnit} {q : Position} {k' : Frame}
    (hz : midComposite (getUnit s u) z)
    (hstep : ∀ c l, positionStep u p k (flying u y i p k c l s) = flying u z i q k' c l s) :
    Reaches u i s (moves ++ [.engine]) z q k' := by
  refine h.append _ hz fun l => ?_
  exact (core_run_next (step_flying_engine _ _ _ _ _ _ _ _ h.unit h.noFault) 0).trans (congrArg _ (hstep _ l))

/-- A composite handed over on a free unit, up to the end of its prompt START (42 R196). -/
theorem reaches_started {q : Position} {k' : Frame} (hi : unitOf i = u) (hr : masterReady u s)
    (hb : (getUnit s u).busy = false) (hexec : ∀ s, exec i s = .next (issue i .claim k s))
    (hk : ∀ t, resume k true 0 t = goto q k' t) :
    Reaches u i s (promptStart u).tail (started (getUnit s u)) q k' := by
  obtain ⟨hf, -, hx⟩ := masterReady_parts hr
  refine ⟨hi, hf, ⟨hx, rfl, rfl⟩, fun l ha => ⟨_, hexec s, ?_⟩⟩
  have hrun := run_issuedStart hi hr hb ha k 0
  rw [hk, goto_flying] at hrun
  exact hrun

/-- A byte sent and acknowledged (43 R215). -/
theorem Reaches.byteSent {d : Byte} (h : Reaches u i s moves y (.loadTrn d) k) {q : Position} {k' : Frame}
    (hk : ∀ t, resume k true 0 t = goto q k' t) :
    Reaches u i s (moves ++ promptWriteByte u false) (bytesSent [d] y) q k' := by
  refine h.append _ h.mid fun l => ?_
  have hrun := run_promptWriteByte (k := k) (c := BitVec.ofNat 32 (waitBudget (getUnit s u))) (l := l) h.unit h.noFault
    h.ready d false
  rw [h.budget, Bool.not_false, hk, goto_flying] at hrun
  exact hrun

/-- A prompt WRITE_BYTE is six moves. -/
theorem length_promptWrites (u : UnitId) (a : Bool) (n : Nat) :
    (List.replicate n (promptWriteByte u a)).flatten.length = 6 * n := by
  rw [List.length_flatten, List.map_replicate, List.sum_replicate_nat, Nat.mul_comm]
  rfl

/-- The bytes `acked` of a list sent and acknowledged, up to the byte `b` (44 R233). -/
theorem Reaches.listSent {acked later : List Byte} {b : Byte} (h : Reaches u i s moves y p k)
    (hk : ∀ t, sendNext (acked ++ b :: later) t = goto p k t) :
    Reaches u i s (moves ++ (List.replicate acked.length (promptWriteByte u false)).flatten)
      (bytesSent acked y) (.loadTrn b) (.writeNext later) := by
  refine h.append _ h.mid fun l => ?_
  obtain ⟨p', k', hrun⟩ := run_writePrefix h.unit h.noFault (b :: later) l acked y p k _ h.ready
    (congrArg _ h.budget.symm)
  rw [hk, goto_flying, sendNext_cons, goto_flying] at hrun
  rw [length_promptWrites]
  exact hrun

/-- A prompt RESTART (42 R198). -/
theorem Reaches.restarted (h : Reaches u i s moves y .setRsen k) {q : Position} {k' : Frame}
    (hk : ∀ t, resume k true 0 t = goto q k' t) :
    Reaches u i s (moves ++ promptRestart u) { y with trace := y.trace ++ [.restart], witer := y.witer + 1 } q k' := by
  refine h.append _ h.mid fun l => ?_
  have hrun := run_promptRsen (k := k) (c := BitVec.ofNat 32 (waitBudget (getUnit s u))) (l := l) h.unit h.noFault h.ready
  rw [h.budget, hk, goto_flying] at hrun
  exact hrun

/-- The bytes `ds` of a read received, up to the next one (44 R234). -/
theorem Reaches.listRead {ds : List Byte} {n : Nat} (h : Reaches u i s moves y p k)
    (hk : ∀ t, readNextByte (ds.length + (n + 1)) [] t = goto p k t) (hrbf : ds = [] ∨ y.stat.rbf = false) :
    Reaches u i s (moves ++ ds.flatMap (promptReadByte u)) (bytesRead ds false y) (.setAckdt (n == 0)) (.readNext n ds) := by
  refine h.append _ h.mid fun l => ?_
  obtain ⟨p', k', hrun⟩ := run_readPrefix h.unit h.noFault (n + 1) l ds y p k _ [] h.ready hrbf (congrArg _ h.budget.symm)
  rw [hk, goto_flying, readNextByte_succ, goto_flying] at hrun
  rw [length_promptReads]
  exact hrun

/-- TRN loaded, XEN next (43 R215). -/
theorem Reaches.trnLoaded {d : Byte} (h : Reaches u i s moves y (.loadTrn d) k) :
    Reaches u i s (moves ++ [.engine]) { y with trn := d } .setXen k :=
  h.step h.mid fun _ _ => loadTrn_flying d h.ready

/-- ACKDT set, RCEN next (43 R217). -/
theorem Reaches.ackdtSet {a : Bool} (h : Reaches u i s moves y (.setAckdt a) k) :
    Reaches u i s (moves ++ [.engine]) { y with con := { y.con with ackdt := a } } .setRcen k :=
  h.step h.mid fun _ _ => setAckdt_flying a k

/-! ## Refused bytes -/

/-- A refused data or index byte leads to the one STOP (44 R233, R235, R236). -/
theorem Reaches.byteRefused {d : Byte} {fields : OutputFields} (h : Reaches u i s moves y (.loadTrn d) k)
    (hk : ∀ t, resume k false 0 t = goto .setPen (.failStop fields) t) :
    Reaches u i s (moves ++ promptWriteByte u true) { y with
      trn := d, txsr := d, stat := { y.stat with ackstat := true }, code := .dataNack, trace := y.trace ++ [.tx d true],
      witer := y.witer + 1 } .setPen (.failStop fields) := by
  refine h.append _ h.mid fun l => ?_
  have hrun := run_promptWriteByte (k := k) (c := BitVec.ofNat 32 (waitBudget (getUnit s u))) (l := l) h.unit h.noFault
    h.ready d true
  rw [h.budget, Bool.not_true, hk, goto_flying] at hrun
  exact hrun

/-- A refused address byte leads to the one STOP by way of AddrNack (44 R232). -/
theorem Reaches.addressRefused {d : Byte} {fields : OutputFields} (h : Reaches u i s moves y (.loadTrn d) k)
    (hk : ∀ t, resume k false 0 t = goto .addrNack (.failStop fields) t) :
    Reaches u i s (moves ++ promptWriteByte u true ++ [.engine]) { y with
      trn := d, txsr := d, stat := { y.stat with ackstat := true }, code := .addrNack, trace := y.trace ++ [.tx d true],
      witer := y.witer + 1 } .setPen (.failStop fields) := by
  rw [List.append_assoc]
  refine h.append _ h.mid fun l => ?_
  have hrun := run_addressRefused (c := BitVec.ofNat 32 (waitBudget (getUnit s u))) (l := l) h.unit h.noFault h.ready d
    fields hk
  rw [h.budget] at hrun
  rw [List.append_assoc]
  exact hrun

/-- The one STOP of the composite, from where it is about to be issued (44 R231, R238). -/
theorem Reaches.issuesOneStop {fields : OutputFields} (h : Reaches u i s moves y .setPen (.failStop fields))
    {more : List Move} (ha : s.agenda = moves ++ more) :
    ∃ t m, exec i s = .next t ∧ core.run moves.length t = .next m ∧ getUnit m u = y ∧ m.out = s.out ∧
      failsByOneStop u fields m more := by
  obtain ⟨t, hexec, ht⟩ := h.run more ha
  exact ⟨t, _, hexec, ht, getUnit_flying .., out_flying ..,
    failsByOneStop_flying h.unit h.noFault h.ready h.claimed fields more⟩

/-! ## Parts whose wait fails -/

/-- The command `i` handed over in `s` fails by the wait of its part with command bit `bit`, after the moves `before`, which
put `sent` on the trace: it goes on to a STOP that is refused (44 R231, R232, R234). -/
def failsInPart (u : UnitId) (i : Instr) (s : State) (collides : Bool) (before : List Move) (sent : List Sym)
    (bit : BitVec 5) (after : List Move) (fields : OutputFields) : Prop :=
  ∀ more, let moves := before ++ failingCommand u (waitBudget (getUnit s u)) collides ++ after
    s.agenda = moves ++ more → ∃ t m, exec i s = .next t ∧ core.run moves.length t = .next m ∧
      (getUnit m u).trace = (getUnit s u).trace ++ sent ++ (if collides then [.col] else []) ∧ m.out = s.out ∧
      failsByRefusedStop u bit collides fields m more

/-- A part reached whose command, once flying, fails so. -/
theorem Reaches.partFails (h : Reaches u i s moves y p k) {sent : List Sym} {bit : BitVec 5} {after : List Move}
    {fields : OutputFields} {collides : Bool} (hsent : y.trace = (getUnit s u).trace ++ sent)
    (hfail : ∀ c more, ∃ m, core.run (failingCommand u (waitBudget (getUnit s u)) collides ++ after).length
        (flying u y i p k c (failingCommand u (waitBudget (getUnit s u)) collides ++ after ++ more) s) = .next m ∧
      (getUnit m u).trace = y.trace ++ (if collides then [.col] else []) ∧ m.out = s.out ∧
      failsByRefusedStop u bit collides fields m more) :
    failsInPart u i s collides moves sent bit after fields := by
  intro more moves' ha
  subst moves'
  obtain ⟨m, hrun, htrace, hend⟩ := hfail (BitVec.ofNat 32 (waitBudget (getUnit s u))) more
  rw [List.append_assoc moves] at ha ⊢
  obtain ⟨t, hexec, ht⟩ := h.run_append ha hrun
  exact ⟨t, m, hexec, ht, by rw [htrace, hsent], hend⟩

/-- Setting RSEN on a ready unit (42 R198). -/
theorem setRsen_flying {x : BusUnit} {c : BitVec 32} {l : List Move} (h : readyUnit x) :
    positionStep u .setRsen k (flying u x i .setRsen k c l s) =
      flying u { x with con := { x.con with cmd := cmdRsen } } i (.waitLoad .restart) k c l s := by
  obtain ⟨-, hcmd, hbcl, -⟩ := h
  simp only [positionStep, setCommandBit_flying, goto_flying]
  rw [setCommandBit_ready cmdRsen 0x0002 rfl rfl (by decide) (by decide) hcmd hbcl]
  rfl

/-- A data or index byte whose wait fails (44 R233, R235, R236). -/
theorem Reaches.byteFails (h : Reaches u i s moves y .setXen k) {sent : List Sym} {fields : OutputFields}
    (hsent : y.trace = (getUnit s u).trace ++ sent)
    (hk : ∀ t, resume k false 0 t = goto .setPen (.failStop fields) t) (collides : Bool) :
    failsInPart u i s collides moves sent cmdXen [] fields :=
  h.partFails hsent fun _ more => run_failedPart .writeByte cmdXen fields collides more h.budget.symm h.unit h.noFault
    h.ready h.claimed (fun _ => setXen_flying h.ready) (by decide) (by decide) hk

/-- A RESTART whose wait fails (44 R236). -/
theorem Reaches.restartFails (h : Reaches u i s moves y .setRsen k) {sent : List Sym} {fields : OutputFields}
    (hsent : y.trace = (getUnit s u).trace ++ sent)
    (hk : ∀ t, resume k false 0 t = goto .setPen (.failStop fields) t) (collides : Bool) :
    failsInPart u i s collides moves sent cmdRsen [] fields :=
  h.partFails hsent fun _ more => run_failedPart .restart cmdRsen fields collides more h.budget.symm h.unit h.noFault
    h.ready h.claimed (fun _ => setRsen_flying h.ready) (by decide) (by decide) hk

/-- An address byte whose wait fails (44 R232). -/
theorem Reaches.addressFails (h : Reaches u i s moves y .setXen k) {sent : List Sym} {fields : OutputFields}
    (hsent : y.trace = (getUnit s u).trace ++ sent)
    (hk : ∀ t, resume k false 0 t = goto .addrNack (.failStop fields) t) (collides : Bool) :
    failsInPart u i s collides moves sent cmdXen [.engine] fields :=
  h.partFails hsent fun _ more => run_failedAddress fields collides more h.budget.symm h.unit h.noFault h.ready
    h.claimed hk

/-- A byte to read whose wait fails (43 R218, 44 R234). -/
theorem Reaches.readFails {n : Nat} {out : List Byte} (h : Reaches u i s moves y .setRcen (.readNext n out))
    {sent : List Sym} (hsent : y.trace = (getUnit s u).trace ++ sent) (collides : Bool) :
    failsInPart u i s collides moves sent cmdRcen [.engine] (.out (out ++ [y.rcv])) :=
  h.partFails hsent fun _ more => run_failedRead out n collides more h.budget.symm h.unit h.noFault h.ready h.claimed

end reaches

/-! ## The positions of the composites -/

/-- The next item of a list to send is a position of the ENGINE (44 R233). -/
theorem sendNext_eq_goto (bs : List Byte) : ∃ p k, ∀ t, sendNext bs t = goto p k t := by
  cases bs <;> exact ⟨_, _, fun _ => rfl⟩

/-- The next byte to read is a position of the ENGINE (44 R234). -/
theorem readNextByte_eq_goto (n : Nat) (out : List Byte) : ∃ p k, ∀ t, readNextByte n out t = goto p k t := by
  cases n <;> exact ⟨_, _, fun _ => rfl⟩

/-- A composite starts in the START of its frame, goes on from it to the address byte, and fails in either as its outputs
say (44 R231 to R236). -/
theorem isComposite_frames {u : UnitId} {a : Byte} {i : Instr} {read : Bool} {fields : OutputFields}
    (h : isComposite u a i read fields) (hw : i.wellFormed = true) : unitOf i = u ∧ ∃ k k',
      (∀ s, exec i s = .next (issue i .claim k s)) ∧
      (∀ t, resume k true 0 t = goto (.loadTrn (addrByte a read)) k' t) ∧
      (∀ t, resume k false 0 t = finish false fields t) ∧
      ∀ t, resume k' false 0 t = goto .addrNack (.failStop fields) t := by
  rcases h with ⟨⟨bs, rfl⟩, rfl, rfl⟩ | ⟨⟨r, bs, rfl⟩, rfl, rfl⟩ | ⟨⟨c, rfl⟩, rfl, rfl⟩ | ⟨⟨r, c, rfl⟩, rfl, rfl⟩
  all_goals exact ⟨rfl, _, _, fun _ => if_pos hw, fun _ => rfl, fun _ => rfl, fun _ => rfl⟩

section composites
variable {u : UnitId} {i : Instr} {s : State} (hr : masterReady u s) (hb : (getUnit s u).busy = false)
  (hw : i.wellFormed = true)
include hr hb hw

/-- A composite up to its address byte (44 R233 to R236). -/
theorem reaches_address {a : Byte} {read : Bool} {fields : OutputFields} (h : isComposite u a i read fields) :
    ∃ k, Reaches u i s (promptStart u).tail (started (getUnit s u)) (.loadTrn (addrByte a read)) k ∧
      ∀ t, resume k false 0 t = goto .addrNack (.failStop fields) t := by
  obtain ⟨hi, k, k', hexec, hstart, -, hrefused⟩ := isComposite_frames h hw
  exact ⟨k', reaches_started hi hr hb hexec hstart, hrefused⟩

/-- A write up to the byte `b` of its list, the bytes before it acknowledged (44 R233, R235). -/
theorem reaches_dataByte {a b : Byte} {acked later : List Byte}
    (h : i = .writeData u a (acked ++ b :: later) ∨
      ∃ r bs, i = .writeRegister u a r bs ∧ r :: bs = acked ++ b :: later) :
    Reaches u i s ((promptStart u).tail ++ promptWriteByte u false ++
        (List.replicate acked.length (promptWriteByte u false)).flatten)
      (bytesSent (addrByte a false :: acked) (started (getUnit s u))) (.loadTrn b) (.writeNext later) := by
  obtain ⟨hi, hexec⟩ : unitOf i = u ∧ ∀ s, exec i s = .next (issue i .claim (.writeStart a (acked ++ b :: later)) s) := by
    rcases h with h | ⟨r, bs, h, hlist⟩
    · exact exec_writeComposite hw (.inl ⟨h, rfl⟩)
    · exact exec_writeComposite hw (.inr ⟨r, h, hlist.symm⟩)
  obtain ⟨p, k, hnext⟩ := sendNext_eq_goto (acked ++ b :: later)
  have haddr := (reaches_started hi hr hb hexec fun _ => rfl).byteSent hnext
  rw [← bytesSent_cons]
  exact haddr.listSent hnext

end composites

section readComposites
variable {u : UnitId} {s : State} (hr : masterReady u s) (hb : (getUnit s u).busy = false)
include hr hb

/-- READ_DATA up to its address byte (44 R234). -/
theorem reaches_readAddress {a : Byte} {c : BitVec 16} (hw : (Instr.readData u a c).wellFormed = true) :
    Reaches u (.readData u a c) s (promptStart u).tail (started (getUnit s u)) (.loadTrn (addrByte a true))
      (.readAddr c.toNat) :=
  reaches_started rfl hr hb (fun _ => if_pos hw) fun _ => rfl

variable {a r : Byte} {c : BitVec 16} (hw : (Instr.readRegister u a r c).wellFormed = true)
include hw

/-- READ_REGISTER up to its first address byte (44 R236). -/
theorem reaches_registerAddress : Reaches u (.readRegister u a r c) s (promptStart u).tail (started (getUnit s u))
    (.loadTrn (addrByte a false)) (.regAddr a r c.toNat) :=
  reaches_started rfl hr hb (fun _ => if_pos hw) fun _ => rfl

/-- READ_REGISTER up to its index byte (44 R236). -/
theorem reaches_index : Reaches u (.readRegister u a r c) s ((promptStart u).tail ++ promptWriteByte u false)
    (bytesSent [addrByte a false] (started (getUnit s u))) (.loadTrn r) (.regIndex a c.toNat) :=
  (reaches_registerAddress hr hb hw).byteSent fun _ => rfl

/-- READ_REGISTER up to its RESTART (44 R236). -/
theorem reaches_regRestart : Reaches u (.readRegister u a r c) s
    ((promptStart u).tail ++ promptWriteByte u false ++ promptWriteByte u false)
    (bytesSent [r] (bytesSent [addrByte a false] (started (getUnit s u)))) .setRsen (.regRestart a c.toNat) :=
  (reaches_index hr hb hw).byteSent fun _ => rfl

/-- READ_REGISTER up to its second address byte (44 R236). -/
theorem reaches_secondAddress : ∃ y, Reaches u (.readRegister u a r c) s
      ((promptStart u).tail ++ promptWriteByte u false ++ promptWriteByte u false ++ promptRestart u) y
      (.loadTrn (addrByte a true)) (.readAddr c.toNat) ∧
    y.trace = (getUnit s u).trace ++ [.start, .tx (addrByte a false) false, .tx r false, .restart] ∧
    y.witer = (getUnit s u).witer + 4 ∧ y.stat.rbf = (getUnit s u).stat.rbf ∧ y.rcv = (getUnit s u).rcv :=
  ⟨_, (reaches_regRestart hr hb hw).restarted fun _ => rfl, by simp [bytesSent, started], rfl, rfl, rfl⟩

end readComposites

section reads
variable {u : UnitId} {i : Instr} {s : State} {moves : List Move} {y : BusUnit}

/-- The byte of a read after the address and the bytes `ds` whose wait fails: what RCV holds ends the list (44 R234). -/
theorem Reaches.readFailsAfter {d : Byte} {c : Nat} {ds : List Byte} (h : Reaches u i s moves y (.loadTrn d) (.readAddr c))
    (hds : ds.length < c) (hrbf : ds = [] ∨ y.stat.rbf = false) {sent : List Sym}
    (hsent : y.trace = (getUnit s u).trace ++ sent) (collides : Bool) :
    failsInPart u i s collides (moves ++ promptWriteByte u false ++ ds.flatMap (promptReadByte u) ++ [.engine])
      (sent ++ [.tx d false] ++ ds.map (fun b => .rx b false)) cmdRcen [.engine] (.out (ds ++ [ds.getLastD y.rcv])) := by
  obtain ⟨n, rfl⟩ : ∃ n, c = ds.length + (n + 1) := ⟨c - ds.length - 1, by omega⟩
  obtain ⟨p, k, hnext⟩ := readNextByte_eq_goto (ds.length + (n + 1)) []
  have hreads := ((h.byteSent hnext).listRead hnext hrbf).ackdtSet
  exact hreads.readFails (by simp [bytesRead, bytesSent, hsent]) collides

end reads

/-- Every part of a composite after its START whose wait fails: the prompt parts lead to it, and its command fails by the
lemma of its kind (44 R231, R232, R234). -/
theorem compositePart_fails {u : UnitId} {i : Instr} {s : State} (hr : masterReady u s) (hb : (getUnit s u).busy = false)
    (hw : i.wellFormed = true) {before : List Move} {sent : List Sym} {bit : BitVec 5} {after : List Move}
    {fields : OutputFields} (h : CompositePart u (getUnit s u) i before sent bit after fields) (collides : Bool) :
    failsInPart u i s collides before sent bit after fields := by
  cases h with
  | address h =>
    obtain ⟨k, hreach, hrefused⟩ := reaches_address hr hb hw h
    exact hreach.trnLoaded.addressFails rfl hrefused collides
  | data h =>
    exact (reaches_dataByte hr hb hw h).trnLoaded.byteFails (by simp [bytesSent, started]) (fun _ => rfl) collides
  | index =>
    exact (reaches_index hr hb hw).trnLoaded.byteFails (by simp [bytesSent, started]) (fun _ => rfl) collides
  | restart =>
    exact (reaches_regRestart hr hb hw).restartFails (by simp [bytesSent, started]) (fun _ => rfl) collides
  | secondAddress =>
    obtain ⟨y, hreach, htrace, -⟩ := reaches_secondAddress hr hb hw
    exact hreach.trnLoaded.addressFails htrace (fun _ => rfl) collides
  | readByte hds hrbf =>
    exact (reaches_readAddress hr hb hw).readFailsAfter hds hrbf rfl collides
  | readRegisterByte hds hrbf =>
    obtain ⟨y, hreach, htrace, -, hyrbf, hyrcv⟩ := reaches_secondAddress hr hb hw
    have hfail := hreach.readFailsAfter hds (hrbf.imp_right hyrbf.trans) htrace collides
    rw [hyrcv] at hfail
    exact hfail

/-! ## A START whose wait fails -/

/-- START on a free unit claims it (42 R196). -/
theorem claim_free {u : UnitId} {x : BusUnit} {i : Instr} {p : Position} {k0 : Frame} {c : BitVec 32} {l : List Move}
    {s : State} (k : Frame) (hb : x.busy = false) : positionStep u .claim k (flying u x i p k0 c l s) =
      flying u { x with busy := true } i .setSen k c l s := by
  simp [positionStep, hb]

/-- Setting SEN on a ready unit (42 R196). -/
theorem setSen_flying {u : UnitId} {x : BusUnit} {i : Instr} {p : Position} {k k0 : Frame} {c : BitVec 32} {l : List Move}
    {s : State} (h : readyUnit x) : positionStep u .setSen k (flying u x i p k0 c l s) =
      flying u { x with con := { x.con with cmd := cmdSen } } i (.waitLoad .start) k c l s := by
  obtain ⟨-, hcmd, hbcl, -⟩ := h
  simp only [positionStep, setCommandBit_flying, goto_flying]
  rw [setCommandBit_ready cmdSen 0x0001 rfl rfl (by decide) (by decide) hcmd hbcl]
  rfl

/-- The unit after a START whose wait failed, claimed and released again (42 R196). -/
def startFailed (collides : Bool) (x : BusUnit) : BusUnit :=
  { commandFailed collides { x with busy := true, con := { x.con with cmd := cmdSen } } with busy := false }

/-- A composite whose START fails by its wait returns at once, without a STOP (44 R231, 42 R196). -/
theorem run_issuedStartFails {u : UnitId} {i : Instr} {s : State} {k : Frame} {fields : OutputFields} {more : List Move}
    (hi : unitOf i = u) (hr : masterReady u s) (hb : (getUnit s u).busy = false) (collides : Bool)
    (hk : ∀ t, resume k false 0 t = finish false fields t)
    (ha : s.agenda = failingCommand u (waitBudget (getUnit s u)) collides ++ [.engine] ++ more) :
    core.run (failingCommand u (waitBudget (getUnit s u)) collides ++ [Move.engine]).length (issue i .claim k s) =
      .next (landed u (startFailed collides (getUnit s u)) (failingCount collides (getUnit s u)) more false fields s) := by
  obtain ⟨hf, he, hx⟩ := masterReady_parts hr
  subst hi
  rw [run_issue he hf, core_run_next (step_flying_engine _ _ _ _ _ _ _ _ rfl hf), claim_free k hb, ha,
    List.append_assoc, List.length_append]
  obtain ⟨hen, -, hbcl, hov, ht⟩ := id hx
  have hrun := run_failingCommand (i := i) (k := k) (c := s.tcnt) (l := .engine :: more)
    (x := { getUnit s (unitOf i) with busy := true }) rfl hf .start (fun _ => setSen_flying hx) hen
    (show cmdSen ≠ 0#5 by decide) hbcl hov ht collides
  refine (core_run_add hrun 1).trans ?_
  rw [waitReturn, if_neg Bool.false_ne_true, goto_flying,
    core_run_next (step_flying_engine _ _ _ _ _ _ _ _ rfl hf), core_run_zero]
  simp only [positionStep, onUnit_flying, hk, finish_flying]
  rfl

/-- Settles O59: the refused bytes by `Reaches.issuesOneStop`, a failed START by `run_issuedStartFails`, every later part
by `compositePart_fails`. -/
theorem refusedByteEndsTheWriteWithOneStop : Obligations.RefusedByteEndsTheWriteWithOneStop := by
  refine fun u a i s more hr hb hw => ⟨?address, ?data, ?register, ?start, fun collides before sent bit after fields h =>
    compositePart_fails hr hb hw h collides more⟩
  case address =>
    intro read fields h ha
    obtain ⟨k, hreach, hrefused⟩ := reaches_address hr hb hw h
    obtain ⟨t, m, hexec, hrun, hm, hout, hstop⟩ := (hreach.addressRefused hrefused).issuesOneStop ha
    refine ⟨t, m, hexec, hrun, ?_⟩
    rw [hm]
    exact ⟨rfl, by simp [started], rfl, hout, hstop⟩
  case data =>
    intro acked later sent b hsent h ha
    subst hsent
    have hreach := reaches_dataByte hr hb hw (h.imp_right fun ⟨r, bs, hi, hl⟩ => ⟨r, bs, hi, hl.symm⟩)
    obtain ⟨t, m, hexec, hrun, hm, hout, hstop⟩ := (hreach.byteRefused fun _ => rfl).issuesOneStop ha
    have hlen : 16 + 6 * acked.length = ((promptStart u).tail ++ promptWriteByte u false ++
        (List.replicate acked.length (promptWriteByte u false)).flatten ++ promptWriteByte u true).length := by
      simp only [List.length_append, length_promptWrites]
      change 16 + 6 * acked.length = 4 + 6 + 6 * acked.length + 6
      omega
    refine ⟨t, m, hexec, hlen ▸ hrun, ?_⟩
    rw [hm]
    exact ⟨rfl, by simp [started, bytesSent], by simp [started, bytesSent]; omega, hout, hstop⟩
  case register =>
    rintro r c rfl
    refine ⟨fun ha => ?_, fun ha => ?_⟩
    · obtain ⟨t, m, hexec, hrun, hm, hout, hstop⟩ :=
        ((reaches_index hr hb hw).byteRefused fun _ => rfl).issuesOneStop ha
      refine ⟨t, m, hexec, hrun, ?_⟩
      rw [hm]
      exact ⟨rfl, by simp [started, bytesSent], rfl, hout, hstop⟩
    · obtain ⟨y, hreach, htrace, hwiter, -⟩ := reaches_secondAddress hr hb hw
      obtain ⟨t, m, hexec, hrun, hm, hout, hstop⟩ := (hreach.addressRefused fun _ => rfl).issuesOneStop ha
      refine ⟨t, m, hexec, hrun, ?_⟩
      rw [hm]
      exact ⟨rfl, by simp [htrace], by simp [hwiter], hout, hstop⟩
  case start =>
    intro read collides fields h moves ha
    obtain ⟨hi, k, -, hexec, -, hfails, -⟩ := isComposite_frames h hw
    refine ⟨_, _, hexec s, run_issuedStartFails hi hr hb collides hfails ha, ?_⟩
    rw [getUnit_landed]
    exact ⟨rfl, rfl, rfl, rfl, rfl, rfl, rfl, out_landed ..⟩

end Sys2Proof.Machine
end

section
/-! PROOF. The Timing Calculator (41_timing): the divider is a quotient clamped to 16 bits, so the response carries it
exactly. -/

namespace Sys2Proof.Machine

/-- The speed 0 counts as a quotient above every bound (41 R184). -/
theorem divider_zero (fcy : Nat) : divider fcy 0 = 65535 := if_pos rfl

/-- The clamp of R183 over the naturals: what the truncated subtraction loses lies below the lower bound. -/
theorem divider_eq_clamp {speed : Nat} (hs : speed ≠ 0) (fcy : Nat) :
    divider fcy speed = max 2 (min 65535 (fcy / (2 * speed) - 2)) := by
  rw [divider, if_neg hs]
  generalize fcy / (2 * speed) = q
  dsimp only
  split
  · omega
  · split <;> omega

theorem divider_bounds (fcy speed : Nat) : 2 ≤ divider fcy speed ∧ divider fcy speed ≤ 65535 := by
  by_cases hs : speed = 0
  · simp [hs, divider_zero]
  · rw [divider_eq_clamp hs]
    omega

/-- A divider fits the 16 bits of `DIV16` and of BRG. -/
theorem toNat_dividerWord (speed : BitVec 32) : (dividerWord speed).toNat = divider Config.fcyHz speed.toNat :=
  (BitVec.toNat_ofNat ..).trans (Nat.mod_eq_of_lt (Nat.lt_succ_of_le (divider_bounds _ _).2))

/-- Where it does not have to wait, CALC_DIVIDER hands over its response and does nothing else (41 R180). -/
theorem exec_calcDivider {s : State} (h : mayIssue s) (u : UnitId) (speed : BitVec 32) :
    exec (.calcDivider u speed) s = .next (respond (okResponse (.div16 (dividerWord speed))) s) :=
  congrArg Host.Outcome.next (issueAtOnce_runs h _ _)

/-- Settles O40: the word of the response is the divider, by `divider_zero` for speed 0 and by the clamp for any other. -/
theorem dividerIsExactOrClamped : Obligations.DividerIsExactOrClamped := by
  intro u speed s h
  have hbounds := divider_bounds Config.fcyHz speed.toNat
  refine ⟨dividerWord speed, exec_calcDivider h u speed, ?_⟩
  rw [toNat_dividerWord]
  refine ⟨hbounds.1, hbounds.2, fun hzero => ?_, fun hne => ?_⟩
  · subst hzero
    exact divider_zero _
  · have hspeed : speed.toNat ≠ 0 := fun h0 => hne (BitVec.eq_of_toNat_eq h0)
    rw [divider_eq_clamp hspeed]
    generalize (Config.fcyHz : Nat) / (2 * speed.toNat) = q
    dsimp only
    omega

end Sys2Proof.Machine
end

section
/-! PROOF. The wait primitive (42 R190 to R195): what each of the six primitives does once its wait has returned, said once, and
from it the one iteration, the time-out and the counter load; and the START that finds its unit busy (R197). -/

namespace Sys2Proof.Machine

/-! ## What follows the wait -/

section handedOver
variable {u : UnitId} {x : BusUnit} {i : Instr} {p : Position} {k : Frame} {c : BitVec 32} {l : List Move} {s : State}

/-- One move of the ENGINE is one step at the position of the command in flight. -/
theorem run_engine (hi : unitOf i = u) (hf : faultFree s) :
    core.run 1 (flying u x i p k c (.engine :: l) s) = .next (positionStep u p k (flying u x i p k c l s)) :=
  core_run_next (step_flying_engine _ _ _ _ _ _ _ _ hi hf) 0

/-- A command that lands, written as an update of the state in which it was in flight. -/
theorem landed_inFlight {f : BusUnit → BusUnit} {c' : BitVec 32} {ok : Bool} {o : OutputFields}
    (hx : x = f (getUnit s u)) (hc : c = c') : landed u x c l ok o s =
      { onUnit u f s with
        tcnt := c', polledOp := none, agenda := l, out := s.out ++ [.response .polled ⟨ok, false, o⟩] } := by
  subst hx hc
  cases u <;> rfl

/-- A command that lands, written as an update of the state in which it was handed over. -/
theorem landed_handedOver {f : BusUnit → BusUnit} {c' : BitVec 32} {l' : List Move} {ok : Bool} {o : OutputFields}
    (hp : s.polledOp = none) (hx : x = f (getUnit s u)) (hc : c = c') (hl : l = l') : landed u x c l ok o s =
      { onUnit u f s with tcnt := c', agenda := l', out := s.out ++ [.response .polled ⟨ok, false, o⟩] } := by
  subst hx hc hl
  exact landed_eq hp f c l ok o

end handedOver

/-- The primitive ends with a byte that was refused: WRITE_BYTE samples a NACK (43 R215). -/
def byteRefused (w : Waiter) (x : BusUnit) : Bool := decide (w = .writeByte) && x.stat.ackstat

/-- What a primitive hands to the host besides `ok`: READ_BYTE the byte in RCV (43 R217). -/
def waitOutput (w : Waiter) (x : BusUnit) : OutputFields := if w = .readByte then .byte8 x.rcv else .none

/-- The unit when a primitive returns whose wait returned `ok` and left `x`: START's release, STOP's settling, WRITE_BYTE's
check of ACKSTAT, READ_BYTE's read of RCV (42 R196, R199, 43 R215, R217). -/
def afterWait (w : Waiter) (ok : Bool) (x : BusUnit) : BusUnit :=
  match w, ok with
  | .start, false => { x with busy := false }
  | .stop, true => { x with busy := false, code := .idle }
  | .writeByte, true => if x.stat.ackstat then setCode .dataNack x else x
  | .readByte, _ => clearRbf x
  | _, _ => x

section afterWait
variable {u : UnitId} {d : Byte} {ack : Bool} {i : Instr} {w : Waiter} {k : Frame} {s : State}
  (h : (i, w, k) ∈ waitForms u d ack)
include h

/-- The six primitives that wait. -/
theorem waitForms_cases : (i, w, k) = (.start u, .start, .alone) ∨ (i, w, k) = (.restart u, .restart, .alone) ∨
    (i, w, k) = (.stop u, .stop, .alone) ∨ (i, w, k) = (.wait u, .alone, .alone) ∨
    (i, w, k) = (.writeByte u d, .writeByte, .alone) ∨ (i, w, k) = (.readByte u ack, .readByte, .aloneRead) := by
  simpa only [waitForms, List.mem_cons, List.not_mem_nil, or_false] using h

/-- A primitive that waits runs on the unit it names. -/
theorem unitOf_waitForms : unitOf i = u := by
  rcases waitForms_cases h with h | h | h | h | h | h <;> cases h <;> rfl

/-- A primitive whose wait has returned `ok` takes its own last step, where it has one, and returns. -/
theorem run_afterWait (hf : faultFree s) (ok : Bool) (x : BusUnit) (p : Position) (k0 : Frame) (c : BitVec 32)
    (l : List Move) :
    core.run (stepsAfterWait w ok)
        (waitReturn w k ok (flying u x i p k0 c (List.replicate (stepsAfterWait w ok) .engine ++ l) s)) =
      .next (landed u (afterWait w ok x) c l (ok && !byteRefused w x) (waitOutput w x) s) := by
  have hi := unitOf_waitForms h
  rcases waitForms_cases h with hstart | hrestart | hstop | hwait | hwrite | hread
  · cases hstart
    cases ok
    · rw [waitReturn, if_neg Bool.false_ne_true, goto_flying]
      refine (run_engine hi hf).trans ?_
      rw [positionStep, onUnit_flying, resume, finish_flying]
      rfl
    · exact congrArg _ (finish_flying ..)
  · cases hrestart
    exact congrArg _ ((finish_flying ..).trans (by cases ok <;> rfl))
  · cases hstop
    cases ok
    · exact congrArg _ (finish_flying ..)
    · rw [waitReturn, if_pos rfl, goto_flying]
      refine (run_engine hi hf).trans ?_
      rw [positionStep, onUnit_flying, resume, finish_flying]
      rfl
  · cases hwait
    exact congrArg _ ((finish_flying ..).trans (by cases ok <;> rfl))
  · cases hwrite
    cases ok
    · exact congrArg _ (finish_flying ..)
    · rw [waitReturn, if_pos rfl, goto_flying]
      refine (run_engine hi hf).trans ?_
      rw [positionStep, getUnit_flying, onUnit_flying, afterWait]
      cases hack : x.stat.ackstat <;> simp [resume, byteRefused, waitOutput, hack]
  · cases hread
    rw [waitReturn, goto_flying]
    refine (run_engine hi hf).trans ?_
    rw [positionStep, getUnit_flying, onUnit_flying, resume, finish_flying]
    cases ok <;> rfl

/-- A wait iteration that returns `ok` and leaves `y`, up to the end of the primitive. -/
theorem run_lastIteration (hf : faultFree s) (hp : s.polledOp = some ⟨i, .waitLoop w, k⟩) (ok : Bool) {y : BusUnit}
    {l : List Move} (ha : s.agenda = List.replicate (1 + stepsAfterWait w ok) .engine ++ l)
    (hlast : ∀ l, positionStep u (.waitLoop w) k (flying u (getUnit s u) i (.waitLoop w) k s.tcnt l s) =
      waitReturn w k ok (flying u y i (.waitLoop w) k s.tcnt l s)) :
    core.run (1 + stepsAfterWait w ok) s =
      .next (landed u (afterWait w ok y) s.tcnt l (ok && !byteRefused w y) (waitOutput w y) s) := by
  rw [Nat.add_comm, List.replicate_succ] at ha
  rw [congrArg (core.run _) (flying_self hp ha), List.cons_append, core_run_add (run_engine (unitOf_waitForms h) hf), hlast]
  exact run_afterWait h hf ok y _ _ _ l

end afterWait

/-- What a failed wait leaves of the unit: START releases the busy flag, READ_BYTE clears RBF (42 R196, 43 R218). -/
theorem afterWait_failed (w : Waiter) (x : BusUnit) : afterWait w false x = { x with
    busy := if w = .start then false else x.busy
    stat := if w = .readByte then { x.stat with rbf := false } else x.stat } := by
  cases w <;> rfl

/-- What a successful wait leaves of the unit: STOP frees it, WRITE_BYTE records a NACK, READ_BYTE clears RBF (42 R199,
43 R215, R217). -/
theorem afterWait_succeeded (w : Waiter) (x : BusUnit) : afterWait w true x = { x with
    code := if w = .stop then .idle else if byteRefused w x then .dataNack else x.code
    busy := if w = .stop then false else x.busy
    stat := if w = .readByte then { x.stat with rbf := false } else x.stat } := by
  cases w
  case writeByte => cases h : x.stat.ackstat <;> simp [afterWait, byteRefused, setCode, h]
  all_goals rfl

section iterations
variable {u : UnitId} {x : BusUnit} {i : Instr} {p0 : Position} {k0 : Frame} {c : BitVec 32} {l : List Move} {s : State}
  (w : Waiter) (k : Frame)

/-- BCL fails the wait, whatever else stands (42 R192, R195). -/
theorem waitLoop_collided (hb : x.stat.bcl = true) : positionStep u (.waitLoop w) k (flying u x i p0 k0 c l s) =
    waitReturn w k false (flying u { x with code := .busCollision, witer := x.witer + 1 } i p0 k0 c l s) := by
  rw [positionStep, waitIteration, getUnit_flying, if_pos hb, onUnit_flying, onUnit_flying]
  rfl

/-- OV fails the wait where BCL is clear (42 R192, R195). -/
theorem waitLoop_overrun (hb : x.stat.bcl = false) (ho : x.stat.ov = true) :
    positionStep u (.waitLoop w) k (flying u x i p0 k0 c l s) =
      waitReturn w k false (flying u { x with code := .rxOverrun, witer := x.witer + 1 } i p0 k0 c l s) := by
  rw [positionStep, waitIteration, getUnit_flying, if_neg (Bool.eq_false_iff.mp hb), if_pos ho, onUnit_flying,
    onUnit_flying]
  rfl

end iterations

/-- Settles O49: the one iteration by its three outcomes, and what follows it by `run_lastIteration`. -/
theorem waitIterationChecksErrorsFirst : Obligations.WaitIterationChecksErrorsFirst := by
  rintro u d ack s rest hf ⟨i, w, k⟩ h hp
  refine ⟨fun ha => ⟨fun hb => ?_, fun hb ho => ?_⟩, fun ha hb ho hc => ?_⟩
  · rw [run_lastIteration h hf hp false ha fun _ => waitLoop_collided w k hb, afterWait_failed]
    exact congrArg _ (landed_inFlight rfl (onUnit_tcnt ..).symm)
  · rw [run_lastIteration h hf hp false ha fun _ => waitLoop_overrun w k hb ho, afterWait_failed]
    exact congrArg _ (landed_inFlight rfl (onUnit_tcnt ..).symm)
  · rw [run_lastIteration h hf hp true ha fun _ => waitLoop_flying w k hb ho hc, afterWait_succeeded]
    exact congrArg _ (landed_inFlight rfl (onUnit_tcnt ..).symm)

/-- Settles O50: `run_waitTimesOut`, then the last step of the primitive. -/
theorem waitTimesOutAfterItsCount : Obligations.WaitTimesOutAfterItsCount := by
  rintro u d ack s n rest hf ⟨i, w, k⟩ h hp hb ho hc hn hpos ha
  obtain ⟨n, rfl⟩ := Nat.exists_eq_succ_of_ne_zero hpos.ne'
  rw [← List.replicate_append_replicate, List.append_assoc] at ha
  rw [congrArg (core.run _) (flying_self hp ha),
    core_run_add (run_waitTimesOut (unitOf_waitForms h) hf w k _ n _ _ hb ho hc hn), run_afterWait h hf, afterWait_failed]
  exact congrArg _ (landed_inFlight rfl rfl)

/-! ## Commands handed over -/

/-- Settles O45: the command's first step is START's claim, which `claim_busy` answers on a busy unit. -/
theorem startOnBusyUnitFails : Obligations.StartOnBusyUnitFails := by
  intro u s he hb i out hw h
  obtain ⟨hi, k, hexec, hk⟩ : unitOf i = u ∧ ∃ k, (∀ s, exec i s = .next (issue i .claim k s)) ∧
      ∀ t, resume k false 0 t = finish false out t := by
    rcases h with ⟨rfl, rfl⟩ | ⟨⟨a, bs, rfl⟩, rfl⟩ | ⟨⟨a, r, bs, rfl⟩, rfl⟩ | ⟨⟨a, c, rfl⟩, rfl⟩ | ⟨⟨a, r, c, rfl⟩, rfl⟩
    · exact ⟨rfl, _, fun _ => rfl, fun _ => rfl⟩
    all_goals exact ⟨rfl, _, fun _ => if_pos hw, fun _ => rfl⟩
  rw [hexec, issue_free he, hi, claim_busy k hb, hk, finish_flying]
  exact congrArg _ (landed_handedOver he.2 rfl (onUnit_tcnt ..).symm (onUnit_agenda ..).symm)

/-- A configured timeout of 0 fails the wait at its counter load (42 R191). -/
theorem waitLoad_zero {u : UnitId} {x : BusUnit} {i : Instr} {p : Position} {k k0 : Frame} {c : BitVec 32} {l : List Move}
    {s : State} (w : Waiter) (h : x.cfg.timeoutMs = 0#16) : positionStep u (.waitLoad w) k (flying u x i p k0 c l s) =
      waitReturn w k false (flying u { x with code := .timeout } i p k0 0#32 l s) := by
  have hn : waitBudget x = 0 := by simp [waitBudget, h]
  rw [positionStep, loadCounter, getUnit_flying, hn, if_pos rfl]
  cases u <;> rfl

/-- WAIT begins with its counter load (42 R201). -/
theorem exec_wait {s : State} (he : engineFree s) (u : UnitId) : exec (.wait u) s =
    .next (positionStep u (.waitLoad .alone) .alone
      (flying u (getUnit s u) (.wait u) (.waitLoad .alone) .alone s.tcnt s.agenda s)) :=
  congrArg Host.Outcome.next (issue_free he _ _)

/-- Settles O51: the counter load of WAIT, by whether a timeout is configured. -/
theorem counterLoadSaturatesAndZeroTimesOut : Obligations.CounterLoadSaturatesAndZeroTimesOut := by
  refine fun u s he => ⟨fun ht => ?_, fun ht => ?_⟩
  · have hle : waitBudget (getUnit s u) ≤ 2 ^ 32 - 1 := Nat.min_le_right _ _
    have hload : (BitVec.ofNat 32 (waitBudget (getUnit s u))).toNat = waitBudget (getUnit s u) := by
      rw [BitVec.toNat_ofNat, Nat.mod_eq_of_lt (by omega)]
    rw [exec_wait he, waitLoad_flying _ _ ht]
    refine ⟨_, rfl, ?_, fun h0 => ?_, rfl, getUnit_flying ..⟩
    · rw [tcnt_flying, hload, waitBudget, Nat.mul_comm]
      rfl
    · exact waitBudget_ne ht (hload.symm.trans (congrArg BitVec.toNat h0))
  · rw [exec_wait he, waitLoad_zero _ ht, waitReturn, resume, finish_flying]
    exact congrArg _ (landed_handedOver he.2 rfl rfl (onUnit_agenda ..).symm)

end Sys2Proof.Machine
end

section
/-! PROOF. START, RESTART, STOP and WAIT handed over (42 R196, R198, R199, R201): the command bit is accepted, refused with IWCOL
or already pending (40 R133), and the wait runs on in every case. -/

namespace Sys2Proof.Machine

/-! ## Command bits that are refused or already pending -/

/-- At position `p` the ENGINE sets command bit `j` and then runs the wait of `w` (42 R196, R198, R199, 43 R215, R217). -/
inductive SetsBit : Position → Waiter → Fin 5 → Prop
  | sen : SetsBit .setSen .start 0
  | rsen : SetsBit .setRsen .restart 1
  | pen : SetsBit .setPen .stop 2
  | rcen : SetsBit .setRcen .readByte 3
  | xen : SetsBit .setXen .writeByte 4

/-- A command bit in the word of CON: it is no configuration bit, and bit `j` of the command bits (10_state R22). -/
theorem commandBit_word : ∀ j : Fin 5,
    (1#16 <<< j.val).extractLsb' 5 11 = 0#11 ∧ (1#16 <<< j.val).extractLsb' 0 5 = 1#5 <<< j.val := by decide

/-- One command bit is one bit (10_state R27). -/
theorem commandBit_one : ∀ j : Fin 5, 1#5 <<< j.val ≠ 0#5 ∧ popcount5 (1#5 <<< j.val) ≤ 1 := by decide

section bits
variable {u : UnitId} {x : BusUnit} {i : Instr} {p : Position} {w : Waiter} {j : Fin 5} {k : Frame} {c : BitVec 32}
  {l : List Move} {s : State} (h : SetsBit p w j)
include h

/-- The write of the command bit, the counter load next (20_memory R79). -/
theorem SetsBit.step {p0 : Position} {k0 : Frame} : positionStep u p k (flying u x i p0 k0 c l s) =
    flying u (conWrite (conWord x.con ||| 1#16 <<< j.val) x) i (.waitLoad w) k c l s := by
  cases h <;> simp only [positionStep, setCommandBit_flying, goto_flying] <;> rfl

/-- With BCL set, or another command pending, the bit is refused with IWCOL (40 R133). -/
theorem SetsBit.refused {p0 : Position} {k0 : Frame} (hn : x.con.cmd.getLsbD j = false)
    (hr : x.con.cmd ≠ 0#5 ∨ x.stat.bcl = true) : positionStep u p k (flying u x i p0 k0 c l s) =
      flying u (setIwcol x) i (.waitLoad w) k c l s := by
  obtain ⟨hconfig, hbit⟩ := commandBit_word j
  rw [h.step, setCommandBit_refused _ _ hconfig hbit (commandBit_new j hn) hr]

/-- A bit that is already pending is not refused: nothing is written (40 R133, 70 R360). -/
theorem SetsBit.alreadyPending {p0 : Position} {k0 : Frame} (hc : x.con.cmd = 1#5 <<< j.val) :
    positionStep u p k (flying u x i p0 k0 c l s) = flying u x i (.waitLoad w) k c l s := by
  obtain ⟨hconfig, hbit⟩ := commandBit_word j
  rw [h.step, setCommandBit_same _ _ hconfig hbit hc]

/-- With nothing pending and BCL clear the bit becomes pending in the command's first step (40 R133). -/
theorem SetsBit.cmd_issue (he : engineFree s) (hi : unitOf i = u) (hc : (getUnit s u).con.cmd = 0#5)
    (hb : (getUnit s u).stat.bcl = false) : (getUnit (issue i p k s) u).con.cmd = 1#5 <<< j.val := by
  obtain ⟨hconfig, hbit⟩ := commandBit_word j
  obtain ⟨h0, hone⟩ := commandBit_one j
  rw [issue_free he, hi, h.step, getUnit_flying, setCommandBit_ready _ _ hconfig hbit h0 hone hc hb]

end bits

section primitives
variable {u : UnitId} {d : Byte} {ack : Bool} {x : BusUnit} {i : Instr} {w : Waiter} {k : Frame} {p : Position} {j : Fin 5}
  {c : BitVec 32} {l : List Move} {s : State} (h : (i, w, k) ∈ waitForms u d ack) (hf : faultFree s)
include h hf

/-- A primitive whose command bit is refused while its wait runs on, which fails by BCL or on a silent bus (70 R360). -/
theorem run_refusedPrimitive (hs : SetsBit p w j) (ht : x.cfg.timeoutMs ≠ 0#16) (collides : Bool)
    (hn : x.con.cmd.getLsbD j = false) (hb : x.stat.bcl = collides)
    (ho : collides = false → x.stat.ov = false ∧ x.con.cmd ≠ 0#5) {n : Nat}
    (hlen : n = 1 + (failingWait (waitBudget x) collides).length + stepsAfterWait w false) :
    core.run n (flying u x i p k c (List.replicate n .engine ++ l) s) =
      .next (landed u (afterWait w false (waitFailed collides (setIwcol x))) (failingCount collides x) l false
        (waitOutput w x) s) := by
  have hr : x.con.cmd ≠ 0#5 ∨ x.stat.bcl = true := by
    cases collides
    · exact .inl (ho rfl).2
    · exact .inr hb
  subst hlen
  have hrun := run_refusedCommand (k := k) (c := c) (l := List.replicate (stepsAfterWait w false) .engine ++ l)
    (1 + (failingWait (waitBudget x) collides).length) (unitOf_waitForms h) hf w (fun _ => hs.refused hn hr) ht collides
    hb ho rfl
  rw [← List.replicate_append_replicate, List.append_assoc, core_run_add hrun]
  exact run_afterWait h hf false _ _ _ _ l

/-- A primitive whose step at `p` leaves the command in `y` pending, which the event `e` completes, leaving `z`, before the
first iteration of its wait. -/
theorem run_promptPrimitive {e : BusEvent} {y z : BusUnit} (he : isSlaveEvent e = false)
    (hp : ∀ l, positionStep u p k (flying u x i p k c l s) = flying u y i (.waitLoad w) k c l s)
    (hz : unitEvent e y = z) (ht : z.cfg.timeoutMs ≠ 0#16) (hb : z.stat.bcl = false) (ho : z.stat.ov = false)
    (hc : z.con.cmd = 0#5) :
    core.run (4 + stepsAfterWait w true)
        (flying u x i p k c (promptCommand u e ++ (List.replicate (stepsAfterWait w true) .engine ++ l)) s) =
      .next (landed u (afterWait w true { z with witer := z.witer + 1 }) (BitVec.ofNat 32 (waitBudget z)) l
        (!byteRefused w z) (waitOutput w z) s) := by
  rw [core_run_add (run_promptCommand (unitOf_waitForms h) hf p w e he hp hz ht hb ho hc)]
  exact run_afterWait h hf true _ _ _ _ l

end primitives

/-- The event that completes a START or a RESTART clears its bit and puts its symbol on the trace (40 R150, R151). -/
theorem unitEvent_completes {e : BusEvent} {b : BitVec 5} {y : Sym} {x : BusUnit}
    (h : (e, b, y) ∈ [(BusEvent.doneSen, cmdSen, Sym.start), (.doneRsen, cmdRsen, .restart)]) (hen : x.con.en = true)
    (hc : x.con.cmd = b) : isSlaveEvent e = false ∧
      unitEvent e x = { x with con := { x.con with cmd := 0#5 }, trace := x.trace ++ [y] } := by
  simp only [List.mem_cons, Prod.mk.injEq, List.not_mem_nil, or_false] at h
  rcases h with ⟨rfl, rfl, rfl⟩ | ⟨rfl, rfl, rfl⟩
  all_goals
    refine ⟨rfl, (if_pos (commandRuns_of hen (by rw [hc]; decide))).trans ?_⟩
    rw [completeCmd, hc]
    rfl

/-! ## START, RESTART, STOP and WAIT -/

/-- The unit claimed by a START (42 R196). -/
def claimed (x : BusUnit) : BusUnit := { x with busy := true }

/-- START handed over on a free unit goes on from its claim (42 R196). -/
theorem run_issuedClaim {u : UnitId} {s : State} (he : engineFree s) (hbusy : (getUnit s u).busy = false) (k : Frame)
    (n : Nat) : core.run n (issue (.start u) .claim k s) =
      core.run n (flying u (claimed (getUnit s u)) (.start u) .setSen k s.tcnt s.agenda s) := by
  rw [issue_free he]
  exact congrArg (core.run n) (claim_free k hbusy)

/-- START is one of the primitives that wait. -/
theorem start_waits {u : UnitId} : (.start u, .start, .alone) ∈ waitForms u 0 false := by simp [waitForms]

/-- RESTART is one of the primitives that wait. -/
theorem restart_waits {u : UnitId} : (.restart u, .restart, .alone) ∈ waitForms u 0 false := by simp [waitForms]

/-- STOP is one of the primitives that wait. -/
theorem stop_waits {u : UnitId} : (.stop u, .stop, .alone) ∈ waitForms u 0 false := by simp [waitForms]

section issued
variable {u : UnitId} {s : State} {rest : List Move} {n : Nat} (hf : faultFree s) (he : engineFree s)
include hf he

/-- RESTART or STOP handed over with its command bit refused, up to its return (42 R198, R199). -/
theorem run_issueRefused {d : Byte} {ack : Bool} {i : Instr} {w : Waiter} {k : Frame} {p : Position} {j : Fin 5}
    (h : (i, w, k) ∈ waitForms u d ack) (hs : SetsBit p w j) (ht : (getUnit s u).cfg.timeoutMs ≠ 0#16) (collides : Bool)
    (hn : (getUnit s u).con.cmd.getLsbD j = false) (hb : (getUnit s u).stat.bcl = collides)
    (ho : collides = false → (getUnit s u).stat.ov = false ∧ (getUnit s u).con.cmd ≠ 0#5)
    (hlen : n = (failingWait (waitBudget (getUnit s u)) collides).length + stepsAfterWait w false)
    (ha : s.agenda = List.replicate n .engine ++ rest) :
    core.run n (issue i p k s) = .next (landed u (afterWait w false (waitFailed collides (setIwcol (getUnit s u))))
      (failingCount collides (getUnit s u)) rest false (waitOutput w (getUnit s u)) s) := by
  rw [run_issue he hf, unitOf_waitForms h, ha]
  exact run_refusedPrimitive h hf hs ht collides hn hb ho (n := n + 1) (by omega)

/-- START handed over on a free unit with SEN refused: the unit is released when the wait has failed (42 R196). -/
theorem run_startRefused (hbusy : (getUnit s u).busy = false) (ht : (getUnit s u).cfg.timeoutMs ≠ 0#16) (collides : Bool)
    (hn : (getUnit s u).con.cmd.getLsbD 0 = false) (hb : (getUnit s u).stat.bcl = collides)
    (ho : collides = false → (getUnit s u).stat.ov = false ∧ (getUnit s u).con.cmd ≠ 0#5)
    (hlen : n = (failingWait (waitBudget (getUnit s u)) collides).length + 2)
    (ha : s.agenda = List.replicate n .engine ++ rest) :
    core.run n (issue (.start u) .claim .alone s) = .next (landed u (waitFailed collides (setIwcol (getUnit s u)))
      (failingCount collides (getUnit s u)) rest false .none s) := by
  have hfree : afterWait .start false (waitFailed collides (setIwcol (claimed (getUnit s u)))) =
      waitFailed collides (setIwcol (getUnit s u)) := by
    simp [afterWait, waitFailed, setIwcol, waitBudget, claimed, hbusy]
  rw [run_issuedClaim he hbusy, ha, ← hfree]
  refine run_refusedPrimitive (x := claimed (getUnit s u)) start_waits hf .sen ht collides hn hb ho ?_
  rw [hlen, Nat.add_comm 1]
  rfl

end issued

/-- Settles O46: the claim, then SEN accepted, refused, or found pending, and the wait that follows. -/
theorem startClaimsAndSucceeds : Obligations.StartClaimsAndSucceeds := by
  intro u s rest hf he hbusy ht n
  refine ⟨fun hr ha => ⟨_, rfl, busy_issue_claim (u := u) rfl he hbusy _, ?_⟩, fun hn hb ha => ⟨_, rfl, ?_⟩,
    fun hn hc hb ho ha => ⟨_, rfl, ?_⟩, fun hen hc hb ho ha => ⟨_, rfl, ?_⟩⟩
  · have hrun := run_issuedStart (i := .start u) rfl hr hbusy ha .alone 0
    rw [resume, finish_flying] at hrun
    exact hrun.trans (congrArg _ (landed_handedOver he.2 rfl rfl rfl))
  · have hrun := run_startRefused (n := 4) hf he hbusy ht true hn hb (fun h => nomatch h) rfl ha
    exact hrun.trans (congrArg _ (landed_handedOver he.2 rfl rfl rfl))
  · have hrun := run_startRefused (n := 3 + n) hf he hbusy ht false hn hb (fun _ => ⟨ho, hc⟩)
      (by simp [failingWait]; omega) ha
    exact hrun.trans (congrArg _ (landed_handedOver he.2 rfl rfl rfl))
  · have hpending : (claimed (getUnit s u)).con.cmd = 1#5 <<< (0 : Fin 5).val := hc
    obtain ⟨hmaster, hz⟩ := unitEvent_completes (x := claimed (getUnit s u)) (List.mem_cons_self ..) hen hc
    have hrun := run_promptPrimitive (u := u) (c := s.tcnt) (l := rest) start_waits hf hmaster
      (fun _ => SetsBit.sen.alreadyPending hpending) hz ht hb ho rfl
    rw [run_issuedClaim he hbusy, ha]
    exact hrun.trans (congrArg _ (landed_handedOver he.2 rfl rfl rfl))

/-- Settles O47: RSEN accepted or refused, and the wait that follows; WAIT is the wait alone. -/
theorem restartAndWaitSucceed : Obligations.RestartAndWaitSucceed := by
  intro u s rest hf he ht n
  refine ⟨fun hr ha => ⟨_, rfl, ?_, ?_⟩, fun hr ha => ?_, fun hn hb ha => ⟨_, rfl, ?_⟩,
    fun hn hc hb ho ha => ⟨_, rfl, ?_⟩⟩
  · obtain ⟨-, -, -, hcmd, hbcl, -⟩ := masterReady_parts hr
    exact SetsBit.rsen.cmd_issue he rfl hcmd hbcl
  · obtain ⟨-, -, hx⟩ := masterReady_parts hr
    have hrun := run_promptRsen (i := .restart u) (k := .alone) (c := s.tcnt) (l := rest) rfl hf hx
    rw [resume, finish_flying] at hrun
    rw [run_issue he hf, ha]
    exact hrun.trans (congrArg _ (landed_handedOver he.2 rfl rfl rfl))
  · obtain ⟨-, -, -, hcmd, hbcl, hov, -⟩ := masterReady_parts hr
    rw [exec_wait he, waitLoad_flying _ _ ht, ha]
    have hrun := run_engine (u := u) (x := getUnit s u) (i := .wait u) (p := .waitLoop .alone) (k := .alone)
      (c := BitVec.ofNat 32 n) (l := rest) rfl hf
    rw [waitLoop_flying _ _ hbcl hov hcmd, waitReturn, resume, finish_flying] at hrun
    exact ⟨_, rfl, rfl, hrun.trans (congrArg _ (landed_handedOver he.2 rfl rfl rfl))⟩
  · have hrun := run_issueRefused (n := 2) hf he restart_waits .rsen ht true hn hb (fun h => nomatch h) rfl ha
    exact hrun.trans (congrArg _ (landed_handedOver he.2 rfl rfl rfl))
  · have hrun := run_issueRefused (n := 1 + n) hf he restart_waits .rsen ht false hn hb (fun _ => ⟨ho, hc⟩)
      (by simp [failingWait, stepsAfterWait, n]) ha
    exact hrun.trans (congrArg _ (landed_handedOver he.2 rfl rfl rfl))

/-- Settles O48: PEN accepted or refused, and the wait that follows, which an older command can end with success. -/
theorem stopReleasesTheUnit : Obligations.StopReleasesTheUnit := by
  intro u s rest hf he ht n
  refine ⟨fun hr ha => ⟨_, rfl, ?_, ?_⟩, fun hn hb ha => ⟨_, rfl, ?_⟩,
    fun hn hc hb ho => ⟨fun ha => ⟨_, rfl, ?_⟩, fun e b y h hen hcmd ha => ⟨_, rfl, ?_⟩⟩⟩
  · obtain ⟨-, -, -, hcmd, hbcl, -⟩ := masterReady_parts hr
    exact SetsBit.pen.cmd_issue he rfl hcmd hbcl
  · obtain ⟨-, -, hx⟩ := masterReady_parts hr
    have hrun := run_promptStop (i := .stop u) (k := .alone) (c := s.tcnt) (l := rest) rfl hf hx
    rw [resume, finish_flying] at hrun
    rw [run_issue he hf, ha]
    exact hrun.trans (congrArg _ (landed_handedOver he.2 rfl rfl rfl))
  · have hrun := run_issueRefused (n := 2) hf he stop_waits .pen ht true hn hb (fun h => nomatch h) rfl ha
    exact hrun.trans (congrArg _ (landed_handedOver he.2 rfl rfl rfl))
  · have hrun := run_issueRefused (n := 1 + n) hf he stop_waits .pen ht false hn hb (fun _ => ⟨ho, hc⟩)
      (by simp [failingWait, stepsAfterWait, n]) ha
    exact hrun.trans (congrArg _ (landed_handedOver he.2 rfl rfl rfl))
  · obtain ⟨hmaster, hz⟩ := unitEvent_completes (x := setIwcol (getUnit s u)) h hen hcmd
    have hrun := run_promptPrimitive (u := u) (c := s.tcnt) (l := rest) stop_waits hf hmaster
      (fun _ => SetsBit.pen.refused hn (.inl hc)) hz ht hb ho rfl
    rw [run_issue he hf, ha]
    exact hrun.trans (congrArg _ (landed_handedOver he.2 rfl rfl rfl))

end Sys2Proof.Machine
end

section
/-! PROOF. The reading composites on a prompt bus (44 R234, R236): READ_DATA and READ_REGISTER are one operation from the read
address byte on, and differ in what they reach it by. -/

namespace Sys2Proof.Machine

section reads
variable {u : UnitId} {i : Instr} {s : State} {moves : List Move} {y : BusUnit}

/-- The read address byte acknowledged and the bytes `ds` received, the last one answered with NACK, up to the final STOP
(44 R234). -/
theorem Reaches.allRead {d : Byte} {ds : List Byte} (h : Reaches u i s moves y (.loadTrn d) (.readAddr ds.length))
    (hrbf : y.stat.rbf = false) :
    Reaches u i s (moves ++ promptWriteByte u false ++ ds.flatMap (promptReadByte u))
      (bytesRead ds true (bytesSent [d] y)) .setPen (.lastStop (.out ds)) := by
  obtain ⟨p, k, hnext⟩ := readNextByte_eq_goto ds.length []
  have hsent := h.byteSent hnext
  refine hsent.append _ hsent.mid fun l => ?_
  obtain ⟨p', k', hrun⟩ := run_readPrefix h.unit h.noFault 0 l ds _ p k _ [] hsent.ready (.inr hrbf)
    (congrArg _ hsent.budget.symm)
  rw [Nat.add_zero, hnext, goto_flying, readNextByte_zero, goto_flying] at hrun
  rw [length_promptReads]
  exact hrun

/-- The unit after a prompt STOP (42 R199). -/
def stopped (x : BusUnit) : BusUnit :=
  { x with busy := false, code := .idle, trace := x.trace ++ [.stop], witer := x.witer + 1 }

/-- The final STOP of a composite whose parts all succeeded, prompt: its ok = 1 is the composite's (44 R231). -/
theorem Reaches.lastStop {fields : OutputFields} (h : Reaches u i s moves y .setPen (.lastStop fields)) {l : List Move}
    (ha : s.agenda = moves ++ promptStop u ++ l) : ∃ t, exec i s = .next t ∧
      core.run (moves ++ promptStop u).length t =
        .next (landed u (stopped y) (BitVec.ofNat 32 (waitBudget (getUnit s u))) l true fields s) := by
  have hrun := run_promptStop (k := .lastStop fields) (c := BitVec.ofNat 32 (waitBudget (getUnit s u))) (l := l) h.unit
    h.noFault h.ready
  rw [resume, finish_flying, h.budget] at hrun
  exact h.run_append ha hrun

/-- The final STOP of a composite whose parts all succeeded, on a silent bus: its ok = 0 is the composite's (44 R231). -/
theorem Reaches.lastStopTimesOut {fields : OutputFields} (h : Reaches u i s moves y .setPen (.lastStop fields))
    {more : List Move} (ha : s.agenda = moves ++ more) : ∃ t m, exec i s = .next t ∧
      core.run moves.length t = .next m ∧ getUnit m u = y ∧ m.out = s.out ∧ stopTimesOut u fields m more := by
  obtain ⟨t, hexec, hrun⟩ := h.run more ha
  exact ⟨t, _, hexec, hrun, getUnit_flying .., out_flying ..,
    stopTimesOut_flying h.unit h.noFault h.ready h.claimed fields (fun _ => rfl) more⟩

/-- A composite handed over on a free unit has claimed it (42 R196). -/
theorem busy_exec_claim {k : Frame} {t : State} (hi : unitOf i = u) (he : engineFree s) (hb : (getUnit s u).busy = false)
    (hclaim : exec i s = .next (issue i .claim k s)) (hexec : exec i s = .next t) : (getUnit t u).busy = true := by
  rw [hclaim] at hexec
  cases hexec
  exact busy_issue_claim hi he hb k

/-- The unit in the middle of a read that found it as `x`, with `sent` put on the trace by `n` wait iterations. -/
def readReached (sent : List Sym) (n : Nat) (x y : BusUnit) : Prop :=
  y = { x with
    trn := y.trn, txsr := y.txsr, stat := { x.stat with ackstat := y.stat.ackstat }, busy := true
    trace := x.trace ++ sent, witer := x.witer + n }

/-- The unit after a whole read of `ds` that found it as `x`, with `sent` on the trace up to the address byte `d`, which took
`n` wait iterations (44 R234, R236). -/
def readDone (sent : List Sym) (n : Nat) (d : Byte) (ds : List Byte) (x : BusUnit) : BusUnit :=
  { x with
    con := { x.con with ackdt := x.con.ackdt || !ds.isEmpty }
    trn := d, txsr := d, rxsr := ds.getLastD x.rxsr, rcv := ds.getLastD x.rcv
    stat := { x.stat with ackstat := false }, busy := false, code := .idle
    trace := x.trace ++ (sent ++ [.tx d false]) ++ readTrace ds ++ [.stop], witer := x.witer + ds.length + (n + 2) }

/-- The address byte, the bytes and the STOP end the read. -/
theorem stopped_bytesRead {sent : List Sym} {n : Nat} {x : BusUnit} (hy : readReached sent n x y) (d : Byte)
    (ds : List Byte) : stopped (bytesRead ds true (bytesSent [d] y)) = readDone sent n d ds x := by
  rw [hy]
  cases ds <;> simp [stopped, bytesRead, bytesSent, readDone] <;> omega

/-- A read that has come to its read address byte: on a prompt bus every byte is received and the command returns them with
ok = 1; when its final STOP times out it returns them with ok = 0 (44 R231, R234, R236). -/
theorem Reaches.readEnds {k : Frame} {d : Byte} {ds : List Byte} {sent : List Sym} {n : Nat}
    (h : Reaches u i s moves y (.loadTrn d) (.readAddr ds.length)) (hy : readReached sent n (getUnit s u) y)
    (he : engineFree s) (hb : (getUnit s u).busy = false) (hrbf : (getUnit s u).stat.rbf = false)
    (hclaim : exec i s = .next (issue i .claim k s)) :
    (∀ rest, s.agenda = moves ++ promptWriteByte u false ++ ds.flatMap (promptReadByte u) ++ promptStop u ++ rest →
      ∃ t, exec i s = .next t ∧ (getUnit t u).busy = true ∧
        core.run (moves ++ promptWriteByte u false ++ ds.flatMap (promptReadByte u) ++ promptStop u).length t = .next
          { onUnit u (readDone sent n d ds) s with
            tcnt := BitVec.ofNat 32 (waitBudget (getUnit s u)), agenda := rest,
            out := s.out ++ [.response .polled ⟨true, false, .out ds⟩] }) ∧
    ∀ more, s.agenda = moves ++ promptWriteByte u false ++ ds.flatMap (promptReadByte u) ++ more →
      ∃ t m, exec i s = .next t ∧ core.run (moves.length + 6 + 6 * ds.length) t = .next m ∧ (getUnit m u).busy = true ∧
        (getUnit m u).code = (getUnit s u).code ∧
        (getUnit m u).trace = (getUnit s u).trace ++ (sent ++ [.tx d false]) ++ readTrace ds ∧
        m.out = s.out ∧ stopTimesOut u (.out ds) m more := by
  have hall := h.allRead (by rw [hy]; exact hrbf)
  refine ⟨fun rest ha => ?_, fun more ha => ?_⟩
  · obtain ⟨t, hexec, hrun⟩ := hall.lastStop ha
    rw [stopped_bytesRead hy] at hrun
    exact ⟨t, hexec, busy_exec_claim h.unit he hb hclaim hexec,
      hrun.trans (congrArg _ (landed_handedOver he.2 rfl rfl rfl))⟩
  · obtain ⟨t, m, hexec, hrun, hm, hout, hstop⟩ := hall.lastStopTimesOut ha
    rw [List.length_append, length_promptReads, List.length_append] at hrun
    refine ⟨t, m, hexec, hrun, ?_⟩
    rw [hm, hy]
    exact ⟨rfl, rfl, by simp [bytesRead, bytesSent], hout, hstop⟩

end reads

/-- A count below 65536 is the count the operand carries (30_encoding R105). -/
theorem toNat_count {n : Nat} (h : n < 65536) : (BitVec.ofNat 16 n).toNat = n := Nat.mod_eq_of_lt h

/-- Settles O55: START leads to the read address byte, and `Reaches.readEnds` goes on from there. -/
theorem readDataAcknowledgesAllButTheLast : Obligations.ReadDataAcknowledgesAllButTheLast := by
  intro u a ds s rest hr hb hrbf hlen hw
  obtain ⟨-, he, -⟩ := masterReady_parts hr
  have hread := reaches_readAddress hr hb hw
  rw [toNat_count hlen] at hread
  obtain ⟨hprompt, htimeout⟩ := hread.readEnds (sent := [.start]) (n := 1) rfl he hb hrbf (if_pos hw)
  refine ⟨fun ha => ?_, htimeout⟩
  rw [← List.length_tail]
  exact hprompt rest ha

/-- READ_REGISTER up to its read address byte (44 R236). -/
theorem reaches_registerRead {u : UnitId} {a r : Byte} {c : BitVec 16} {s : State} (hr : masterReady u s)
    (hb : (getUnit s u).busy = false) (hw : (Instr.readRegister u a r c).wellFormed = true) :
    ∃ y, Reaches u (.readRegister u a r c) s
        ((promptStart u).tail ++ promptWriteByte u false ++ promptWriteByte u false ++ promptRestart u) y
        (.loadTrn (addrByte a true)) (.readAddr c.toNat) ∧
      readReached [.start, .tx (addrByte a false) false, .tx r false, .restart] 4 (getUnit s u) y :=
  ⟨_, (reaches_regRestart hr hb hw).restarted fun _ => rfl, by simp [readReached, bytesSent, started]⟩

/-- Settles O56: START, the index and the RESTART lead to the read address byte, and it goes on as READ_DATA does. -/
theorem readRegisterCombinesWriteAndRead : Obligations.ReadRegisterCombinesWriteAndRead := by
  intro u a r ds s rest hr hb hrbf hlen hw
  obtain ⟨-, he, -⟩ := masterReady_parts hr
  obtain ⟨y, hread, hreached⟩ := reaches_registerRead hr hb hw
  rw [toNat_count hlen] at hread
  obtain ⟨hprompt, htimeout⟩ := hread.readEnds hreached he hb hrbf (if_pos hw)
  refine ⟨fun ha => ?_, htimeout⟩
  rw [← List.length_tail]
  exact hprompt rest ha

end Sys2Proof.Machine
end

section
/-! PROOF. SCAN_BUS (44 R237): the whole scan on a prompt bus, on a busy unit, and with one probe whose STOP times out. -/

namespace Sys2Proof.Machine

section scans
variable {u : UnitId} {i : Instr} {s : State} {l : List Move}

/-- A command handed over with the moves after its first step on the agenda runs as from before that step. -/
theorem run_issueTail (hi : unitOf i = u) (hf : faultFree s) (he : engineFree s) {moves : List Move}
    (hm : moves.head? = some .engine) (ha : s.agenda = moves.tail ++ l) (p : Position) (k : Frame) :
    core.run (moves.length - 1) (issue i p k s) =
      core.run moves.length (flying u (getUnit s u) i p k s.tcnt (moves ++ l) s) := by
  obtain ⟨later, rfl⟩ := List.head?_eq_some_iff.mp hm
  rw [List.tail_cons] at ha
  rw [List.length_cons, Nat.add_sub_cancel, run_issue he hf, hi, ha, List.cons_append]

/-- Two stretches of addresses are one. -/
theorem addrsFrom_add (a m n : Nat) : addrsFrom a m ++ addrsFrom (a + m) n = addrsFrom a (m + n) := by
  rw [addrsFrom, addrsFrom, addrsFrom, ← List.map_append, List.range'_append_1]

/-- The first `p` addresses a scan probes (44 R237). -/
theorem scanAddresses_take {p : Nat} (hp : p < 126) : scanAddresses.take p = addrsFrom 1 p := by
  obtain ⟨n, hn⟩ : ∃ n, 126 = p + n := ⟨126 - p, by omega⟩
  rw [scanAddresses_eq, hn, ← addrsFrom_add]
  exact List.take_left' (by simp [addrsFrom])

/-- What the probe of one address does to a scan's list. -/
theorem scanned_one (present : BitVec 7 → Bool) (m : Byte) (list : List (BitVec 7)) (a : BitVec 7) :
    (if present a && decide (list.length < m.toNat) then list ++ [a] else list) = scanned present m list [a] := by
  rw [scanned_cons]
  simp [scanned]

/-- A whole scan's list is cut at its capacity (44 R237). -/
theorem scanned_nil (present : BitVec 7 → Bool) (m : Byte) (as : List (BitVec 7)) :
    scanned present m [] as = (as.filter present).take m.toNat := rfl

/-- After the probe of address `a` the `n` later ones fail on a unit left busy, each in the first step of its START
(44 R237, 70 R366). -/
theorem run_scanNextBusy (hi : unitOf i = u) (hf : faultFree s) {x : BusUnit} (hb : x.busy = true) {a n : Nat}
    (ha : a + n = 126) (m : Byte) (found : Bool) (list : List (BitVec 7)) (p : Position) (k : Frame) (c : BitVec 32) :
    core.run n (scanNext (BitVec.ofNat 7 a) m found list (flying u x i p k c (List.replicate n .engine ++ l) s)) =
      .next (landed u (if n = 0 then x else { x with code := .busy }) c l found (.found list) s) := by
  cases n with
  | zero =>
    obtain rfl : a = 126 := ha
    rw [scanNext, if_neg (by decide), finish_flying]
    rfl
  | succ n =>
    have hnext : BitVec.ofNat 7 a + 1 = BitVec.ofNat 7 (a + 1) := (BitVec.ofNat_add ..).symm
    rw [scanNext, if_pos (by simp; omega), goto_flying, hnext]
    exact run_busyScan hi hf m found list c l n x (a + 1) (by omega) hb

/-- A scan whose probe of address `p + 1` has its STOP time out: the probes before it are prompt, those after it fail on the
unit left busy (44 R237, 70 R366). -/
theorem run_scanStopFails (present : BitVec 7 → Bool) (hi : unitOf i = u) (hf : faultFree s) (m : Byte) {x : BusUnit}
    (hx : readyUnit x) (hb : x.busy = false) {p : Nat} (hp : p < 126) (c : BitVec 32) :
    let probed := addrsFrom 1 p
    let a := BitVec.ofNat 7 (p + 1)
    let moves := probed.flatMap (fun b => promptProbe u (present b)) ++ failedProbe u (waitBudget x) (present a) ++
      List.replicate (125 - p) .engine
    ∃ z, core.run moves.length (flying u x i .claim (.scanStart 1 m false []) c (moves ++ l) s) =
        .next (landed u z 0#32 l ((probed ++ [a]).any present) (.found (scanned present m [] (probed ++ [a]))) s) ∧
      z.trace = x.trace ++ scanTrace present probed ++ [.start, .tx (addrByte (a.setWidth 8) false) (!present a)] ∧
      z.busy = true ∧ z.code = (if p = 125 then .timeout else .busy) ∧ z.con.cmd = cmdPen := by
  intro probed a moves
  obtain ⟨y, c', hprefix, hy, hyx⟩ := run_scanPrefix present hi hf m
    (failedProbe u (waitBudget x) (present a) ++ (List.replicate (125 - p) .engine ++ l)) p x 1 false [] c (by omega) hx hb
  have hbudget : waitBudget y = waitBudget x := by
    rw [hyx]
    rfl
  obtain ⟨z, q, k, hfailed, hbusy, hcode, hcmd, htrace⟩ := run_failedProbe hi hf y c'
    (List.replicate (125 - p) .engine ++ l) hy (by rw [hyx]) a m (false || probed.any present) (scanned present m [] probed)
    (present a)
  rw [hbudget, scanned_one, scanned_append] at hfailed
  have hrest := run_scanNextBusy (l := l) hi hf hbusy (show p + 1 + (125 - p) = 126 by omega) m
    (false || probed.any present || present a) (scanned present m [] (probed ++ [a])) q k 0#32
  refine ⟨if 125 - p = 0 then z else { z with code := .busy }, ?_, ?_⟩
  · rw [Nat.add_comm 1 p] at hprefix
    rw [List.length_append, List.length_append, List.append_assoc, List.append_assoc, Nat.add_assoc]
    rw [List.length_replicate]
    refine (core_run_add hprefix _).trans ((core_run_add hfailed _).trans (hrest.trans ?_))
    rw [Bool.false_or, List.any_append, List.any_cons, List.any_nil, Bool.or_false]
  · have hsent : z.trace = x.trace ++ scanTrace present probed ++
        [.start, .tx (addrByte (a.setWidth 8) false) (!present a)] := by rw [htrace, hyx]
    by_cases hlast : p = 125
    · subst hlast
      exact ⟨hsent, hbusy, hcode, hcmd⟩
    · rw [if_neg (by omega), if_neg hlast]
      exact ⟨hsent, hbusy, rfl, hcmd⟩

end scans

/-- A scan begins with a step of the ENGINE (44 R237). -/
theorem head?_promptScan (u : UnitId) (present : BitVec 7 → Bool) : (promptScan u present).head? = some .engine := by
  have hfirst : scanAddresses = 1#7 :: scanAddresses.tail := by decide
  rw [promptScan, hfirst]
  rfl

/-- So does a scan with a failed probe, which can be its first. -/
theorem head?_failedScan (u : UnitId) (present : BitVec 7 → Bool) (as : List (BitVec 7)) (n : Nat) (ack : Bool)
    (l : List Move) :
    (as.flatMap (fun b => promptProbe u (present b)) ++ failedProbe u n ack ++ l).head? = some .engine := by
  cases as <;> rfl

/-- Settles O58: the whole scan is `run_scan`, the scan of a busy unit `run_busyScan`, the scan with a failed STOP
`run_scanStopFails`. -/
theorem scanListsTheAnsweringAddresses : Obligations.ScanListsTheAnsweringAddresses := by
  intro u m present s rest
  have hi : unitOf (.scanBus u m) = u := rfl
  refine ⟨fun hr hb ha => ⟨_, rfl, ?_, ?_⟩, fun hf he hb ha => ⟨_, rfl, ?_⟩, ?_⟩
  · obtain ⟨-, he, -⟩ := masterReady_parts hr
    exact busy_issue_claim hi he hb _
  · obtain ⟨hf, he, hx⟩ := masterReady_parts hr
    have hrun := run_scan present hi hf 125 (getUnit s u) 1 m false [] s.tcnt rest rfl hx hb
    rw [← scanAddresses_eq] at hrun
    rw [run_issueTail hi hf he (head?_promptScan u present) ha]
    exact hrun.trans (congrArg _ (landed_handedOver he.2 rfl rfl rfl))
  · have hrun := run_busyScan hi hf m false [] s.tcnt rest 125 (getUnit s u) 1 rfl hb
    rw [run_issue he hf, hi, ha]
    exact hrun.trans (congrArg _ (landed_handedOver he.2 rfl (onUnit_tcnt ..).symm rfl))
  · intro p hp hr hb probed a moves ha
    obtain ⟨hf, he, hx⟩ := masterReady_parts hr
    obtain ⟨z, hrun, htrace, hbusy, hcode, hcmd⟩ := run_scanStopFails (l := rest) present hi hf m hx hb hp s.tcnt
    rw [← scanAddresses_take hp] at hrun htrace
    refine ⟨_, _, rfl, (run_issueTail hi hf he (head?_failedScan ..) ha _ _).trans hrun, ?_⟩
    rw [getUnit_landed]
    exact ⟨htrace, hbusy, hcode, hcmd, rfl, rfl, out_landed ..⟩

end Sys2Proof.Machine
end

section
/-! PROOF. WRITE_BYTE and READ_BYTE handed over (43 R215 to R218): their first step writes TRN or ACKDT, and from the unit it
leaves each goes on as a primitive whose command bit is accepted, refused with IWCOL or already pending (40 R133). -/

namespace Sys2Proof.Machine

/-! ## The first step -/

/-- The unit after a write of ACKDT (43 R217). -/
def ackdtSet (a : Bool) (x : BusUnit) : BusUnit := { x with con := { x.con with ackdt := a } }

section issued
variable {u : UnitId} {s : State} (he : engineFree s)
include he

/-- WRITE_BYTE handed over has written TRN, as any register write does (20_memory R79, 43 R215). -/
theorem issue_writeByte (d : Byte) : issue (.writeByte u d) (.loadTrn d) .alone s =
    flying u (trnWrite (d.setWidth 16) (getUnit s u)) (.writeByte u d) .setXen .alone s.tcnt s.agenda s := by
  rw [issue_free he, positionStep, hwWrite_flying, goto_flying]
  rfl

/-- With XEN and BCL clear TRN has taken the byte (40 R142). -/
theorem issue_writeByte_stores (hx : (getUnit s u).con.cmd.getLsbD 4 = false) (hb : (getUnit s u).stat.bcl = false)
    (d : Byte) : issue (.writeByte u d) (.loadTrn d) .alone s =
      flying u { getUnit s u with trn := d } (.writeByte u d) .setXen .alone s.tcnt s.agenda s := by
  rw [issue_writeByte he, trnWrite_stores hx hb, BitVec.extractLsb'_setWidth_of_le (by decide), BitVec.extractLsb'_eq_self]

/-- With XEN pending or BCL set TRN has refused the byte (40 R142). -/
theorem issue_writeByte_refused (h : (getUnit s u).con.cmd.getLsbD 4 = true ∨ (getUnit s u).stat.bcl = true) (d : Byte) :
    issue (.writeByte u d) (.loadTrn d) .alone s =
      flying u (setIwcol (getUnit s u)) (.writeByte u d) .setXen .alone s.tcnt s.agenda s := by
  rw [issue_writeByte he, trnWrite_refused h]

/-- READ_BYTE handed over has set ACKDT, whatever is pending (43 R217). -/
theorem issue_readByte (ack : Bool) : issue (.readByte u ack) (.setAckdt (!ack)) .aloneRead s =
    flying u (ackdtSet (!ack) (getUnit s u)) (.readByte u ack) .setRcen .aloneRead s.tcnt s.agenda s := by
  rw [issue_free he, setAckdt_flying]
  rfl

end issued

/-! ## The events that complete a byte -/

/-- DONE_XEN(a) completes the pending transmit of the byte in TXSR (40 R153). -/
theorem doneXen_completes {x : BusUnit} (hen : x.con.en = true) (hc : x.con.cmd = cmdXen) (a : Bool) :
    unitEvent (.doneXen a) x = { x with
      con := { x.con with cmd := 0#5 }, stat := { x.stat with ackstat := a }, trace := x.trace ++ [.tx x.txsr a] } := by
  refine (if_pos (commandRuns_of hen (by rw [hc]; decide))).trans ?_
  rw [addTrace, completeCmd, hc]
  rfl

/-- The unit with RCEN pending (40 R137). -/
def receiving (x : BusUnit) : BusUnit := { x with con := { x.con with cmd := cmdRcen } }

/-- DONE_RCEN(b) completes a receive; a byte not yet read stays in RCV, and OV is set (40 R154). -/
theorem doneRcen_overruns {x : BusUnit} (hen : x.con.en = true) (hc : x.con.cmd = 0#5) (hr : x.stat.rbf = true) (b : Byte) :
    unitEvent (.doneRcen b) (receiving x) =
      { x with rxsr := b, stat := { x.stat with ov := true }, trace := x.trace ++ [.rx b x.con.ackdt] } := by
  have hruns : commandRuns cmdRcen (receiving x) = true := commandRuns_of hen (show cmdRcen &&& cmdRcen ≠ 0#5 by decide)
  refine (if_pos hruns).trans ?_
  rw [receiveByte, if_pos (show (receiving x).stat.rbf = true from hr)]
  exact congrArg (addTrace _)
    (completeCmd_set (x := { x with rxsr := b, stat := { x.stat with ov := true } }) cmdRcen hc)

/-! ## The commands -/

/-- WRITE_BYTE is one of the primitives that wait. -/
theorem writeByte_waits {u : UnitId} {d : Byte} : (.writeByte u d, .writeByte, .alone) ∈ waitForms u d false := by
  simp [waitForms]

/-- READ_BYTE is one of the primitives that wait. -/
theorem readByte_waits {u : UnitId} {ack : Bool} : (.readByte u ack, .readByte, .aloneRead) ∈ waitForms u 0 ack := by
  simp [waitForms]

/-- Setting RCEN on a ready unit (43 R217). -/
theorem setRcen_flying {u : UnitId} {x : BusUnit} {i : Instr} {p : Position} {k k0 : Frame} {c : BitVec 32} {l : List Move}
    {s : State} (h : readyUnit x) : positionStep u .setRcen k (flying u x i p k0 c l s) =
      flying u (receiving x) i (.waitLoad .readByte) k c l s := by
  obtain ⟨-, hcmd, hbcl, -⟩ := h
  rw [SetsBit.rcen.step, setCommandBit_ready cmdRcen _ rfl rfl (by decide) (by decide) hcmd hbcl]
  rfl

/-- A primitive whose step at `p` leaves the command in `y` pending, which the event `e` completes with an overrun, leaving
`z`: the first iteration of its wait finds OV (42 R192). -/
theorem run_overrunPrimitive {u : UnitId} {d : Byte} {ack : Bool} {x : BusUnit} {i : Instr} {w : Waiter} {k : Frame}
    {p : Position} {c : BitVec 32} {l : List Move} {s : State} (h : (i, w, k) ∈ waitForms u d ack) (hf : faultFree s)
    {e : BusEvent} {y z : BusUnit} (he : isSlaveEvent e = false)
    (hp : ∀ l, positionStep u p k (flying u x i p k c l s) = flying u y i (.waitLoad w) k c l s)
    (hz : unitEvent e y = z) (ht : z.cfg.timeoutMs ≠ 0#16) (hb : z.stat.bcl = false) (ho : z.stat.ov = true) :
    core.run (4 + stepsAfterWait w false)
        (flying u x i p k c (promptCommand u e ++ (List.replicate (stepsAfterWait w false) .engine ++ l)) s) =
      .next (landed u (afterWait w false { z with code := .rxOverrun, witer := z.witer + 1 })
        (BitVec.ofNat 32 (waitBudget z)) l false (waitOutput w z) s) := by
  have hengine := fun x p c l => step_flying_engine u x i p k c l s (unitOf_waitForms h) hf
  rw [Nat.add_comm, promptCommand, List.cons_append, core_run_next (hengine ..), hp, List.cons_append,
    core_run_next (step_flying_bus _ _ _ _ _ _ _ _ hf _ he), hz, List.cons_append, core_run_next (hengine ..),
    waitLoad_flying _ _ ht, List.cons_append, core_run_next (hengine ..), waitLoop_overrun _ _ hb ho]
  exact run_afterWait h hf false _ _ _ _ l

/-- The steps of a wait that times out: the counter load and the iterations. -/
theorem length_failingWait (n : Nat) : (failingWait n false).length = 1 + n := List.length_replicate

/-- Settles O52: TRN takes the byte or refuses it, XEN is accepted, refused or found pending, and the wait follows. -/
theorem writeByteSendsAndChecksTheAcknowledge : Obligations.WriteByteSendsAndChecksTheAcknowledge := by
  intro u d a s rest hf he ht n
  refine ⟨fun hr ha => ⟨_, rfl, ?_, ?_⟩, fun hx hb ha => ⟨_, rfl, ?_, ?_⟩, fun hen hc hb ho ha => ⟨_, rfl, ?_⟩,
    fun hx hc hb ho ha => ⟨_, rfl, ?_⟩⟩
  · obtain ⟨-, -, -, hcmd, hbcl, -⟩ := masterReady_parts hr
    rw [issue_writeByte_stores he (by rw [hcmd]; rfl) hbcl, getUnit_flying]
  · obtain ⟨-, -, hx⟩ := masterReady_parts hr
    have hrun := run_promptWriteByte (i := .writeByte u d) (k := .alone) (c := s.tcnt) (l := rest) rfl hf hx d a
    rw [resume, finish_flying] at hrun
    rw [run_issue he hf, ha]
    exact hrun.trans (congrArg _ (landed_handedOver he.2 rfl rfl rfl))
  · rw [issue_writeByte_refused he (.inr hb), getUnit_flying]
    rfl
  · rw [issue_writeByte_refused he (.inr hb), ha]
    exact (run_refusedPrimitive (x := setIwcol (getUnit s u)) writeByte_waits hf .xen ht true hx hb
      (fun h => nomatch h) rfl).trans (congrArg _ (landed_handedOver he.2 rfl rfl rfl))
  · have hpending : (setIwcol (getUnit s u)).con.cmd = cmdXen := hc
    have hz := doneXen_completes (x := setIwcol (getUnit s u)) hen hpending a
    rw [issue_writeByte_refused he (.inl (by rw [hc]; rfl)), ha, List.append_assoc]
    refine (run_promptPrimitive writeByte_waits hf rfl (fun _ => SetsBit.xen.alreadyPending hpending) hz ht hb ho
      rfl).trans ?_
    rw [afterWait_succeeded]
    exact congrArg _ (landed_handedOver he.2 rfl rfl rfl)
  · rw [issue_writeByte_stores he hx hb, ha]
    refine (run_refusedPrimitive (x := { getUnit s u with trn := d }) writeByte_waits hf .xen ht false hx hb
      (fun _ => ⟨ho, hc⟩) ?_).trans (congrArg _ (landed_handedOver he.2 rfl rfl rfl))
    show 2 + n = 1 + (failingWait n false).length
    rw [length_failingWait]
    omega

/-- Settles O53: ACKDT is set in any case, RCEN is accepted or refused, and RCV is read whatever the wait returned. -/
theorem readByteReceivesAndAcknowledges : Obligations.ReadByteReceivesAndAcknowledges := by
  intro u ack b s rest hf he ht n
  refine ⟨fun hr ha => ⟨_, rfl, ?_, fun hrbf => ?_, fun hrbf => ?_⟩, fun hx hb ha => ⟨_, rfl, ?_⟩,
    fun hx hc hb ho ha => ⟨_, rfl, ?_⟩⟩
  · rw [issue_readByte he, getUnit_flying]
    rfl
  · obtain ⟨-, -, hx⟩ := masterReady_parts hr
    have hrun := run_promptReadByte (i := .readByte u ack) (k := .aloneRead) (c := s.tcnt) (l := rest) rfl hf hx hrbf
      (!ack) b
    rw [resume, finish_flying] at hrun
    rw [run_issue he hf, ha]
    exact hrun.trans (congrArg _ (landed_handedOver he.2 rfl rfl rfl))
  · obtain ⟨-, -, hx⟩ := masterReady_parts hr
    have ⟨hen, hcmd, hbcl, _⟩ := hx
    have hz := doneRcen_overruns (x := ackdtSet (!ack) (getUnit s u)) hen hcmd hrbf b
    rw [issue_readByte he, ha, List.append_assoc]
    exact (run_overrunPrimitive readByte_waits hf rfl
      (fun _ => setRcen_flying (x := ackdtSet (!ack) (getUnit s u)) hx) hz ht hbcl rfl).trans
      (congrArg _ (landed_handedOver he.2 rfl rfl rfl))
  · rw [issue_readByte he, ha]
    exact (run_refusedPrimitive (x := ackdtSet (!ack) (getUnit s u)) readByte_waits hf .rcen ht true hx hb
      (fun h => nomatch h) rfl).trans (congrArg _ (landed_handedOver he.2 rfl rfl rfl))
  · rw [issue_readByte he, ha]
    refine (run_refusedPrimitive (x := ackdtSet (!ack) (getUnit s u)) readByte_waits hf .rcen ht false hx hb
      (fun _ => ⟨ho, hc⟩) ?_).trans (congrArg _ (landed_handedOver he.2 rfl rfl rfl))
    show 3 + n = 1 + (failingWait n false).length + 1
    rw [length_failingWait]
    omega

end Sys2Proof.Machine
end

section
/-! PROOF. The order of a running scan's list (44 R237) through every step: only the ENGINE and the handing over of a command
move the sequencer, and every other move leaves the command in flight as it is. -/

namespace Sys2Proof.Machine

/-- Every instruction keeps `scanOrdered`: the one that starts a scan starts it with an ordered list. -/
theorem scanOrdered_execResult {i : Instr} {s t : State} (h : scanOrdered s) (ht : ExecResult i s t) : scanOrdered t := by
  cases ht with
  | answered | held | raised => exact scanOrdered_congr h rfl
  | cleared | registered => exact scanOrdered_congr h (respondOnUnit_keeps_polledOp ..)
  | issued _ _ _ hk => exact scanOrdered_issue _ _ h hk
  | wrote => exact scanOrdered_congr h (hwWrite_keeps_polledOp ..)
  | read => exact scanOrdered_congr h (hostRead_keeps_polledOp ..)
  | dispatched => exact scanOrdered_congr h (onUnit_polledOp ..)

/-- Every move keeps `scanOrdered`. -/
theorem scanOrdered_moveResult {s t : State} (h : scanOrdered s) (ht : MoveResult s t) : scanOrdered t := by
  cases ht with
  | unchanged => exact h
  | @executed c _ _ ht => exact scanOrdered_execResult (s := { s with issuer := c }) h ht
  | rejected | invoked => exact scanOrdered_congr h rfl
  | engine => exact scanOrdered_engineStep h
  | interrupted => exact scanOrdered_congr h (takeInterrupt_polledOp ..)
  | selected => exact scanOrdered_congr h (dispatchSelect_polledOp ..)
  | returned => exact scanOrdered_congr h (callbackReturn_polledOp ..)
  | event => exact scanOrdered_congr h (busEvent_polledOp ..)

/-- Settles O11: the step is a move from a state with the same command in flight, and every move keeps `scanOrdered`. -/
theorem stepKeepsScanOrder : Obligations.StepKeepsScanOrder := by
  intro s t h hstep
  obtain ⟨a, n, ht⟩ := step_result hstep
  exact scanOrdered_moveResult (s := { s with agenda := a, tick := n }) h ht

end Sys2Proof.Machine
end

section
/-! PROOF. WRITE_DATA and READ_DATA as requests of the host on a prompt bus, one after the other (44 R240). Each is the run its
own statement gives, from the step that hands it over to its response. -/

namespace Sys2Proof.Machine

/-- The step that takes a command's request off the agenda is the command's first atomic step (46 R298). -/
theorem step_request {i : Instr} {s : State} {l : List Move} (hf : faultFree s) (ha : s.agenda = .host (encode i) :: l)
    (hc : commandClass i ≠ none) : step s = exec i { s with agenda := l, issuer := .polled } := by
  rw [step_agenda hf ha, takeMove, serve, decode_encode_command hc]

/-- A ready unit is ready whatever comes next on the agenda and whichever context the command comes from. -/
theorem masterReady_request {u : UnitId} {s : State} (hr : masterReady u s) (l : List Move) (c : Issuer) :
    masterReady u { s with agenda := l, issuer := c } := by
  simpa only [masterReady, faultFree, getUnit_setBlock] using hr

section requests
variable {u : UnitId} {a : Byte} {bs : List Byte} {s : State} {l : List Move}

/-- A request of WRITE_DATA on a prompt bus that acknowledges every byte: the response, the trace, and a unit that is ready
for the next command (44 R233). -/
theorem run_writeDataRequest (hr : masterReady u s) (hb : (getUnit s u).busy = false)
    (hw : (Instr.writeData u a bs).wellFormed = true)
    (ha : s.agenda = .host (encode (.writeData u a bs)) :: ((promptWriteData u bs.length).tail ++ l)) :
    ∃ t, core.run (promptWriteData u bs.length).length s = .next t ∧ masterReady u t ∧ (getUnit t u).busy = false ∧
      (getUnit t u).stat.rbf = (getUnit s u).stat.rbf ∧ t.agenda = l ∧
      t.out = s.out ++ [.response .polled ⟨true, false, .none⟩] ∧
      (getUnit t u).trace = (getUnit s u).trace ++ [.start] ++ (addrByte a false :: bs).map (fun b => .tx b false) ++
        [.stop] := by
  obtain ⟨hprompt, -⟩ := writeTransactionsSendEveryByte.2 u a bs bs _ _ l
    (masterReady_request hr ((promptWriteData u bs.length).tail ++ l) .polled) (by rw [getUnit_setBlock, hb]) hw (.inl ⟨rfl, rfl⟩)
  obtain ⟨t, hexec, -, hrun⟩ := hprompt rfl
  refine ⟨_, (core_run_next ((step_request hr.1 ha (Option.some_ne_none _)).trans hexec) _).trans hrun, ?_⟩
  simp only [masterReady, faultFree, getUnit_setBlock, getUnit_onUnit, onUnit_faultMark, onUnit_inCallback,
    onUnit_polledOp, and_true]
  exact hr

/-- A request of READ_DATA on a prompt bus whose device returns `bs`: the response with those bytes and the trace (44
R234). -/
theorem run_readDataRequest (hr : masterReady u s) (hb : (getUnit s u).busy = false)
    (hrbf : (getUnit s u).stat.rbf = false) (hlen : bs.length < 65536)
    (hw : (Instr.readData u a (BitVec.ofNat 16 bs.length)).wellFormed = true)
    (ha : s.agenda = .host (encode (.readData u a (BitVec.ofNat 16 bs.length))) :: ((promptReadData u bs).tail ++ l)) :
    ∃ t, core.run (promptReadData u bs).length s = .next t ∧ t.agenda = l ∧
      t.out = s.out ++ [.response .polled ⟨true, false, .out bs⟩] ∧
      (getUnit t u).trace =
        (getUnit s u).trace ++ [.start, .tx (addrByte a true) false] ++ readTrace bs ++ [.stop] := by
  obtain ⟨hprompt, -⟩ := readDataAcknowledgesAllButTheLast u a bs _ l
    (masterReady_request hr ((promptReadData u bs).tail ++ l) .polled) (by rw [getUnit_setBlock, hb]) (by rw [getUnit_setBlock, hrbf]) hlen hw
  obtain ⟨t, hexec, -, hrun⟩ := hprompt rfl
  refine ⟨_, (core_run_next ((step_request hr.1 ha (Option.some_ne_none _)).trans hexec) _).trans hrun, rfl, rfl, ?_⟩
  rw [getUnit_setBlock, getUnit_onUnit, getUnit_setBlock]

end requests

/-- Settles O57: the write leaves the unit ready, so the read runs from where it ends, and returns what its bus gives. -/
theorem writeThenReadReturnsTheBytes : Obligations.WriteThenReadReturnsTheBytes := by
  intro u a bs s rest hr hb hrbf hlen hww hwr ha
  simp only [List.append_assoc, List.cons_append] at ha
  obtain ⟨m, hwrite, hrm, hbm, hrbfm, ham, houtm, htracem⟩ := run_writeDataRequest hr hb hww ha
  obtain ⟨t, hread, hat, houtt, htracet⟩ := run_readDataRequest hrm hbm (hrbfm.trans hrbf) hlen hwr ham
  refine ⟨t, (core_run_add hwrite _).trans hread, ?_, ?_, hat⟩
  · rw [houtt, houtm, List.append_assoc]
    rfl
  · simp only [htracet, htracem, List.append_assoc]

end Sys2Proof.Machine
end

section
/-! PROOF. The slave receiver (45 sections 1 and 2): each slave event on a unit that is ready for it changes that unit alone,
by the rule its address phase selects. -/

namespace Sys2Proof.Machine

/-- The move of a slave event a ready unit allows changes the event's unit alone (45 R260). -/
theorem step_slaveEvent {u : UnitId} {e : BusEvent} {s : State} {rest : List Move} (hr : slaveReady u s)
    (ha : s.agenda = .bus u e :: rest) (he : isSlaveEvent e = true) (hn : slaveEnabled e (getUnit s u) = true)
    {f : BusUnit → BusUnit} (hx : unitEvent e (getUnit s u) = f (getUnit s u)) :
    step s = .next (onUnit u f { s with agenda := rest }) := by
  rw [slave_step hr ha he hn, onUnit_congr (by simpa using hx)]

section bytes
variable {u : UnitId} {b : Byte} {s : State} {rest : List Move} {f : BusUnit → BusUnit} (hr : slaveReady u s)
  (ha : s.agenda = .bus u (.sRxByte b) :: rest)
include hr ha

/-- A byte in an address phase that takes one, AWAIT_ADDR, HI10 or WRITE, changes the unit by `slaveByte` (45 R264 to
R268). -/
theorem step_slaveByte (hs : (getUnit s u).slv = .awaitAddr ∨ (getUnit s u).slv = .hi10 ∨ (getUnit s u).slv = .write)
    (hx : slaveByte b (getUnit s u) = f (getUnit s u)) : step s = .next (onUnit u f { s with agenda := rest }) := by
  refine step_slaveEvent hr ha rfl ?_ hx
  simpa only [slaveEnabled, hr.2.1, Bool.true_and, Bool.or_eq_true, beq_iff_eq, or_assoc] using hs

/-- In AWAIT_ADDR the 7-bit role takes the byte as its whole address (45 R264). -/
theorem step_addressByte7 (hs : (getUnit s u).slv = .awaitAddr) (hm : (getUnit s u).con.mode = .slave7)
    (hx : addressByte7 b (getUnit s u) = f (getUnit s u)) : step s = .next (onUnit u f { s with agenda := rest }) :=
  step_slaveByte hr ha (.inl hs) (by rw [slaveByte, hs, hm]; exact hx)

/-- In AWAIT_ADDR the 10-bit role takes the byte as the first of its address (45 R266). -/
theorem step_addressByte10 (hs : (getUnit s u).slv = .awaitAddr) (hm : (getUnit s u).con.mode = .slave10)
    (hx : addressByte10 b (getUnit s u) = f (getUnit s u)) : step s = .next (onUnit u f { s with agenda := rest }) :=
  step_slaveByte hr ha (.inl hs) (by rw [slaveByte, hs, hm]; exact hx)

/-- In HI10 the byte is the second of a 10-bit address (45 R267). -/
theorem step_addressByteLow (hs : (getUnit s u).slv = .hi10) (hx : addressByteLow b (getUnit s u) = f (getUnit s u)) :
    step s = .next (onUnit u f { s with agenda := rest }) :=
  step_slaveByte hr ha (.inr (.inl hs)) (by rw [slaveByte, hs]; exact hx)

/-- In WRITE the byte is data (45 R268). -/
theorem step_slaveData (hs : (getUnit s u).slv = .write) (hx : slaveData b (getUnit s u) = f (getUnit s u)) :
    step s = .next (onUnit u f { s with agenda := rest }) :=
  step_slaveByte hr ha (.inr (.inr hs)) (by rw [slaveByte, hs]; exact hx)

end bytes

/-- Settles O28: an active slave receiver allows both events in every address phase. -/
theorem slaveStartAndStop : Obligations.SlaveStartAndStop := by
  intro u s rest hr
  have hactive : slaveActive (getUnit s u) = true := hr.2.1
  refine ⟨fun r ha => step_slaveEvent hr ha rfl hactive ?_, fun ha => step_slaveEvent hr ha rfl hactive rfl⟩
  cases r <;> simp [unitEvent, slaveStart, addTrace, setSif]

/-- The byte is the general call, on a unit that takes it (45 R265). -/
theorem generalCall_iff (b : Byte) (x : BusUnit) :
    (decide (b = 0x00#8) && x.con.gcen) = true ↔ b = 0x00#8 ∧ x.con.gcen = true := by
  rw [Bool.and_eq_true, decide_eq_true_eq]

/-- Settles O29: the four outcomes of the 7-bit address byte, the own address compared first. -/
theorem sevenBitAddressByte : Obligations.SevenBitAddressByte := by
  intro u b s rest hr hs hm ha x s' own
  have heard : own ↔ b.extractLsb' 1 7 = x.add.extractLsb' 0 7 := (hi7 b x.add).symm
  refine ⟨fun ho hw => ?_, fun ho hread => ?_, fun ho hg => ?_, fun ho hg => ?_⟩ <;>
    refine step_addressByte7 hr ha hs hm ?_
  · exact (if_pos (heard.mp ho)).trans (if_neg (Bool.eq_false_iff.mp ((bit0_false b).mpr hw)))
  · exact (if_pos (heard.mp ho)).trans (if_pos ((bit0_true b).mpr hread))
  · exact (if_neg (mt heard.mpr ho)).trans (if_pos ((generalCall_iff b x).mpr hg))
  · exact (if_neg (mt heard.mpr ho)).trans (if_neg (mt (generalCall_iff b x).mp hg))

/-- The low byte of a 10-bit address, by numbers (45 R267). -/
theorem low10eq (b : Byte) (a : BitVec 10) : b = a.extractLsb' 0 8 ↔ b.toNat = a.toNat % 256 := by
  rw [← BitVec.toNat_inj, BitVec.extractLsb'_toNat, Nat.shiftRight_zero]

/-- The general call is not the first byte of a 10-bit address (45 R265, R266). -/
theorem matchesHigh10_zero (x : BusUnit) : matchesHigh10 0x00#8 x = false := rfl

section firstByte
variable {b : Byte} {x : BusUnit}

/-- The first byte of the own address, for a write: the second is awaited (45 R266). -/
theorem addressByte10_ownWrite (hh : matchesHigh10 b x = true) (hw : b.getLsbD 0 = false) :
    addressByte10 b x = addTrace (.sRx b false) { x with rxsr := b, slv := .hi10 } := by
  rw [addressByte10, hh, hw]
  rfl

/-- The first byte of the own address, for a read, after both bytes have matched once (45 R266). -/
theorem addressByte10_ownRead (hh : matchesHigh10 b x = true) (hread : b.getLsbD 0 = true) (hm : x.m10 = true) :
    addressByte10 b x = addTrace (.sRx b false) (addressedRead { x with rxsr := b }) := by
  rw [addressByte10, hh, hread, hm]
  rfl

/-- A first byte that is not the own one for a write, or for a read after a match, is the general call (45 R265) or ends the
address phase (R266). -/
theorem addressByte10_other (hno : ¬ (matchesHigh10 b x = true ∧ (b.getLsbD 0 = false ∨ x.m10 = true))) :
    addressByte10 b x = if b = 0x00#8 && x.con.gcen then addTrace (.sRx b false) (addressedWrite true { x with rxsr := b })
      else addTrace (.sRx b true) { x with rxsr := b, slv := .idle, m10 := false } := by
  have hwrite : ¬ (matchesHigh10 b x && !b.getLsbD 0) = true := by
    rw [Bool.and_eq_true, Bool.not_eq_true']
    exact fun h => hno ⟨h.1, .inl h.2⟩
  have hread : ¬ (matchesHigh10 b x && b.getLsbD 0 && x.m10) = true := by
    rw [Bool.and_eq_true, Bool.and_eq_true]
    exact fun h => hno ⟨h.1.1, .inr h.2⟩
  exact (if_neg hwrite).trans (if_neg hread)

end firstByte

/-- Settles O30: the outcomes of the first byte, of which the general call excludes the own address, then the two of the
second. -/
theorem tenBitAddressBytes : Obligations.TenBitAddressBytes := by
  intro u b s rest hr ha x s' high
  have matched : high ↔ matchesHigh10 b x = true := (hi10eq b x).symm
  refine ⟨fun hs hm => ⟨fun hh hw => ?_, fun hh hread hm10 => ?_, fun hb hg => ?_, fun hno hnocall => ?_⟩,
    fun hs => ⟨fun hlow => ?_, fun hlow => ?_⟩⟩
  · exact step_addressByte10 hr ha hs hm (addressByte10_ownWrite (matched.mp hh) ((bit0_false b).mpr hw))
  · exact step_addressByte10 hr ha hs hm (addressByte10_ownRead (matched.mp hh) ((bit0_true b).mpr hread) hm10)
  · have hno : ¬ (matchesHigh10 b x = true ∧ (b.getLsbD 0 = false ∨ x.m10 = true)) := by
      rw [hb, matchesHigh10_zero]
      exact fun h => Bool.false_ne_true h.1
    exact step_addressByte10 hr ha hs hm ((addressByte10_other hno).trans (if_pos ((generalCall_iff b x).mpr ⟨hb, hg⟩)))
  · rw [matched, ← bit0_false] at hno
    exact step_addressByte10 hr ha hs hm ((addressByte10_other hno).trans (if_neg (mt (generalCall_iff b x).mp hnocall)))
  · exact step_addressByteLow hr ha hs (if_pos ((low10eq b x.add).mpr hlow))
  · exact step_addressByteLow hr ha hs (if_neg (mt (low10eq b x.add).mp hlow))

/-- Settles O31: the two outcomes of a received byte. -/
theorem slaveDataByte : Obligations.SlaveDataByte := by
  refine fun u b s rest hr hs ha => ⟨fun h => step_slaveData hr ha hs ?_, fun h => step_slaveData hr ha hs ?_⟩ <;>
    simp [slaveData, receiveByte, addTrace, setSif, h]

/-- Settles O32: READ allows the event, and its acknowledge selects the outcome. -/
theorem slaveTransmitByte : Obligations.SlaveTransmitByte := by
  intro u s rest hr hs
  have hn : ∀ a, slaveEnabled (.sTx a) (getUnit s u) = true := fun a => by simp [slaveEnabled, hr.2.1, hs]
  exact ⟨fun ha => step_slaveEvent hr ha rfl (hn false) rfl, fun ha => step_slaveEvent hr ha rfl (hn true) rfl⟩

end Sys2Proof.Machine
end

section
/-! PROOF. DISPATCH (45 section 4): taking the interrupt, and the steps of the ISR from there to DISPATCH's response. -/

namespace Sys2Proof.Machine

/-- The interrupt is taken while its flag and its enable are 1 and no DISPATCH runs (45 R270, 60 R331). -/
theorem interruptTaken_iff (u : UnitId) (s : State) : (irq (getUnit s u) && s.isrOp.isNone) = true ↔
    (getUnit s u).sif = true ∧ (getUnit s u).con.sie = true ∧ s.isrOp = none := by
  simp [irq, and_assoc]

/-- Settles O35: the three branches of taking an interrupt. -/
theorem interruptEntry : Obligations.InterruptEntry := by
  intro u s rest hf ha
  have hstep : step s = .next (takeInterrupt u { s with agenda := rest }) := step_agenda hf ha
  have htaken := interruptTaken_iff u { s with agenda := rest }
  rw [getUnit_setBlock] at htaken
  refine ⟨fun h hb => ?_, fun h hb => ?_, fun h => ?_⟩ <;> refine hstep.trans (congrArg _ ?_)
  · exact (if_pos (htaken.mpr h)).trans (if_neg (Bool.eq_false_iff.mp hb))
  · refine (if_pos (htaken.mpr h)).trans ((if_pos hb).trans ?_)
    rw [raise, hf]
    rfl
  · exact if_neg (mt htaken.mp h)

/-- DISPATCH at the interrupt entry of its unit clears SIF and goes on to the selection (45 R271 step 1). -/
theorem exec_dispatch_entry {u : UnitId} {s : State} (hi : s.issuer = .interrupt) (hp : s.isrOp = some ⟨u, .entry⟩) :
    exec (.dispatch u) s =
      .next { onUnit u (fun x => { x with sif := false }) s with isrOp := some ⟨u, .select⟩ } := if_pos ⟨hi, hp⟩

section steps
variable {u : UnitId} {s : State} {l : List Move} (hf : faultFree s)
include hf

/-- The ISR's move at the selection (45 R271 step 2). -/
theorem step_isr_select (ha : s.agenda = .isr :: l) (hp : s.isrOp = some ⟨u, .select⟩) :
    step s = .next (dispatchSelect u { s with agenda := l }) := by
  rw [step_agenda hf ha]
  simp only [takeMove, isrStep, hp]

/-- The ISR's move at the invocation (45 R271 step 3). -/
theorem step_isr_invoke {h : Handle} {e : Event} (ha : s.agenda = .isr :: l) (hp : s.isrOp = some ⟨u, .invoke h e⟩) :
    step s = .next (dispatchInvoke u h e { s with agenda := l }) := by
  rw [step_agenda hf ha]
  simp only [takeMove, isrStep, hp]

/-- The return of the callback that runs (45 R271 step 4). -/
theorem step_callbackReturn {e : Event} (ha : s.agenda = .callbackReturn :: l) (hp : s.isrOp = some ⟨u, .calling e⟩) :
    step s = .next (endDispatch (some e) { s with agenda := l }) := by
  rw [step_agenda hf ha]
  simp only [takeMove, callbackReturn, hp]

end steps

/-- With a callback and a flag set, the selection goes on to the invocation (45 R271 step 2). -/
theorem dispatchSelect_event {u : UnitId} {s : State} {h : Handle} {e : Event} {x : BusUnit} (hc : (getUnit s u).cb = some h)
    (hsel : selectEvent (getUnit s u) = some (e, x)) :
    dispatchSelect u s = { putUnit u x s with isrOp := some ⟨u, .invoke h e⟩ } := by
  simp only [dispatchSelect, hc, hsel]

/-- With no callback or no flag set, the selection ends DISPATCH (45 R271, R273). -/
theorem dispatchSelect_nothing {u : UnitId} {s : State}
    (h : (getUnit s u).cb = none ∨ selectEvent (getUnit s u) = none) : dispatchSelect u s = endDispatch none s := by
  rcases h with h | h
  · simp only [dispatchSelect, h]
  · simp only [dispatchSelect, h]
    split <;> rfl

/-- From the selection of an event to the response, the callback returning at once (45 R271 steps 2 to 4). -/
theorem run_dispatchEvent {u : UnitId} {s : State} {l : List Move} {h : Handle} {e : Event} {x : BusUnit} (hf : faultFree s)
    (ha : s.agenda = .isr :: .isr :: .callbackReturn :: l) (hp : s.isrOp = some ⟨u, .select⟩)
    (hc : (getUnit s u).cb = some h) (hsel : selectEvent (getUnit s u) = some (e, x)) :
    core.run 3 s = .next { putUnit u x s with
      isrOp := none, inCallback := false, agenda := l,
      out := s.out ++ [.invoked u h e, .response .interrupt ⟨true, false, .event (some e)⟩] } := by
  have hselect := step_isr_select hf ha hp
  rw [dispatchSelect_event (by rwa [getUnit_setBlock]) (by rwa [getUnit_setBlock])] at hselect
  rw [core_run_next hselect,
    core_run_next (step_isr_invoke (l := .callbackReturn :: l) (by simpa using hf) (by simp) rfl),
    core_run_next (step_callbackReturn (l := l) (by simpa [faultFree] using hf) (by simp) rfl), core_run_zero]
  cases u <;> simp [endDispatch, dispatchInvoke, emit, putUnit, okResponse]

section flags
variable {x : BusUnit}

/-- A START is reported before any other event (60 R330). -/
theorem selectEvent_start (h : x.stat.sdet = true) :
    selectEvent x = some (⟨.start, 0⟩, { x with stat := { x.stat with sdet := false } }) := if_pos h

/-- A STOP is reported when no START is. -/
theorem selectEvent_stop (hs : x.stat.sdet = false) (h : x.stat.pdet = true) :
    selectEvent x = some (⟨.stop, 0⟩, { x with stat := { x.stat with pdet := false } }) := by
  simp [selectEvent, hs, h]

/-- A received byte is reported, with RCV, when neither a START nor a STOP is. -/
theorem selectEvent_byteReceived (hs : x.stat.sdet = false) (hp : x.stat.pdet = false) (h : x.stat.rbf = true) :
    selectEvent x = some (⟨.byteReceived, x.rcv⟩, { x with stat := { x.stat with rbf := false } }) := by
  simp [selectEvent, hs, hp, h, clearRbf]

/-- A requested byte is reported last. -/
theorem selectEvent_byteRequested (hs : x.stat.sdet = false) (hp : x.stat.pdet = false) (hr : x.stat.rbf = false)
    (h : x.stat.treq = true) :
    selectEvent x = some (⟨.byteRequested, 0⟩, { x with stat := { x.stat with treq := false } }) := by
  simp [selectEvent, hs, hp, hr, h]

/-- With no flag set there is no event (45 R271). -/
theorem selectEvent_none (hs : x.stat.sdet = false) (hp : x.stat.pdet = false) (hr : x.stat.rbf = false)
    (h : x.stat.treq = false) : selectEvent x = none := by
  simp [selectEvent, hs, hp, hr, h]

end flags

/-- Settles O36: DISPATCH's entry, then the run from the selection of the event whose flag is the first set. -/
theorem dispatchReportsOneEventByPriority : Obligations.DispatchReportsOneEventByPriority := by
  intro u h s rest hf hi hp hc ha
  refine ⟨_, exec_dispatch_entry hi hp, rfl, by simp, ?_⟩
  have hrun : ∀ {e : Event} {st : Stat},
      selectEvent { getUnit s u with sif := false } = some (e, { getUnit s u with sif := false, stat := st }) →
      core.run 3 { onUnit u (fun x => { x with sif := false }) s with isrOp := some ⟨u, .select⟩ } =
        .next { onUnit u (fun x => { x with sif := false, stat := st }) s with
          isrOp := none, inCallback := false, agenda := rest,
          out := s.out ++ [.invoked u h e, .response .interrupt ⟨true, false, .event (some e)⟩] } := fun hsel => by
    rw [run_dispatchEvent (by simpa using hf) (by simpa using ha) rfl (by simpa using hc) (by simpa using hsel)]
    cases u <;> rfl
  exact ⟨fun h1 => hrun (selectEvent_start h1), fun h1 h2 => hrun (selectEvent_stop h1 h2),
    fun h1 h2 h3 => hrun (selectEvent_byteReceived h1 h2 h3),
    fun h1 h2 h3 h4 => hrun (selectEvent_byteRequested h1 h2 h3 h4)⟩

/-- Settles O37: DISPATCH's entry, then a selection that ends it. -/
theorem dispatchWithNothingToReport : Obligations.DispatchWithNothingToReport := by
  intro u s rest hf hi hp ha hnone
  refine ⟨_, exec_dispatch_entry hi hp, ?_⟩
  rw [core_run_next (step_isr_select (by simpa using hf) (by simpa using ha) rfl), core_run_zero, dispatchSelect_nothing]
  · cases u <;> rfl
  · simp only [getUnit_setBlock, getUnit_onUnit]
    exact hnone.imp_right fun ⟨hs, hpd, hrb, htr⟩ => selectEvent_none hs hpd hrb htr

end Sys2Proof.Machine
end

section
/-! PROOF. A step on a request (46 R298, 45 R271), and the class N commands of 46: CLEAR_ERRORS, the accessors and
REGISTER_CALLBACK, each one response, over what a configuration word holds field by field (30_encoding R106). -/

namespace Sys2Proof.Machine

/-! ## The step -/

/-- A request that decodes runs its instruction, with the context it came from recorded (46 R298). -/
theorem serve_decoded {r : Request} {i : Instr} (h : decode r = .ok i) (c : Issuer) (s : State) :
    serve c r s = exec i { s with issuer := c } := by
  rw [serve, h]

/-- With nothing fixed the step takes the free move (log 1). -/
theorem step_free {s : State} (hf : faultFree s) (ha : s.agenda = []) :
    step s = takeMove (Config.freeMove s.tick) { s with tick := s.tick + 1 } := by
  simp only [step, hf, ha]

/-- The ISR's move at the interrupt entry runs DISPATCH of its unit (45 R271). -/
theorem step_isr_entry {u : UnitId} {s : State} {l : List Move} (hf : faultFree s) (ha : s.agenda = .isr :: l)
    (hp : s.isrOp = some ⟨u, .entry⟩) : step s = exec (.dispatch u) { s with agenda := l, issuer := .interrupt } := by
  have hdispatch : decode (dispatchRequest u) = .ok (.dispatch u) :=
    decode_encode_command (i := .dispatch u) (Option.some_ne_none _)
  rw [step_agenda hf ha]
  simp only [takeMove, isrStep, hp]
  exact serve_decoded hdispatch _ _

/-- Settles O1: the move each agenda begins with, and `serve_decoded` for those that hand over a request. -/
theorem stepRunsDecodedInstruction : Obligations.StepRunsDecodedInstruction := by
  intro s rest r i hf hr
  have hserve := serve_decoded hr
  refine ⟨fun ha => ?_, fun ha hcb => ?_, step_free hf, hserve _ _, fun u ha hp => step_isr_entry hf ha hp⟩
  · exact (step_agenda hf ha).trans (hserve _ _)
  · exact (step_agenda hf ha).trans ((if_pos hcb).trans (hserve _ _))

/-! ## The configuration word -/

/-- One bit of a word as a word of its own. -/
theorem ofBool_getLsbD {n : Nat} (w : BitVec n) (j : Nat) : BitVec.ofBool (w.getLsbD j) = w.extractLsb' j 1 := by
  ext k hk
  obtain rfl : k = 0 := by omega
  simp

/-- A CFGW64 word is its fields put together (30_encoding R106). -/
theorem configWord_fields (w : BitVec 64) :
    w.extractLsb' 32 32 ++ w.extractLsb' 16 16 ++ w.extractLsb' 6 10 ++ BitVec.ofBool (w.getLsbD 5) ++
      BitVec.ofBool (w.getLsbD 4) ++ BitVec.ofBool (w.getLsbD 3) ++ BitVec.ofBool (w.getLsbD 2) ++ w.extractLsb' 0 2 =
      w := by
  simp (disch := rfl) only [ofBool_getLsbD, BitVec.extractLsb'_append_extractLsb'_eq_extractLsb']
  exact BitVec.extractLsb'_eq_self

/-- The word of a configuration holds each of its fields at the field's place (30_encoding R106). -/
theorem wordOfConfig_fields (c : Configuration) :
    (wordOfConfig c).extractLsb' 32 32 = c.speedHz ∧ (wordOfConfig c).extractLsb' 16 16 = c.timeoutMs ∧
      (wordOfConfig c).extractLsb' 6 10 = c.ownAddr ∧ (wordOfConfig c).getLsbD 5 = c.ie ∧
      (wordOfConfig c).getLsbD 4 = c.smen ∧ (wordOfConfig c).getLsbD 3 = c.slew ∧ (wordOfConfig c).getLsbD 2 = c.gc ∧
      (wordOfConfig c).extractLsb' 0 2 = roleBits c.role := by
  simpa only [append_eq_append, BitVec.ofBool_eq_iff_eq, and_assoc] using
    (configWord_fields (wordOfConfig c)).trans (wordOfConfig.eq_1 c)

/-- The configuration of a word whose role is not the reserved one encodes as that word (30_encoding R106). -/
theorem wordOfConfig_configOfWord {w : BitVec 64} (h : w.extractLsb' 0 2 ≠ 3#2) : wordOfConfig (configOfWord w) = w := by
  have hrole : roleBits (configOfWord w).role = w.extractLsb' 0 2 := (roleOfBits_getD .master _).1 h
  rw [wordOfConfig, hrole]
  exact configWord_fields w

/-! ## The class N commands -/

/-- A response to the context that issued the command, beside an update of one unit (70 R369). -/
theorem respond_onUnit (u : UnitId) (f : BusUnit → BusUnit) (r : Response) (s : State) :
    respond r (onUnit u f s) = { onUnit u f s with out := s.out ++ [.response s.issuer r] } := by
  cases u <;> rfl

/-- Settles O42: CLEAR_ERRORS runs at once, and its response follows the update. -/
theorem clearErrorsTouchesBookkeepingOnly : Obligations.ClearErrorsTouchesBookkeepingOnly := fun u s h =>
  congrArg Host.Outcome.next ((issueAtOnce_runs h _ _).trans (respond_onUnit u _ _ s))

/-- Settles O44: REGISTER_CALLBACK runs at once, and its response follows the update. -/
theorem registerCallbackReplaces : Obligations.RegisterCallbackReplaces := fun u _ s hs =>
  congrArg Host.Outcome.next ((issueAtOnce_runs hs _ _).trans (respond_onUnit u _ _ s))

/-- Settles O43: each accessor is one response; `codeBits_mem`, `wordOfConfig_fields` and `roleBits_mem` say what it
carries. -/
theorem accessorsReadAndWriteNothing : Obligations.AccessorsReadAndWriteNothing := by
  refine fun u s => ⟨rfl, fun h => ?status, fun h => ?config⟩
  case status => exact ⟨_, congrArg Host.Outcome.next (issueAtOnce_runs h _ _), codeBits_mem _⟩
  case config =>
    refine ⟨_, congrArg Host.Outcome.next (issueAtOnce_runs h _ _), ?_⟩
    obtain ⟨hspeed, htimeout, haddr, hie, hsmen, hslew, hgc, hrole⟩ := wordOfConfig_fields (getUnit s u).cfg
    exact ⟨hspeed, htimeout, haddr, hie, hsmen, hslew, hgc, hrole ▸ roleBits_mem _⟩

end Sys2Proof.Machine
end

section
/-! PROOF. INIT (46 R290): its two writes of CON as words that carry no command bit, and its six steps. -/

namespace Sys2Proof.Machine

/-! ## The two writes of CON -/

/-- A written word that is a CON configures the unit as that CON does (40 R131). -/
theorem conFields_conWord (d c : Con) : conFields (conWord d) c = { d with cmd := c.cmd } := by
  simp only [conFields, conWord_en, conWord_sie, conWord_mode, conWord_slw, conWord_smen, conWord_gcen, conWord_ackdt,
    roleOfBits_roleBits, Option.getD_some]

/-- A written word without command bits has no command part (40 R131, R133). -/
theorem conWrite_conWord {d : Con} (hd : d.cmd = 0#5) (x : BusUnit) :
    conWrite (conWord d) x = conConfigPart (conWord d) x := by
  rw [conWrite, conWord_cmd, hd]
  exact conCommandPart_nothingNew BitVec.zero_and

/-- CON as a configuration sets it, with command bits `cmd` (46 R290 step 5). -/
def configuredCon (c : Configuration) (cmd : BitVec 5) : Con := ⟨true, c.ie, c.role, c.slew, c.smen, c.gc, false, cmd⟩

/-- The word of step 5 is that CON with no command bit (46 R290). -/
theorem initConWord_eq (c : Configuration) : initConWord c = conWord (configuredCon c 0#5) := by
  obtain ⟨role, _, _, gc, slew, smen, _, ie⟩ := c
  simp only [initConWord, conWord, configuredCon]
  revert gc slew smen ie
  cases role <;> decide

/-- The command bits that step 1 leaves: Disable clears those of an enabled unit (40 R132, 70 R362). -/
def keptCmd (x : BusUnit) : BitVec 5 := if x.con.en then 0#5 else x.con.cmd

/-- The unit after step 1: disabled, with CON at its reset value but for command bits that were accepted while it was
already disabled (46 R290, 40 R132, 70 R362). -/
def disabledByInit (x : BusUnit) : BusUnit :=
  { x with
    con := { Con.reset with cmd := keptCmd x }
    stat := if x.con.en then Stat.zero else x.stat
    sif := if x.con.en then false else x.sif
    slv := if x.con.en then .idle else x.slv
    m10 := if x.con.en then false else x.m10 }

/-- Step 1 writes 0 to CON (46 R290). -/
theorem conWrite_zero (x : BusUnit) : conWrite 0#16 x = disabledByInit x := by
  have hword : (0#16 : Word) = conWord Con.reset := by decide
  rw [hword, conWrite_conWord rfl, disabledByInit, keptCmd]
  cases hen : x.con.en
  · rw [conConfigPart_of_enabled (.inl hen), conFields_conWord]
    rfl
  · rw [conConfigPart_of_disabled hen (conWord_en _), conFields_conWord]
    rfl

/-- Step 5, on a unit that step 1 has disabled, leaves the command bits pending (46 R290, 70 R362). -/
theorem conWrite_initConWord {x : BusUnit} (hen : x.con.en = false) (c : Configuration) :
    conWrite (initConWord c) x = { x with con := configuredCon c x.con.cmd } := by
  rw [initConWord_eq, conWrite_conWord rfl, conConfigPart_of_enabled (.inl hen), conFields_conWord]
  rfl

/-! ## The six steps -/

/-- The unit after INIT (46 R290). -/
def initialised (c : Configuration) (h : Option Handle) (x : BusUnit) : BusUnit :=
  { disabledByInit x with
    con := configuredCon c (keptCmd x)
    add := c.ownAddr
    brg := dividerWord c.speedHz
    sif := false
    code := .idle
    busy := false
    cfg := c
    cb := h }

section steps
variable {u : UnitId} {w : BitVec 64} {h : Option Handle} {s : State}

/-- INIT handed over has disabled the unit and goes on to step 2 (46 R290). -/
theorem exec_init (he : engineFree s) (hw : w.extractLsb' 0 2 ≠ 3#2) : exec (.init u w h) s =
    .next (flying u (disabledByInit (getUnit s u)) (.init u w h) (.initStore (configOfWord w) h) .alone s.tcnt s.agenda
      s) := by
  have hlegal : roleReserved w = false := roleReserved_of_wellFormed (u := u) (h := h) (bne_iff_ne.mpr hw)
  refine (if_neg (Bool.eq_false_iff.mp hlegal)).trans (congrArg Host.Outcome.next ?_)
  rw [issue_free he, positionStep, hwWrite_flying, goto_flying]
  exact congrArg (flying u · _ _ _ _ _ s) (conWrite_zero _)

/-- Steps 2 to 6 on a unit that step 1 has disabled (46 R290). -/
theorem run_initStore (hf : faultFree s) (x : BusUnit) (c : Configuration) (n : BitVec 32) (l : List Move) :
    core.run 5 (flying u (disabledByInit x) (.init u w h) (.initStore c h) .alone n (List.replicate 5 .engine ++ l) s) =
      .next (landed u (initialised c h x) n l true .none s) := by
  have hstep : ∀ m y p l, core.run (m + 1) (flying u y (.init u w h) p .alone n (.engine :: l) s) =
      core.run m (positionStep u p .alone (flying u y (.init u w h) p .alone n l s)) := fun m y p l =>
    core_run_next (step_flying_engine u y _ p .alone n l s rfl hf) m
  simp only [List.replicate_succ, List.replicate_zero, List.cons_append, List.nil_append, hstep, positionStep,
    onUnit_flying, hwWrite_flying, goto_flying, finish_flying, core_run_zero]
  rw [writeOffset_con, writeOffset_brg, writeOffset_add, conWrite_initConWord rfl, addWrite,
    BitVec.extractLsb'_setWidth_of_le (by decide), BitVec.extractLsb'_eq_self]
  rfl

end steps

/-- Settles O41: step 1 disables the unit and keeps `keptCmd`, and the run of the other five gives `initialised`. -/
theorem initConfiguresTheUnit : Obligations.InitConfiguresTheUnit := by
  intro u w h s rest hf he hw ha
  refine ⟨_, exec_init he hw, ?_, configOfWord w, wordOfConfig_configOfWord hw, ?_⟩
  · rw [getUnit_flying]
    rfl
  · rw [ha]
    refine (run_initStore hf _ _ _ rest).trans ?_
    rw [landed_eq he.2]
    cases u <;> rfl

end Sys2Proof.Machine
end

section
/-! PROOF. Reset (70 R350 to R356): what the reset state holds, and the invariants it meets. -/

namespace Sys2Proof.Machine

/-- Both units are at reset alike (70 R350). -/
theorem getUnit_reset (u : UnitId) : getUnit State.reset u = BusUnit.reset := by
  cases u <;> rfl

/-- Every register of a unit at reset reads 0, the reserved offsets too (70 R350, 40 R146). -/
theorem readOffset_reset : ∀ off : BitVec 4, readOffset off BusUnit.reset = 0x0000#16 := by decide

/-- Settles O8: `readOffset_reset` for the registers; each other field is the one `BusUnit.reset` or `State.reset` names. -/
theorem resetStateIsAsSpecified : Obligations.ResetStateIsAsSpecified := by
  refine ⟨fun a => ?_, fun u => ?_, rfl, rfl, rfl, rfl, rfl⟩
  · rw [memRead_eq, getUnit_reset, readOffset_reset]
  · rw [getUnit_reset]
    exact ⟨rfl, rfl, rfl, rfl, rfl, rfl, rfl, rfl, rfl, rfl, rfl⟩

/-- A unit at reset has no command bit pending and the code IDLE (10_state R27, 60 R321). -/
theorem unitInv_reset : unitInv BusUnit.reset := ⟨popcount5_zero, by decide, by decide⟩

/-- A unit at reset is clean (70 R355). -/
theorem cleanUnit_reset : cleanUnit BusUnit.reset := ⟨rfl, rfl, rfl, rfl, rfl, rfl, rfl⟩

/-- At reset nothing is on the agenda and every free move is still to come, so the host is done exactly when no free move
is a request (70 R356, log 1). -/
theorem hostDone_reset_iff : hostDone State.reset ↔ ∀ n, isRequest (Config.freeMove n) = false :=
  ⟨fun ⟨_, hfree⟩ n => hfree n (Nat.zero_le n), fun hfree => ⟨fun _ hm => absurd hm List.not_mem_nil, fun n _ => hfree n⟩⟩

/-- Settles O9: at reset nothing is in flight and nothing pending, so of the end of a run only `hostDone` is left to ask. -/
theorem resetMeetsTheInvariants : Obligations.ResetMeetsTheInvariants := by
  refine ⟨⟨unitInv_reset, unitInv_reset, rfl, nofun, rfl⟩, trivial,
    ⟨rfl, cleanUnit_reset, cleanUnit_reset, rfl, rfl⟩, ?_⟩
  rw [← hostDone_reset_iff]
  exact ⟨fun ⟨_, hdone, _⟩ => hdone, fun hdone => ⟨rfl, hdone, rfl, rfl, rfl, rfl⟩⟩

end Sys2Proof.Machine
end

section
/-! PROOF. The model faults (60 R322 to R326): what raising one does, and the three guards that raise one in an event, in a
polled command and in DISPATCH. -/

namespace Sys2Proof.Machine

/-- The first fault is marked and changes nothing else (60 R322). -/
theorem raise_of_faultFree {s : State} (hf : faultFree s) (f : Fault) : raise f s = { s with faultMark := some f } := by
  rw [raise, hf, Option.getD_none]

/-- A fault after the first leaves the mark, and so the state, as it is (60 R322). -/
theorem raise_of_marked {s : State} {f : Fault} (h : s.faultMark = some f) (g : Fault) : raise g s = s := by
  rw [raise, h, Option.getD_some, ← h]

/-- Settles O34: the step asks for the mark before the agenda, and `raise_of_marked`. -/
theorem faultStopsEveryAgent : Obligations.FaultStopsEveryAgent := by
  intro s f g h
  refine ⟨?_, raise_of_marked h g⟩
  rw [step, h]

/-- Only a slave event can be enabled as one (45 R260). -/
theorem isSlaveEvent_of_enabled {e : BusEvent} {x : BusUnit} (h : slaveEnabled e x = true) : isSlaveEvent e = true := by
  cases e with
  | sStart | sStop | sRxByte | sTx => rfl
  | doneSen | doneRsen | donePen | doneXen | doneRcen | collide => cases h

/-- A slave event that is enabled faults on a unit with a master operation (60 R323). -/
theorem busEvent_during_master {u : UnitId} {e : BusEvent} {s : State} (he : slaveEnabled e (getUnit s u) = true)
    (hm : pending (getUnit s u) = true ∨ masterBusy u s = true) : busEvent u e s = raise .slaveDuringMaster s := by
  have hguard : (pending (getUnit s u) || masterBusy u s) = true := by rwa [Bool.or_eq_true]
  rw [busEvent, if_pos (isSlaveEvent_of_enabled he), if_pos he, if_pos hguard]

/-- Settles O33: taking the event off the agenda leaves its unit and the command in flight, on which `busEvent` faults. -/
theorem slaveEventDuringMasterFaults : Obligations.SlaveEventDuringMasterFaults := by
  intro u e s rest hf ha he hm
  have hfault := busEvent_during_master (s := { s with agenda := rest }) (by rwa [getUnit_setBlock])
    (by rwa [getUnit_setBlock])
  rw [step_agenda hf ha, takeMove, hfault, raise_of_faultFree (by exact hf)]

/-- Settles O38: `execDispatch` asks for the interrupt context first. -/
theorem dispatchOutsideTheInterruptFaults : Obligations.DispatchOutsideTheInterruptFaults := by
  intro u s hf hi
  have houtside : ¬ (s.issuer = .interrupt ∧ s.isrOp = some ⟨u, .entry⟩) := fun h => hi h.1
  refine (if_neg houtside).trans ?_
  rw [raise_of_faultFree hf]

/-- While a callback runs, the ENGINE is handed nothing: the command faults (60 R325). -/
theorem issue_inCallback {s : State} (hcb : s.inCallback = true) (i : Instr) (p : Position) (k : Frame) :
    issue i p k s = raise .blockingInCallback s := if_pos hcb

/-- Issuing a class N command keeps the fault mark and `in_callback` when its step does. -/
theorem issueAtOnce_keeps_marks {i : Instr} {act : State → State} {s : State}
    (h : (act s).faultMark = s.faultMark ∧ (act s).inCallback = s.inCallback) :
    (issueAtOnce i act s).faultMark = s.faultMark ∧ (issueAtOnce i act s).inCallback = s.inCallback := by
  rcases issueAtOnce_cases i act s with e | e <;> rw [e]
  exacts [⟨rfl, rfl⟩, h]

/-- A response after a change of a unit keeps the fault mark and `in_callback`. -/
theorem respondOnUnit_keeps_marks (r : Response) (u : UnitId) (f : BusUnit → BusUnit) (s : State) :
    (respond r (onUnit u f s)).faultMark = s.faultMark ∧ (respond r (onUnit u f s)).inCallback = s.inCallback := by
  rw [respond_faultMark, onUnit_faultMark, respond_inCallback, onUnit_inCallback]
  exact ⟨rfl, rfl⟩

/-- A class N command raises no fault and leaves a running callback running (45 R272, 46 R298). -/
theorem exec_classN_keeps_marks {i : Instr} (hc : commandClass i = some .N) (s : State) :
    ∃ t, exec i s = .next t ∧ t.faultMark = s.faultMark ∧ t.inCallback = s.inCallback := by
  cases i with
  | clearErrors | registerCallback => exact ⟨_, rfl, issueAtOnce_keeps_marks (respondOnUnit_keeps_marks ..)⟩
  | getStatus | getConfig | calcDivider => exact ⟨_, rfl, issueAtOnce_keeps_marks ⟨rfl, rfl⟩⟩
  | isBusy => exact ⟨_, rfl, rfl, rfl⟩
  | _ => simp [commandClass] at hc

/-- Settles O39: a class B or P command goes to `issue`, which faults; a class N command keeps the mark. -/
theorem blockingCommandInCallbackFaults : Obligations.BlockingCommandInCallbackFaults := by
  intro i s hf hcb
  refine ⟨fun hw hc => ?_, fun hc => ?_⟩
  · obtain ⟨p, k, hexec⟩ := exec_eq_issue hw hc
    rw [hexec, issue_inCallback hcb, raise_of_faultFree hf]
  · obtain ⟨t, hexec, hmark, hrun⟩ := exec_classN_keeps_marks hc s
    exact ⟨t, hexec, hmark.trans hf, hrun.trans hcb⟩

end Sys2Proof.Machine
end

section
/-! PROOF. Each unit's registers and Per-Unit State are its own (60 R338): what an instruction, an event, an engine step and
a step of the ISR leave of the other unit. -/

namespace Sys2Proof.Machine

/-- The ENGINE's step touches the unit of its command alone. -/
theorem getUnit_engineStep_other {s : State} {f : InFlight} (hp : s.polledOp = some f) {w : UnitId} (h : w ≠ unitOf f.cmd) :
    getUnit (engineStep s) w = getUnit s w := by
  rw [engineStep, hp]
  exact getUnit_positionStep_other h _ _ _

/-- Handing over a polled command touches its unit alone: it faults, is held, or runs its first step. -/
theorem getUnit_issue_other {i : Instr} {w : UnitId} (h : w ≠ unitOf i) (p : Position) (k : Frame) (s : State) :
    getUnit (issue i p k s) w = getUnit s w := by
  unfold issue
  split
  · exact getUnit_raise ..
  · split
    · exact getUnit_hold ..
    · exact (getUnit_engineStep_other rfl h).trans (getUnit_setBlock ..)

/-- An instruction touches its unit alone. -/
theorem getUnit_execResult_other {i : Instr} {s t : State} (ht : ExecResult i s t) {w : UnitId} (h : w ≠ unitOf i) :
    getUnit t w = getUnit s w := by
  cases ht with
  | answered => exact getUnit_respond ..
  | held => exact getUnit_hold ..
  | raised => exact getUnit_raise ..
  | cleared | registered => exact (getUnit_respond ..).trans (getUnit_onUnit_other h ..)
  | issued => exact getUnit_issue_other h ..
  | wrote => exact getUnit_hwWrite_other h ..
  | read => exact (getUnit_emit ..).trans (getUnit_onUnit_other h ..)
  | dispatched => exact (getUnit_setBlock ..).trans (getUnit_onUnit_other h ..)

/-- `exec` touches the unit of its instruction alone. -/
theorem getUnit_exec_other {i : Instr} {s t : State} (hexec : exec i s = .next t) {w : UnitId} (h : w ≠ unitOf i) :
    getUnit t w = getUnit s w := by
  obtain ⟨t', ht', hr⟩ := exec_result i s
  obtain rfl := Host.Outcome.next.inj (ht'.symm.trans hexec)
  exact getUnit_execResult_other hr h

/-- An event of a bus happens to its unit, faults, or does not happen (40 R149, 60 R323). -/
theorem busEvent_cases (u : UnitId) (e : BusEvent) (s : State) :
    busEvent u e s = onUnit u (unitEvent e) s ∨ busEvent u e s = raise .slaveDuringMaster s ∨ busEvent u e s = s := by
  unfold busEvent
  split
  · split
    · split
      · exact .inr (.inl rfl)
      · exact .inl rfl
    · exact .inr (.inr rfl)
  · exact .inl rfl

/-- An event of a bus touches its unit alone. -/
theorem getUnit_busEvent_other {u w : UnitId} (h : w ≠ u) (e : BusEvent) (s : State) :
    getUnit (busEvent u e s) w = getUnit s w := by
  rcases busEvent_cases u e s with hb | hb | hb <;> rw [hb]
  · exact getUnit_onUnit_other h ..
  · exact getUnit_raise ..

/-- Taking an interrupt touches no unit (45 R270). -/
theorem getUnit_takeInterrupt (u : UnitId) (s : State) (w : UnitId) : getUnit (takeInterrupt u s) w = getUnit s w := by
  rcases takeInterrupt_cases u s with e | e | ⟨_, e⟩ <;> rw [e]
  · exact getUnit_raise ..
  · exact getUnit_setBlock ..

/-- DISPATCH's selection touches its unit alone (45 R271 step 2). -/
theorem getUnit_dispatchSelect_other {u w : UnitId} (h : w ≠ u) (s : State) :
    getUnit (dispatchSelect u s) w = getUnit s w := by
  rcases dispatchSelect_cases u s with ⟨_, e⟩ | ⟨_, _, _, e⟩ <;> rw [e]
  · exact getUnit_endDispatch ..
  · exact (getUnit_setBlock ..).trans (getUnit_onUnit_other h ..)

/-- The return of a callback touches no unit (45 R271 step 4). -/
theorem getUnit_callbackReturn (s : State) (w : UnitId) : getUnit (callbackReturn s) w = getUnit s w := by
  rcases callbackReturn_cases s with e | ⟨_, e⟩ <;> rw [e]
  exact getUnit_endDispatch ..

/-- At the interrupt entry the ISR hands over DISPATCH of its unit (45 R271). -/
theorem serve_dispatchRequest (u : UnitId) (s : State) :
    serve .interrupt (dispatchRequest u) s = exec (.dispatch u) { s with issuer := .interrupt } :=
  serve_decoded (decode_encode_command (i := .dispatch u) (Option.some_ne_none _)) _ _

/-- Every step of a DISPATCH touches its unit alone (45 R271). -/
theorem getUnit_isrStep_other {s t : State} {f : Servicing} (hp : s.isrOp = some f) {w : UnitId} (h : w ≠ f.unit)
    (ht : isrStep s = .next t) : getUnit t w = getUnit s w := by
  obtain ⟨u, pos⟩ := f
  cases pos <;> simp only [isrStep, hp, Host.Outcome.next.injEq] at ht
  case entry =>
    rw [serve_dispatchRequest] at ht
    exact (getUnit_exec_other ht h).trans (getUnit_setBlock ..)
  case select => exact ht ▸ getUnit_dispatchSelect_other h s
  case invoke => exact ht ▸ getUnit_dispatchInvoke ..
  case calling => rw [ht]

/-- Settles O12: one lemma per agent's step. -/
theorem otherUnitIsUntouched : Obligations.OtherUnitIsUntouched := fun s _ w =>
  ⟨fun _ hexec h => getUnit_exec_other hexec h, fun _ e h => getUnit_busEvent_other h e s,
    fun _ hp h => getUnit_engineStep_other hp h, fun u => getUnit_takeInterrupt u s w,
    fun _ hp h ht => getUnit_isrStep_other hp h ht, getUnit_callbackReturn s w⟩

end Sys2Proof.Machine
end

section
/-! PROOF. Every polled command in flight ends (60 R327, 70 R370), from every position: those inside the primitives by
`back_all`, whatever the composite does with their result, and those of INIT one after the other. -/

namespace Sys2Proof.Machine

section init
variable {u : UnitId} {k : Frame}

/-- A position whose step only goes on to one that ends, ends. -/
theorem endsAt_of_goto {p q : Position} {f : State → State} (h : EndsAt u q k)
    (hstep : ∀ s, positionStep u p k s = goto q k (f s)) (hf : ∀ s, (f s).polledOp = s.polledOp) : EndsAt u p k :=
  endsAt_of fun s i hi hs => by
    rw [hstep]
    exact h _ i p k hi ((hf s).trans hs)

/-- INIT's last step returns (46 R290). -/
theorem at_initDone : EndsAt u .initDone k := endsAt_of fun _ _ _ _ => ends_none rfl

/-- INIT ends from its step 5 (46 R290). -/
theorem at_initCon (c : Configuration) : EndsAt u (.initCon c) k :=
  endsAt_of_goto at_initDone (fun _ => rfl) fun _ => hwWrite_polledOp ..

/-- INIT ends from its step 4 (46 R290). -/
theorem at_initAdd (c : Configuration) : EndsAt u (.initAdd c) k :=
  endsAt_of_goto (at_initCon c) (fun _ => rfl) fun _ => hwWrite_polledOp ..

/-- INIT ends from its step 3 (46 R290). -/
theorem at_initBrg (c : Configuration) : EndsAt u (.initBrg c) k :=
  endsAt_of_goto (at_initAdd c) (fun _ => rfl) fun _ => hwWrite_polledOp ..

/-- INIT ends from its step 2 (46 R290). -/
theorem at_initStore (c : Configuration) (h : Option Handle) : EndsAt u (.initStore c h) k :=
  endsAt_of_goto (at_initBrg c) (fun _ => rfl) fun _ => onUnit_polledOp ..

/-- INIT ends from its step 1 (46 R290). -/
theorem at_initDisable (c : Configuration) (h : Option Handle) : EndsAt u (.initDisable c h) k :=
  endsAt_of_goto (at_initStore c h) (fun _ => rfl) fun _ => hwWrite_polledOp ..

end init

/-- A command ends from every position with every frame. -/
theorem endsAt_all (u : UnitId) (p : Position) (k : Frame) : EndsAt u p k := by
  have hback : EndsBack u k := back_all k
  cases p with
  | claim => exact at_claim hback
  | setSen => exact at_setSen hback
  | release => exact at_release hback
  | setRsen => exact at_setRsen hback
  | setPen => exact at_setPen hback
  | settle => exact at_settle hback
  | loadTrn d => exact at_loadTrn hback d
  | setXen => exact at_setXen hback
  | checkAck => exact at_checkAck hback
  | setAckdt a => exact at_setAckdt hback a
  | setRcen => exact at_setRcen hback
  | takeByte ok => exact at_takeByte hback ok
  | waitLoad w => exact at_waitLoad hback w
  | waitLoop w => exact at_waitLoop hback w
  | addrNack => exact at_addrNack hback
  | initDisable c h => exact at_initDisable c h
  | initStore c h => exact at_initStore c h
  | initBrg c => exact at_initBrg c
  | initAdd c => exact at_initAdd c
  | initCon c => exact at_initCon c
  | initDone => exact at_initDone

/-- Going to the position a command is at changes nothing. -/
theorem goto_self {s : State} {f : InFlight} (hs : s.polledOp = some f) : goto f.pos f.frame s = s := by
  rw [goto_of_some hs, ← hs]

/-- Settles O60: with nothing in flight the run of no step will do, and a command in flight ends from where it is. -/
theorem engineAlwaysFinishes : Obligations.EngineAlwaysFinishes := by
  intro s
  show Ends s
  cases hs : s.polledOp with
  | none => exact ends_none hs
  | some f => exact goto_self hs ▸ endsAt_all (unitOf f.cmd) f.pos f.frame s f.cmd f.pos f.frame rfl hs

end Sys2Proof.Machine
end
